-- ==== Sys2Proof/Word.lean ====
section
/-!
DEFINITION. The value types of the GF(2) core: words, scalars, field elements, bit vectors, bit matrices.
-/

namespace Sys2Proof

/-- A 32-bit register of the window, and a command word (10_state.md R40, 30_encoding.md R90). -/
abbrev Word := BitVec 32

/-- The contents of a scalar register, XW = 16 bits (10_state.md R34). -/
abbrev Scalar := BitVec 16

/-- A GF(2^4) element: bit j is the coefficient of x^j modulo x^4 + x + 1 (00_scope.md R15). -/
abbrev Gf := BitVec 4

/-- A Vector: a sequence of bits, index 0 the first coordinate (00_scope.md R13). The empty list is the
empty vector register (10_state.md R33). -/
abbrev Vec := List Bool

/-- A Matrix: a sequence of row vectors (00_scope.md R13). The empty list is the empty (0 x 0) matrix
register (10_state.md R32). -/
abbrev Mat := List Vec

/-- A register number 0..7 of any of the three files (10_state.md R31, R33, R34; 30_encoding.md R91). -/
abbrev Reg := Fin 8

end Sys2Proof
end

