-- ==== Sys2Proof/Config.lean ====
section
/-!
DEFINITION. The implementation parameters of 00_scope.md R8, and the one value the spec leaves free.
-/

namespace Sys2Proof

/-- DMAX: the largest row count, column count and vector length (00_scope.md R8). -/
@[simp] def Config.dmax : Nat := 256

/-- KG_MAX_ATTEMPTS: the attempts of KINV before it faults (00_scope.md R8, 43_keygen.md R186). -/
def Config.kgMaxAttempts : Nat := 256

/-- LOG[0], an "unspecified sentinel, never read by any rule" (10_state.md R37; 93_implementation_defined.md U1).
It has no body: nothing can be proved about its value. DESIGN CHOICE, safe: log entry 7. -/
opaque Config.logZero : Nat

end Sys2Proof
end

