-- ==== Sys2Proof/Machine/Bits.lean ====
section
/-!
DEFINITION. GF(2) vectors and matrices as data: bits, sums, products, transposes, blocks, Gauss-Jordan inversion.
Nothing here touches the state.
-/

namespace Sys2Proof.Machine

/-! ## Vectors -/

/-- `v[j]`, and 0 outside the vector (00_scope.md R13). -/
def Vec.bit (v : Vec) (j : Nat) : Bool := v.getD j false

/-- The all-zero vector of length n (00_scope.md R16). -/
def Vec.zero (n : Nat) : Vec := List.replicate n false

/-- Coordinate-wise XOR of two vectors of one length: GF(2) addition (00_scope.md R14). -/
def Vec.xor (u w : Vec) : Vec := List.zipWith Bool.xor u w

/-- The dot product over GF(2): "AND then XOR-reduce" (00_scope.md R17). -/
def Vec.dot (u w : Vec) : Bool := (List.zipWith Bool.and u w).foldl Bool.xor false

/-- Flip coordinate p; a position outside the vector changes nothing. -/
def Vec.flip (v : Vec) (p : Nat) : Vec := v.modify p Bool.not

/-- The unit vector of length n with its one 1 at p. -/
def Vec.unit (n p : Nat) : Vec := (List.range n).map fun j => decide (j = p)

/-- The first `count` consecutive blocks of n coordinates: block b is coordinates n*b .. n*b + n - 1
(44_encoder.md R205). -/
def Vec.blocks (n : Nat) : Nat → Vec → List Vec
  | 0, _ => []
  | count + 1, v => v.take n :: Vec.blocks n count (v.drop n)

/-! ## Matrices -/

/-- `A.rows` (00_scope.md R13). -/
def Mat.nrows (A : Mat) : Nat := A.length

/-- `A.cols` (00_scope.md R13): the length of the rows; 0 for the empty matrix (10_state.md R32). -/
def Mat.ncols (A : Mat) : Nat := (A.headD []).length

/-- Row r of A. -/
def Mat.row (A : Mat) (r : Nat) : Vec := A.getD r []

/-- `A[r][c]`, and 0 outside the shape (00_scope.md R13). -/
def Mat.bit (A : Mat) (r c : Nat) : Bool := Vec.bit (Mat.row A r) c

/-- Column c of A. -/
def Mat.column (A : Mat) (c : Nat) : Vec := A.map fun row => Vec.bit row c

/-- `zeros(R, C)` (00_scope.md R16). -/
def Mat.zeros (R C : Nat) : Mat := List.replicate R (Vec.zero C)

/-- `I_n` (00_scope.md R16): row r is the unit vector with its 1 at r. -/
def Mat.identity (n : Nat) : Mat := (List.range n).map (Vec.unit n)

/-- The transpose: row c of the result is column c of A (00_scope.md R19). -/
def Mat.transpose (A : Mat) : Mat := (List.range (Mat.ncols A)).map (Mat.column A)

/-- The vector-matrix product `v·B`: coordinate c is the dot product of v with column c of B (00_scope.md R18). -/
def Vec.mulMat (v : Vec) (B : Mat) : Vec := (Mat.transpose B).map (Vec.dot v)

/-- The matrix product `A·B`: row r is (row r of A)·B (00_scope.md R17). -/
def Mat.mul (A B : Mat) : Mat := A.map fun row => Vec.mulMat row B

/-- Block-diagonal replication: L copies of A along the diagonal of a zero matrix. Row i of copy b stands after
b·cols zeros and before (L-1-b)·cols zeros (42_code.md R167). -/
def Mat.blockDiagonal (A : Mat) (L : Nat) : Mat :=
  (List.range L).flatMap fun b =>
    A.map fun row => Vec.zero (b * Mat.ncols A) ++ row ++ Vec.zero ((L - 1 - b) * Mat.ncols A)

/-- Add row src into row dst: `row dst <- row dst XOR row src` (43_keygen.md R184). -/
def Mat.addRow (A : Mat) (dst src : Nat) : Mat :=
  A.set dst (Vec.xor (Mat.row A dst) (Mat.row A src))

/-- Swap rows r and c (40_matrix.md R126). -/
def Mat.swapRows (A : Mat) (r c : Nat) : Mat :=
  (A.set r (Mat.row A c)).set c (Mat.row A r)

/-! ## Gauss-Jordan inversion (40_matrix.md R126) -/

/-- W: A augmented with the identity, n x 2n. -/
def Mat.augment (A : Mat) : Mat :=
  List.zipWith (fun row unit => row ++ unit) A (Mat.identity (Mat.nrows A))

/-- The smallest row r with c < r and a 1 in column c. -/
def Mat.laterPivot (W : Mat) (c : Nat) : Option Nat :=
  (List.range (Mat.nrows W)).find? fun r => decide (c < r) && Mat.bit W r c

/-- W with a 1 in row c, column c, by swapping in the first later row that has one; nothing when there is none. -/
def Mat.bringPivot (W : Mat) (c : Nat) : Option Mat :=
  if Mat.bit W c c then some W
  else (Mat.laterPivot W c).map fun r => Mat.swapRows W r c

/-- Clear column c in every row but row c by adding row c. This step is the one 40_matrix.md R126 supplies from
general knowledge (log entry 10). -/
def Mat.clearColumn (W : Mat) (c : Nat) : Mat :=
  W.mapIdx fun r row => if r ≠ c ∧ Vec.bit row c then Vec.xor row (Mat.row W c) else row

/-- The pivot columns in order, for as many as are listed. -/
def Mat.eliminate : List Nat → Mat → Option Mat
  | [], W => some W
  | c :: rest, W =>
    match Mat.bringPivot W c with
    | none => none
    | some W' => Mat.eliminate rest (Mat.clearColumn W' c)

/-- GaussJordanInverse(A) for a square A: the right half of the eliminated W, or nothing when A is singular
(40_matrix.md R126). -/
def Mat.gaussJordanInverse (A : Mat) : Option Mat :=
  (Mat.eliminate (List.range (Mat.nrows A)) (Mat.augment A)).map fun W =>
    W.map fun row => row.drop (Mat.nrows A)

end Sys2Proof.Machine
end

