-- ==== Sys2Proof/Machine/State.lean ====
section
/-!
DEFINITION. The state of the GF(2) core, its reset value, the events of the outside world, and the reasons a
step can stop.
-/

namespace Sys2Proof.Machine

/-- The cause of a command's fault (60_exceptions.md R261). A faulting command completes; it does not stop the
machine. -/
inductive FaultCause where
  /-- 1: an illegal word (R262). -/
  | illegalCmd
  /-- 2: malformed input (R263). -/
  | shape
  /-- 3: MINV of a singular matrix (R264). -/
  | singular
  /-- 4: GDIV of a nonzero dividend by zero (R265). -/
  | gfDiv0
  /-- 5: a scalar operand outside the domain of its GF function (R266). -/
  | gfDomain
  /-- 6: KINV after KG_MAX_ATTEMPTS singular attempts (R267). -/
  | keygenExhausted
deriving DecidableEq, Repr

/-- SEL.KIND: which file the data window reaches (10_state.md R51). -/
inductive SelKind where
  /-- 0: the matrix M[INDEX]. -/
  | matrix
  /-- 1: the vector V[INDEX]. -/
  | vector
  /-- 2: the scalar X[INDEX]. -/
  | scalar
  /-- 3: no register. -/
  | unselected
deriving DecidableEq, Repr

/-- What the outside world does to the core. `off` is the byte offset of a host access from the window base
(20_memory.md R70). DESIGN CHOICE, safe: log entry 1. -/
inductive Event where
  /-- `MmioRead(off)`, a full 32-bit read (20_memory.md R70, R74). -/
  | read (off : Nat)
  /-- `MmioWrite(off, v)`, a full 32-bit write (20_memory.md R70, R74). -/
  | write (off : Nat) (v : Word)
  /-- An access narrower than 32 bits: the platform's behaviour, not the core's (20_memory.md R74). -/
  | narrow (off : Nat)
  /-- The hardware reset input (70_reset_and_hazards.md R300). -/
  | hardReset
  /-- The instant at which the running command completes; nothing happens when the engine is idle
  (46_system.md R251, 70_reset_and_hazards.md R320). -/
  | completion
deriving DecidableEq, Repr

/-- The state. The fields up to `row` are the spec's (INVENTORY.md, State); `bus` and `lastRead` are the
model's own. -/
structure State where
  /-- M0..M7 (10_state.md R31). -/
  mreg : Vector Mat 8
  /-- V0..V7 (10_state.md R33). -/
  vreg : Vector Vec 8
  /-- X0..X7 (10_state.md R34). -/
  xreg : Vector Scalar 8
  /-- STATUS.BUSY, the engine's busy flag (10_state.md R39, R44). -/
  busy : Bool
  /-- STATUS.DONE (10_state.md R44). -/
  done : Bool
  /-- STATUS.ERR (10_state.md R44). -/
  err : Bool
  /-- STATUS.OVR (10_state.md R44). -/
  ovr : Bool
  /-- CTRL.IE_DONE (10_state.md R43). -/
  ieDone : Bool
  /-- CTRL.IE_ERR (10_state.md R43). -/
  ieErr : Bool
  /-- CMD: the last accepted word, the word in flight while busy (10_state.md R39, R45). -/
  cmd : Word
  /-- NOISE_P[16:0] (10_state.md R46). -/
  noiseP : BitVec 17
  /-- KG_ROUNDS[15:0] (10_state.md R47). -/
  kgRounds : BitVec 16
  /-- RNG_STATE (10_state.md R48). -/
  rng : Word
  /-- ERRCODE[3:0] (10_state.md R49). -/
  errcode : BitVec 4
  /-- ERRCMD (10_state.md R50). -/
  errcmd : Word
  /-- SEL.INDEX (10_state.md R51). -/
  selIndex : Reg
  /-- SEL.KIND (10_state.md R51). -/
  selKind : SelKind
  /-- ROW[8:0] (10_state.md R52). -/
  row : BitVec 9
  /-- The model's own: what the outside world does next, oldest first (log entry 1). -/
  bus : List Event
  /-- The model's own: the word the latest host read returned (log entry 4). -/
  lastRead : Option Word
deriving DecidableEq, Repr

/-- The faults that stop the machine. There are none: no access fails (20_memory.md R75) and no fault of a
command stops the engine (60_exceptions.md R273, R275). A command's fault is a completion, see `FaultCause`.
Safe: log entry 18. -/
inductive Fault where
deriving DecidableEq, Repr

/-- The reasons a step has no meaning in this model. -/
inductive Refusal where
  /-- A command without a meaning, by its mnemonic. No arm of `exec` raises it: every command has its meaning. -/
  | notModelled (mnemonic : String)
  /-- A host access narrower than 32 bits: "this spec does not define it" (20_memory.md R74;
  93_implementation_defined.md U8, treatment `refuse`). Raised by the step on such an event. Safe: log entry 5. -/
  | narrowAccess
deriving DecidableEq, Repr

/-- The machine right after reset: the table of 10_state.md R61. `bus` and `lastRead` are the model's own
(DESIGN CHOICE: log entries 1 and 4). -/
def State.reset : State where
  mreg := Vector.replicate 8 []
  vreg := Vector.replicate 8 []
  xreg := Vector.replicate 8 0
  busy := false
  done := false
  err := false
  ovr := false
  ieDone := false
  ieErr := false
  cmd := 0
  noiseP := 0x8000
  kgRounds := 64
  rng := 1
  errcode := 0
  errcmd := 0
  selIndex := 0
  selKind := .matrix
  row := 0
  bus := []
  lastRead := none

end Sys2Proof.Machine
end

