-- ==== Sys2Proof/Machine/Ops.lean ====
section
/-!
DEFINITION. The named operations over the state: the register files, the acceptance and completion of a
command, taking a fault and re-arming its capture, the random source, reset.
-/

namespace Sys2Proof.Machine

/-! ## The register files (10_state.md R31 to R35): no register is hardwired, none aliases another -/

/-- `M[i]` (00_scope.md R16). -/
def State.getM (s : State) (i : Reg) : Mat := s.mreg[i]

/-- `V[i]` (00_scope.md R16). -/
def State.getV (s : State) (i : Reg) : Vec := s.vreg[i]

/-- `X[i]` (00_scope.md R16). -/
def State.getX (s : State) (i : Reg) : Scalar := s.xreg[i]

/-- `M[i] <- A`, shape and contents replaced (00_scope.md R16, 10_state.md R31). -/
def State.setM (s : State) (i : Reg) (A : Mat) : State := { s with mreg := s.mreg.set i A }

/-- `V[i] <- v`, length and contents replaced (00_scope.md R16, 10_state.md R33). -/
def State.setV (s : State) (i : Reg) (v : Vec) : State := { s with vreg := s.vreg.set i v }

/-- `X[i] <- x` (00_scope.md R16). -/
def State.setX (s : State) (i : Reg) (x : Scalar) : State := { s with xreg := s.xreg.set i x }

/-- `X[d] <- zext_16(v)` for a natural number v (41_gf.md R140). -/
def State.setXNat (s : State) (i : Reg) (v : Nat) : State := s.setX i (BitVec.ofNat 16 v)

/-- `RNG_STATE <- g` (43_keygen.md R183). -/
def State.setRng (s : State) (g : Word) : State := { s with rng := g }

/-! ## Acceptance and completion of a command -/

/-- Acceptance of the word w (46_system.md R250): CMD reads w, BUSY becomes 1, DONE 0; ERR and OVR stay. -/
def acceptCommand (w : Word) (s : State) : State := { s with cmd := w, busy := true, done := false }

/-- The code of a cause, as ERRCODE[3:0] reads it (60_exceptions.md R261). -/
def FaultCause.code : FaultCause → BitVec 4
  | .illegalCmd => 1
  | .shape => 2
  | .singular => 3
  | .gfDiv0 => 4
  | .gfDomain => 5
  | .keygenExhausted => 6

/-- A command's normal completion, after its destination is written: BUSY becomes 0 and DONE 1
(46_system.md R251). -/
def State.finish (s : State) : State := { s with busy := false, done := true }

/-- TAKING A FAULT (46_system.md R251, 60_exceptions.md R260, R271): ERR becomes 1; when ERR was 0, ERRCODE
receives the cause and ERRCMD the accepted word; BUSY becomes 0 and DONE 1; nothing else changes. No control is
transferred (R273). -/
def State.takeFault (c : FaultCause) (s : State) : State :=
  { s with
    err := true
    errcode := if s.err then s.errcode else c.code
    errcmd := if s.err then s.errcmd else s.cmd
    busy := false
    done := true }

/-- The re-arming of the fault capture, the only return from a fault besides reset (60_exceptions.md R274):
ERR, ERRCODE and ERRCMD become 0. -/
def State.clearFault (s : State) : State := { s with err := false, errcode := 0, errcmd := 0 }

/-- The completion of a command accepted in state s (46_system.md R251): either `.ok t`, t being s with the
destination written, or `.error c`, which writes nothing and takes the fault. A command always completes. -/
def complete (s : State) (result : Except FaultCause State) : Host.Outcome State Fault Refusal :=
  .next (match result with
    | .ok t => t.finish
    | .error c => s.takeFault c)

/-- The completion of an illegal word: ILLEGAL_CMD, before any operand is read (60_exceptions.md R262). -/
def illegalCommand (s : State) : Host.Outcome State Fault Refusal := complete s (.error .illegalCmd)

/-! ## The random source (43_keygen.md R180, R181) -/

/-- The xorshift32 step: the next value of RNG_STATE, which is also the value returned (43_keygen.md R180). -/
def xorshift32 (g : Word) : Word :=
  let a := g ^^^ (g <<< 13)
  let b := a ^^^ (a >>> 17)
  b ^^^ (b <<< 5)

/-- `Draw(R)`: the value drawn, in [0, R), and the random source after it (43_keygen.md R181). -/
def draw (R : Nat) (g : Word) : Nat × Word :=
  let g' := xorshift32 g
  (g'.toNat % R, g')

/-! ## Reset -/

/-- Reset, by the input or by CTRL.SRST (70_reset_and_hazards.md R300, R301): every element takes its value of
10_state.md R61, a running command is aborted. What the outside world still has to send and what it has read are
no part of the core and stay (log entry 8). -/
def State.resetCore (s : State) : State := { State.reset with bus := s.bus, lastRead := s.lastRead }

end Sys2Proof.Machine
end

