-- ==== Sys2Proof/Machine/Operands.lean ====
section
/-!
DEFINITION. The operand forms of the commands and the checks each makes (30_encoding.md R92, R93;
60_exceptions.md R263, R266, R270). A check that fails ends the command with its fault.
-/

namespace Sys2Proof.Machine

/-- Go on when p holds, and fault with c otherwise. -/
def require (c : FaultCause) (p : Prop) [Decidable p] : Except FaultCause Unit :=
  if p then .ok () else .error c

/-- A matrix operand; an empty one faults with SHAPE (10_state.md R32, 60_exceptions.md R263(a)). -/
def matOperand (s : State) (a : Reg) : Except FaultCause Mat :=
  if Mat.nrows (s.getM a) = 0 then .error .shape else .ok (s.getM a)

/-- A vector operand; an empty one faults with SHAPE (10_state.md R33, 60_exceptions.md R263(a)). -/
def vecOperand (s : State) (a : Reg) : Except FaultCause Vec :=
  if (s.getV a).length = 0 then .error .shape else .ok (s.getV a)

/-- A scalar operand that must be a field element: in range when at most 15, GF_DOMAIN otherwise
(41_gf.md R140, 60_exceptions.md R266). -/
def gfOperand (s : State) (a : Reg) : Except FaultCause Gf :=
  if (s.getX a).toNat > 15 then .error .gfDomain else .ok ((s.getX a).setWidth 4)

/-- A scalar operand read as an unsigned number (10_state.md R34). -/
def natOperand (s : State) (a : Reg) : Nat := (s.getX a).toNat

/-- A scalar operand read as a signed 16-bit two's-complement number (41_gf.md R146). -/
def intOperand (s : State) (a : Reg) : Int := (s.getX a).toInt

/-- A SIZE immediate: 1 <= n <= DMAX, SHAPE otherwise (30_encoding.md R93). -/
def sizeImm (n : Nat) : Except FaultCause Unit := require .shape (1 ≤ n ∧ n ≤ Config.dmax)

end Sys2Proof.Machine
end

