-- ==== Sys2Proof/Syntax.lean ====
section
/-!
DEFINITION. The commands of the GF(2) core, one constructor per row of spec/opcode_table.json.
-/

namespace Sys2Proof

/-- A code family, the FAM immediate: 0 = Hamming(15,11), 1 = BCH(15,7,2) (30_encoding.md R98). -/
inductive Family where
  | ham
  | bch
deriving DecidableEq, Repr

/-- A command with its operands (30_encoding.md R92). `d`, `a`, `b` are the register numbers RD, RA, RB,
each in the file the table gives for the command. An immediate is the unsigned number the table reads from
IMM (R93); whether it fits its field is checked by `Instr.wf`. -/
inductive Instr where
  | nop
  | midn (d : Reg) (n : Nat)
  | mmov (d a : Reg)
  | mtrn (d a : Reg)
  | mmul (d a b : Reg)
  | minv (d a : Reg)
  | xli (d : Reg) (imm : Nat)
  | gexp (d a : Reg)
  | glog (d a : Reg)
  | gmul (d a b : Reg)
  | gdiv (d a b : Reg)
  | gpow (d a b : Reg)
  | cgeng (d : Reg) (fam : Family)
  | cgenh (d : Reg) (fam : Family)
  | mblk (d a : Reg) (l : Nat)
  | kinv (d : Reg) (n : Nat)
  | kperm (d : Reg) (n : Nat)
  | vmul (d a b : Reg)
  | vmov (d a : Reg)
  | vxor (d a b : Reg)
  | vnoise (d a : Reg) (n : Nat)
  | bsyn (d a : Reg) (blk : Nat)
  | dham (d a b : Reg)
  | dbch (d a : Reg)
  | vmsg (d a : Reg) (n k : Nat)
deriving DecidableEq, Repr

end Sys2Proof
end

