-- ==== Sys2Proof/Machine/Code.lean ====
section
/-!
DEFINITION. The matrices of Hamming(15,11) and BCH(15,7,2) and the code construction commands
(42_code.md R160 to R167). The matrices are constants, as R160 says the hardware's are; rows are written as the
spec writes them, column 0 first.
-/

namespace Sys2Proof.Machine

/-- The row of 15 bits written as the spec writes it, column 0 first. -/
def codeRow (bits : Nat) : Vec := (List.range 15).map fun j => bits.testBit (14 - j)

/-- G_HAM, 11 x 15 (42_code.md R164). -/
def genHamming : Mat :=
  [codeRow 0b100000000001100,
   codeRow 0b010000000001010,
   codeRow 0b001000000000110,
   codeRow 0b000100000001110,
   codeRow 0b000010000001001,
   codeRow 0b000001000000101,
   codeRow 0b000000100001101,
   codeRow 0b000000010000011,
   codeRow 0b000000001001011,
   codeRow 0b000000000100111,
   codeRow 0b000000000011111]

/-- H_HAM, 4 x 15 (42_code.md R163). -/
def parHamming : Mat :=
  [codeRow 0b110110101011000,
   codeRow 0b101101100110100,
   codeRow 0b011100011110010,
   codeRow 0b000011111110001]

/-- G_BCH, 7 x 15 (42_code.md R165). -/
def genBch : Mat :=
  [codeRow 0b100000011101000,
   codeRow 0b010000001110100,
   codeRow 0b001000000111010,
   codeRow 0b000100000011101,
   codeRow 0b000010011100110,
   codeRow 0b000001001110011,
   codeRow 0b000000111010001]

/-- H_BCH, 8 x 15 (42_code.md R166). -/
def parBch : Mat :=
  [codeRow 0b100010110000000,
   codeRow 0b110011101000000,
   codeRow 0b111011000100000,
   codeRow 0b011101100010000,
   codeRow 0b101100000001000,
   codeRow 0b010110000000100,
   codeRow 0b001011000000010,
   codeRow 0b000101100000001]

/-- The generator matrix of a family (42_code.md R161). -/
def generatorMatrix : Family → Mat
  | .ham => genHamming
  | .bch => genBch

/-- The parity-check matrix of a family (42_code.md R162). -/
def parityMatrix : Family → Mat
  | .ham => parHamming
  | .bch => parBch

/-- CGENG: systematic generator matrix (42_code.md R161). -/
def execCgeng (d : Reg) (fam : Family) (s : State) : Host.Outcome State Fault Refusal :=
  complete s (.ok (s.setM d (generatorMatrix fam)))

/-- CGENH: systematic parity-check matrix (42_code.md R162). -/
def execCgenh (d : Reg) (fam : Family) (s : State) : Host.Outcome State Fault Refusal :=
  complete s (.ok (s.setM d (parityMatrix fam)))

/-- MBLK: block-diagonal replication, L copies (42_code.md R167). -/
def execMblk (d a : Reg) (l : Nat) (s : State) : Host.Outcome State Fault Refusal :=
  complete s do
    let A ← matOperand s a
    require .shape (1 ≤ l ∧ l * Mat.nrows A ≤ Config.dmax ∧ l * Mat.ncols A ≤ Config.dmax)
    .ok (s.setM d (Mat.blockDiagonal A l))

end Sys2Proof.Machine
end

