-- ==== Sys2Proof/Machine/Galois.lean ====
section
/-!
DEFINITION. The Galois ROM (10_state.md R37), the field functions, and the GF(2^4) commands (41_gf.md R140 to R146).
-/

namespace Sys2Proof.Machine

/-! ## The ROM: constants, valid from reset, written by nothing (10_state.md R37, log entry 9) -/

/-- The EXP table, 30 entries: EXP[i] = α^(i mod 15) (10_state.md R37). -/
def expRom : List Gf :=
  [1, 2, 4, 8, 3, 6, 12, 11, 5, 10, 7, 14, 15, 13, 9,
   1, 2, 4, 8, 3, 6, 12, 11, 5, 10, 7, 14, 15, 13, 9]

/-- The LOG table for the elements 1..15 (10_state.md R37). -/
def logRom : List Nat := [0, 1, 4, 2, 8, 5, 10, 3, 14, 9, 7, 6, 13, 11, 12]

/-- `EXP[i]`, for i in 0..29 (00_scope.md R16, 10_state.md R37). No rule reads an index above 29. -/
def expOf (i : Nat) : Gf := expRom.getD i 0

/-- `LOG[e]` (00_scope.md R16, 10_state.md R37). LOG[0] is a free value, read by no rule (log entry 7). -/
def logOf (e : Gf) : Nat := if e = 0 then Config.logZero else logRom.getD (e.toNat - 1) 0

/-- The mathematical `z mod 15`, in [0, 14] also for negative z (00_scope.md R16). -/
def mod15 (z : Int) : Nat := (z % 15).toNat

/-! ## Field functions -/

/-- `gf_mul(a, b)` (41_gf.md R144). -/
def gfMul (a b : Gf) : Gf :=
  if a = 0 ∨ b = 0 then 0 else expOf (mod15 (logOf a + logOf b))

/-- `gf_div(a, b)` for b ≠ 0, and 0 for a = 0 (41_gf.md R145). The formula is the one the spec supplies from
general knowledge (log entry 10). -/
def gfQuot (a b : Gf) : Gf :=
  if a = 0 then 0 else expOf (mod15 ((logOf a : Int) - logOf b))

/-- `gf_div(a, b)`: GF_DIV0 when a ≠ 0 and b = 0 (41_gf.md R145). -/
def gfDiv (a b : Gf) : Except FaultCause Gf :=
  if a ≠ 0 ∧ b = 0 then .error .gfDiv0 else .ok (gfQuot a b)

/-- `gf_pow(a, n)`: GF_DOMAIN for 0 to a negative power (41_gf.md R146). -/
def gfPow (a : Gf) (n : Int) : Except FaultCause Gf :=
  if n = 0 then .ok 1
  else if a = 0 then (if 0 < n then .ok 0 else .error .gfDomain)
  else .ok (expOf (mod15 (logOf a * n)))

/-! ## Commands -/

/-- XLI: load immediate, `X[d] <- zext_16(IMM)` (41_gf.md R141). -/
def execXli (d : Reg) (imm : Nat) (s : State) : Host.Outcome State Fault Refusal :=
  complete s (.ok (s.setXNat d imm))

/-- GEXP: antilog table read; an index above 29 faults with GF_DOMAIN (41_gf.md R142). -/
def execGexp (d a : Reg) (s : State) : Host.Outcome State Fault Refusal :=
  complete s do
    require .gfDomain (natOperand s a ≤ 29)
    .ok (s.setXNat d (expOf (natOperand s a)).toNat)

/-- GLOG: log table read; 0 and values above 15 fault with GF_DOMAIN (41_gf.md R143). -/
def execGlog (d a : Reg) (s : State) : Host.Outcome State Fault Refusal :=
  complete s do
    let e ← gfOperand s a
    require .gfDomain (e ≠ 0)
    .ok (s.setXNat d (logOf e))

/-- GMUL: field multiply (41_gf.md R144). -/
def execGmul (d a b : Reg) (s : State) : Host.Outcome State Fault Refusal :=
  complete s do
    let x ← gfOperand s a
    let y ← gfOperand s b
    .ok (s.setXNat d (gfMul x y).toNat)

/-- GDIV: field divide (41_gf.md R145). -/
def execGdiv (d a b : Reg) (s : State) : Host.Outcome State Fault Refusal :=
  complete s do
    let x ← gfOperand s a
    let y ← gfOperand s b
    let q ← gfDiv x y
    .ok (s.setXNat d q.toNat)

/-- GPOW: field power, the exponent a signed 16-bit number (41_gf.md R146). -/
def execGpow (d a b : Reg) (s : State) : Host.Outcome State Fault Refusal :=
  complete s do
    let x ← gfOperand s a
    let p ← gfPow x (intOperand s b)
    .ok (s.setXNat d p.toNat)

end Sys2Proof.Machine
end

