-- ==== Sys2Proof/Machine/Decoder.lean ====
section
/-!
DEFINITION. The decoder commands (45_decoder.md R220 to R226). A block beyond the correction radius gives no
signal: the algorithm's result is written as it is (R220, 90_conflicts.md C3).
-/

namespace Sys2Proof.Machine

/-! ## BCH(15,7,2) -/

/-- `bch_syn(r)`: the syndromes (s1, s3) of a 15-bit block (45_decoder.md R221). -/
def bchSyn (r : Vec) : Gf × Gf :=
  (List.range 15).foldl
    (fun s i =>
      if Vec.bit r i then (s.1 ^^^ expOf ((14 - i) % 15), s.2 ^^^ expOf (3 * (14 - i) % 15)) else s)
    (0, 0)

/-- The candidate z = EXP[e] is a root: `1 ⊕ σ1·z ⊕ σ2·z² = 0` (45_decoder.md R222). -/
def isLocatorRoot (sigma1 sigma2 : Gf) (e : Nat) : Bool :=
  1 ^^^ gfMul sigma1 (expOf e) ^^^ gfMul sigma2 (gfMul (expOf e) (expOf e)) == 0

/-- The position of the root z = EXP[e]: 14 - LOG[X] with X = z^-1 = EXP[(15 - e) mod 15] (45_decoder.md R222). -/
def rootPosition (e : Nat) : Int := 14 - (logOf (expOf ((15 - e) % 15)) : Int)

/-- The positions of the roots, candidates tested in ascending e, positions outside 0..14 ignored, at most two
kept (45_decoder.md R222). -/
def locatorPositions (sigma1 sigma2 : Gf) : List Nat :=
  ((((List.range 15).filter (isLocatorRoot sigma1 sigma2)).map rootPosition).filter
    (fun p => 0 ≤ p ∧ p ≤ 14)).map Int.toNat |>.take 2

/-- `bch_correct(r)` (45_decoder.md R222). The division is by s1 ≠ 0, so it is `gfQuot`. -/
def bchCorrect (r : Vec) : Vec :=
  let s := bchSyn r
  if s.1 = 0 then r
  else
    let delta := s.2 ^^^ gfMul (gfMul s.1 s.1) s.1
    if delta = 0 then Vec.flip r (14 - logOf s.1)
    else (locatorPositions s.1 (gfQuot delta s.1)).foldl Vec.flip r

/-! ## Hamming syndrome lookup -/

/-- The correction of one block by the syndrome lookup in H: nothing for a zero syndrome, else the flip of the
smallest column equal to it, else nothing (45_decoder.md R224). -/
def hammingCorrect (H : Mat) (block : Vec) : Vec :=
  let s := H.map fun row => Vec.dot block row
  if s.all (fun b => !b) then block
  else
    match (List.range (Mat.ncols H)).find? (fun j => Mat.column H j = s) with
    | some j => Vec.flip block j
    | none => block

/-! ## Commands -/

/-- BSYN: the syndromes of block blk, s1 in bits 3:0 and s3 in bits 7:4 (45_decoder.md R223). -/
def execBsyn (d a : Reg) (blk : Nat) (s : State) : Host.Outcome State Fault Refusal :=
  complete s do
    let v ← vecOperand s a
    require .shape (15 * (blk + 1) ≤ v.length)
    let syn := bchSyn ((v.drop (15 * blk)).take 15)
    .ok (s.setXNat d (syn.2.toNat * 16 + syn.1.toNat))

/-- DHAM: Hamming syndrome lookup decoder, block by block (45_decoder.md R224). -/
def execDham (d a b : Reg) (s : State) : Host.Outcome State Fault Refusal :=
  complete s do
    let c ← vecOperand s a
    let H ← matOperand s b
    require .shape (c.length % Mat.ncols H = 0)
    .ok (s.setV d ((Vec.blocks (Mat.ncols H) (c.length / Mat.ncols H) c).flatMap (hammingCorrect H)))

/-- DBCH: BCH(15,7,2) decoder, block by block (45_decoder.md R225). -/
def execDbch (d a : Reg) (s : State) : Host.Outcome State Fault Refusal :=
  complete s do
    let c ← vecOperand s a
    require .shape (c.length % 15 = 0)
    .ok (s.setV d ((Vec.blocks 15 (c.length / 15) c).flatMap bchCorrect))

/-- VMSG: the first k coordinates of every block of n (45_decoder.md R226). -/
def execVmsg (d a : Reg) (n k : Nat) (s : State) : Host.Outcome State Fault Refusal :=
  complete s do
    let c ← vecOperand s a
    require .shape (1 ≤ k ∧ k ≤ n ∧ c.length % n = 0)
    .ok (s.setV d ((Vec.blocks n (c.length / n) c).flatMap (List.take k)))

end Sys2Proof.Machine
end

