-- ==== Sys2Proof/Machine/Encoder.lean ====
section
/-!
DEFINITION. The encoder, vector and noise commands (44_encoder.md R200 to R206).
-/

namespace Sys2Proof.Machine

/-- VMUL: vector-matrix product (44_encoder.md R201). -/
def execVmul (d a b : Reg) (s : State) : Host.Outcome State Fault Refusal :=
  complete s do
    let v ← vecOperand s a
    let B ← matOperand s b
    require .shape (v.length = Mat.nrows B)
    .ok (s.setV d (Vec.mulMat v B))

/-- VMOV: vector copy (44_encoder.md R203). -/
def execVmov (d a : Reg) (s : State) : Host.Outcome State Fault Refusal :=
  complete s do
    let v ← vecOperand s a
    .ok (s.setV d v)

/-- VXOR: coordinate-wise XOR (44_encoder.md R204). -/
def execVxor (d a b : Reg) (s : State) : Host.Outcome State Fault Refusal :=
  complete s do
    let u ← vecOperand s a
    let w ← vecOperand s b
    require .shape (u.length = w.length)
    .ok (s.setV d (Vec.xor u w))

/-- Noise on one block of n coordinates: `u <- Draw(65536)`; when u < NOISE_P, `pos <- Draw(n)` and that
coordinate is flipped (44_encoder.md R206). -/
def noiseBlock (noiseP n : Nat) (block : Vec) (g : Word) : Vec × Word :=
  let (u, g1) := draw 65536 g
  if u < noiseP then
    let (pos, g2) := draw n g1
    (Vec.flip block pos, g2)
  else (block, g1)

/-- Noise on every block in order, the random source passing from one to the next (44_encoder.md R206). -/
def noiseBlocks (noiseP n : Nat) : List Vec → Word → Vec × Word
  | [], g => ([], g)
  | block :: rest, g =>
    let (block', g1) := noiseBlock noiseP n block g
    let (rest', g2) := noiseBlocks noiseP n rest g1
    (block' ++ rest', g2)

/-- VNOISE: per-block probabilistic single-bit error injector (44_encoder.md R206). -/
def execVnoise (d a : Reg) (n : Nat) (s : State) : Host.Outcome State Fault Refusal :=
  complete s do
    let c ← vecOperand s a
    require .shape (n ≠ 0 ∧ c.length % n = 0)
    let r := noiseBlocks s.noiseP.toNat n (Vec.blocks n (c.length / n) c) s.rng
    .ok ((s.setV d r.1).setRng r.2)

end Sys2Proof.Machine
end

