-- ==== Sys2Proof/Machine/Keygen.lean ====
section
/-!
DEFINITION. The key generation commands KINV and KPERM (43_keygen.md R184 to R187). A function that draws takes
the random source and returns it advanced; draws are made in the order of the spec's pseudocode (R183).
-/

namespace Sys2Proof.Machine

/-! ## KINV -/

/-- One round: two draws give distinct rows dst and src, and row src is added into row dst
(43_keygen.md R184). -/
def kinvRound (n : Nat) (T : Mat) (g : Word) : Mat × Word :=
  let (dst, g1) := draw n g
  let (src0, g2) := draw (n - 1) g1
  let src := if dst ≤ src0 then src0 + 1 else src0
  (Mat.addRow T dst src, g2)

/-- The given number of rounds (43_keygen.md R184). -/
def kinvRounds (n : Nat) : Nat → Mat → Word → Mat × Word
  | 0, T, g => (T, g)
  | k + 1, T, g =>
    let (T', g') := kinvRound n T g
    kinvRounds n k T' g'

/-- One attempt, from the identity: KG_ROUNDS rounds when n >= 2, and no draw when n = 1 (43_keygen.md R184). -/
def kinvCandidate (n rounds : Nat) (g : Word) : Mat × Word :=
  if 2 ≤ n then kinvRounds n rounds (Mat.identity n) g else (Mat.identity n, g)

/-- At most the given number of attempts: the first candidate that Gauss-Jordan inverts, or nothing; and the
random source after the last draw (43_keygen.md R184, R186). -/
def kinvAttempts (n rounds : Nat) : Nat → Word → Option Mat × Word
  | 0, g => (none, g)
  | k + 1, g =>
    let (T, g') := kinvCandidate n rounds g
    if (Mat.gaussJordanInverse T).isSome then (some T, g') else kinvAttempts n rounds k g'

/-- KINV: random invertible matrix (43_keygen.md R184). A size outside 1..DMAX faults with SHAPE before any draw.
When every attempt is singular it faults with KEYGEN_EXHAUSTED and RNG_STATE keeps the advanced value
(R183, R186). -/
def execKinv (d : Reg) (n : Nat) (s : State) : Host.Outcome State Fault Refusal :=
  if 1 ≤ n ∧ n ≤ Config.dmax then
    let r := kinvAttempts n s.kgRounds.toNat Config.kgMaxAttempts s.rng
    let drawn := s.setRng r.2
    complete drawn (match r.1 with
      | some T => .ok (drawn.setM d T)
      | none => .error .keygenExhausted)
  else complete s (.error .shape)

/-! ## KPERM -/

/-- Exchange the entries at i and j. -/
def swapEntries (p : List Nat) (i j : Nat) : List Nat := (p.set i (p.getD j 0)).set j (p.getD i 0)

/-- Fisher-Yates from index i down to 1: `j <- Draw(i + 1)`, then swap entries i and j (43_keygen.md R187).
The downward direction is the one the spec supplies from general knowledge (log entry 10). -/
def fisherYates : Nat → List Nat → Word → List Nat × Word
  | 0, p, g => (p, g)
  | i + 1, p, g =>
    let (j, g') := draw (i + 2) g
    fisherYates i (swapEntries p (i + 1) j) g'

/-- The shuffled indices 0..n-1 and the random source after the n - 1 draws (43_keygen.md R187). -/
def kpermShuffle (n : Nat) (g : Word) : List Nat × Word := fisherYates (n - 1) (List.range n) g

/-- The matrix of a permutation: `T[r][perm[r]] = 1` and every other bit 0 (43_keygen.md R187). -/
def permutationMatrix (perm : List Nat) : Mat := perm.map (Vec.unit perm.length)

/-- KPERM: random permutation matrix (43_keygen.md R187). -/
def execKperm (d : Reg) (n : Nat) (s : State) : Host.Outcome State Fault Refusal :=
  complete s do
    sizeImm n
    let r := kpermShuffle n s.rng
    .ok ((s.setM d (permutationMatrix r.1)).setRng r.2)

end Sys2Proof.Machine
end

