-- ==== Sys2Proof/Machine/Matrix.lean ====
section
/-!
DEFINITION. The GF(2) matrix algebra commands (40_matrix.md R120 to R126). Each reads its operands from s and
writes its one destination on completion, so the destination may equal a source (46_system.md R253).
-/

namespace Sys2Proof.Machine

/-- MIDN: `M[d] <- I_n` (40_matrix.md R121). -/
def execMidn (d : Reg) (n : Nat) (s : State) : Host.Outcome State Fault Refusal :=
  complete s do
    sizeImm n
    .ok (s.setM d (Mat.identity n))

/-- MMOV: matrix copy (40_matrix.md R122). -/
def execMmov (d a : Reg) (s : State) : Host.Outcome State Fault Refusal :=
  complete s do
    let A ← matOperand s a
    .ok (s.setM d A)

/-- MTRN: transpose (40_matrix.md R123). -/
def execMtrn (d a : Reg) (s : State) : Host.Outcome State Fault Refusal :=
  complete s do
    let A ← matOperand s a
    .ok (s.setM d (Mat.transpose A))

/-- MMUL: GF(2) matrix product (40_matrix.md R124). -/
def execMmul (d a b : Reg) (s : State) : Host.Outcome State Fault Refusal :=
  complete s do
    let A ← matOperand s a
    let B ← matOperand s b
    require .shape (Mat.ncols A = Mat.nrows B)
    .ok (s.setM d (Mat.mul A B))

/-- MINV: inverse by Gauss-Jordan elimination (40_matrix.md R125); SINGULAR when there is none (R126). -/
def execMinv (d a : Reg) (s : State) : Host.Outcome State Fault Refusal :=
  complete s do
    let A ← matOperand s a
    require .shape (Mat.nrows A = Mat.ncols A)
    match Mat.gaussJordanInverse A with
    | some T => .ok (s.setM d T)
    | none => .error .singular

end Sys2Proof.Machine
end

