-- ==== Sys2Proof/Machine/System.lean ====
section
/-!
DEFINITION. The system command NOP (46_system.md R252).
-/

namespace Sys2Proof.Machine

/-- NOP: nothing; the command completes normally (46_system.md R252). -/
def execNop (s : State) : Host.Outcome State Fault Refusal := complete s (.ok s)

end Sys2Proof.Machine
end

