-- ==== Sys2Proof/Machine/Dispatch.lean ====
section
/-!
DEFINITION. `exec`: the execution of a command, from the state at its completion, one arm per command.
-/

namespace Sys2Proof.Machine

def exec (i : Instr) (s : State) : Host.Outcome State Fault Refusal :=
  match i with
  | .nop => Sys2Proof.Machine.execNop s
  | .midn d n => Sys2Proof.Machine.execMidn d n s
  | .mmov d a => Sys2Proof.Machine.execMmov d a s
  | .mtrn d a => Sys2Proof.Machine.execMtrn d a s
  | .mmul d a b => Sys2Proof.Machine.execMmul d a b s
  | .minv d a => Sys2Proof.Machine.execMinv d a s
  | .xli d imm => Sys2Proof.Machine.execXli d imm s
  | .gexp d a => Sys2Proof.Machine.execGexp d a s
  | .glog d a => Sys2Proof.Machine.execGlog d a s
  | .gmul d a b => Sys2Proof.Machine.execGmul d a b s
  | .gdiv d a b => Sys2Proof.Machine.execGdiv d a b s
  | .gpow d a b => Sys2Proof.Machine.execGpow d a b s
  | .cgeng d fam => Sys2Proof.Machine.execCgeng d fam s
  | .cgenh d fam => Sys2Proof.Machine.execCgenh d fam s
  | .mblk d a l => Sys2Proof.Machine.execMblk d a l s
  | .kinv d n => Sys2Proof.Machine.execKinv d n s
  | .kperm d n => Sys2Proof.Machine.execKperm d n s
  | .vmul d a b => Sys2Proof.Machine.execVmul d a b s
  | .vmov d a => Sys2Proof.Machine.execVmov d a s
  | .vxor d a b => Sys2Proof.Machine.execVxor d a b s
  | .vnoise d a n => Sys2Proof.Machine.execVnoise d a n s
  | .bsyn d a blk => Sys2Proof.Machine.execBsyn d a blk s
  | .dham d a b => Sys2Proof.Machine.execDham d a b s
  | .dbch d a => Sys2Proof.Machine.execDbch d a s
  | .vmsg d a n k => Sys2Proof.Machine.execVmsg d a n k s

end Sys2Proof.Machine
end

