-- ==== Sys2Proof/WellFormed.lean ====
section
/-!
DEFINITION. Which commands have a command word: those whose immediates fit their field.
-/

namespace Sys2Proof

/-- A 12-bit immediate: SIZE, IMM12 and COUNT are read from IMM[11:0] (30_encoding.md R93, R102). -/
def fitsImm12 (n : Nat) : Bool := n < 4096

/-- A 6-bit immediate: the block length of N6, and each half of NK (30_encoding.md R93, R102). -/
def fitsImm6 (n : Nat) : Bool := n < 64

/-- The command has a word: every immediate fits its kind (30_encoding.md R102). Register numbers above 7,
registers of the wrong file and families other than 0 and 1 cannot be written as an `Instr`. -/
def Instr.wf : Instr → Bool
  | .nop => true
  | .midn _ n => fitsImm12 n
  | .mmov _ _ => true
  | .mtrn _ _ => true
  | .mmul _ _ _ => true
  | .minv _ _ => true
  | .xli _ imm => fitsImm12 imm
  | .gexp _ _ => true
  | .glog _ _ => true
  | .gmul _ _ _ => true
  | .gdiv _ _ _ => true
  | .gpow _ _ _ => true
  | .cgeng _ _ => true
  | .cgenh _ _ => true
  | .mblk _ _ l => fitsImm12 l
  | .kinv _ n => fitsImm12 n
  | .kperm _ n => fitsImm12 n
  | .vmul _ _ _ => true
  | .vmov _ _ => true
  | .vxor _ _ _ => true
  | .vnoise _ _ n => fitsImm6 n
  | .bsyn _ _ blk => fitsImm12 blk
  | .dham _ _ _ => true
  | .dbch _ _ => true
  | .vmsg _ _ n k => fitsImm6 n && fitsImm6 k

end Sys2Proof
end

