-- ==== Sys2Proof/Decode.lean ====
section
/-!
DEFINITION. Command words: the decoder of 30_encoding.md R97, total, and the encoder of R91 and R102.
-/

namespace Sys2Proof

/-- `w[hi:lo]`: the field of bits hi down to lo, read as an unsigned integer (00_scope.md R12). -/
def field (w : Word) (hi lo : Nat) : Nat := w.toNat / 2 ^ lo % 2 ^ (hi + 1 - lo)

/-- The operand forms of 30_encoding.md R92. -/
inductive Form where
  | n
  | di
  | da
  | dab
  | dai
deriving DecidableEq, Repr

/-- The extra immediate tests of 30_encoding.md R94: FAM (d), N6 (e), or none (SIZE, IMM12, COUNT, NK). -/
inductive ImmKind where
  | any
  | fam
  | n6
deriving DecidableEq, Repr

/-- The operand fields of a command word (30_encoding.md R91). -/
structure Fields where
  rd  : Reg
  ra  : Reg
  rb  : Reg
  imm : Nat
deriving DecidableEq, Repr

/-- FAM = 0 is Hamming(15,11) and FAM = 1 BCH(15,7,2) (30_encoding.md R98). -/
def familyOf (imm : Nat) : Family := if imm = 0 then .ham else .bch

/-- The FAM immediate of a family (30_encoding.md R98). -/
def familyCode : Family → Nat
  | .ham => 0
  | .bch => 1

/-- The table of 30_encoding.md R92 by OPC: form, immediate test, and the command the operand fields name. -/
def opcodeRow (opc : Nat) : Option (Form × ImmKind × (Fields → Instr)) :=
  match opc with
  | 0x00 => some (.n, .any, fun _ => .nop)
  | 0x01 => some (.di, .any, fun f => .midn f.rd f.imm)
  | 0x02 => some (.da, .any, fun f => .mmov f.rd f.ra)
  | 0x03 => some (.da, .any, fun f => .mtrn f.rd f.ra)
  | 0x04 => some (.dab, .any, fun f => .mmul f.rd f.ra f.rb)
  | 0x05 => some (.da, .any, fun f => .minv f.rd f.ra)
  | 0x10 => some (.di, .any, fun f => .xli f.rd f.imm)
  | 0x11 => some (.da, .any, fun f => .gexp f.rd f.ra)
  | 0x12 => some (.da, .any, fun f => .glog f.rd f.ra)
  | 0x13 => some (.dab, .any, fun f => .gmul f.rd f.ra f.rb)
  | 0x14 => some (.dab, .any, fun f => .gdiv f.rd f.ra f.rb)
  | 0x15 => some (.dab, .any, fun f => .gpow f.rd f.ra f.rb)
  | 0x20 => some (.di, .fam, fun f => .cgeng f.rd (familyOf f.imm))
  | 0x21 => some (.di, .fam, fun f => .cgenh f.rd (familyOf f.imm))
  | 0x22 => some (.dai, .any, fun f => .mblk f.rd f.ra f.imm)
  | 0x30 => some (.di, .any, fun f => .kinv f.rd f.imm)
  | 0x31 => some (.di, .any, fun f => .kperm f.rd f.imm)
  | 0x40 => some (.dab, .any, fun f => .vmul f.rd f.ra f.rb)
  | 0x41 => some (.da, .any, fun f => .vmov f.rd f.ra)
  | 0x42 => some (.dab, .any, fun f => .vxor f.rd f.ra f.rb)
  | 0x43 => some (.dai, .n6, fun f => .vnoise f.rd f.ra (f.imm % 64))
  | 0x50 => some (.dai, .any, fun f => .bsyn f.rd f.ra f.imm)
  | 0x51 => some (.dab, .any, fun f => .dham f.rd f.ra f.rb)
  | 0x52 => some (.da, .any, fun f => .dbch f.rd f.ra)
  | 0x53 => some (.dai, .any, fun f => .vmsg f.rd f.ra (f.imm / 64) (f.imm % 64))
  | _ => none

/-- Why a word is illegal: the clauses (a) to (e) of 30_encoding.md R94. -/
inductive IllegalWord where
  /-- (a) OPC is not in the table. -/
  | unassignedOpcode
  /-- (b) one of bits 11, 15, 19 is 1. -/
  | reservedBitSet
  /-- (c) a field the opcode does not use is nonzero. -/
  | unusedFieldNonzero
  /-- (d) a FAM immediate other than 0 and 1. -/
  | familyOutOfRange
  /-- (e) an N6 immediate with IMM[11:6] nonzero. -/
  | blockLengthTooWide
deriving DecidableEq, Repr

/-- The register number in a 3-bit field of the word (30_encoding.md R91). -/
def regField (w : Word) (hi lo : Nat) : Reg := Fin.ofNat 8 (field w hi lo)

/-- The operand fields of a word (30_encoding.md R91). -/
def fieldsOf (w : Word) : Fields where
  rd := regField w 10 8
  ra := regField w 14 12
  rb := regField w 18 16
  imm := field w 31 20

/-- A field that the form does not use is nonzero (the per-form tests of 30_encoding.md R97). -/
def unusedFieldSet (f : Form) (w : Word) : Bool :=
  match f with
  | .n => field w 31 8 != 0
  | .di => field w 18 12 != 0
  | .da => field w 18 16 != 0 || field w 31 20 != 0
  | .dab => field w 31 20 != 0
  | .dai => field w 18 16 != 0

/-- The decoder, in the order of tests of 30_encoding.md R97. Total: every word decodes to one command or is
illegal for a named reason. -/
def decode (w : Word) : Except IllegalWord Instr :=
  match opcodeRow (field w 7 0) with
  | none => .error .unassignedOpcode
  | some (form, kind, command) =>
    if field w 11 11 = 1 ∨ field w 15 15 = 1 ∨ field w 19 19 = 1 then .error .reservedBitSet
    else if unusedFieldSet form w then .error .unusedFieldNonzero
    else if kind = .fam ∧ field w 31 20 > 1 then .error .familyOutOfRange
    else if kind = .n6 ∧ field w 31 26 ≠ 0 then .error .blockLengthTooWide
    else .ok (command (fieldsOf w))

/-- The word with the given fields, `IMM<<20 | RB<<16 | RA<<12 | RD<<8 | OPC` (30_encoding.md R91). The fields
do not overlap, so the OR is the sum (DEDUCED, safe: log entry 12). -/
def packWord (opc rd ra rb imm : Nat) : Word :=
  BitVec.ofNat 32 (imm * 2 ^ 20 + rb * 2 ^ 16 + ra * 2 ^ 12 + rd * 2 ^ 8 + opc)

/-- The OPC of a command (30_encoding.md R92). -/
def Instr.opcode : Instr → Nat
  | .nop => 0x00
  | .midn _ _ => 0x01
  | .mmov _ _ => 0x02
  | .mtrn _ _ => 0x03
  | .mmul _ _ _ => 0x04
  | .minv _ _ => 0x05
  | .xli _ _ => 0x10
  | .gexp _ _ => 0x11
  | .glog _ _ => 0x12
  | .gmul _ _ _ => 0x13
  | .gdiv _ _ _ => 0x14
  | .gpow _ _ _ => 0x15
  | .cgeng _ _ => 0x20
  | .cgenh _ _ => 0x21
  | .mblk _ _ _ => 0x22
  | .kinv _ _ => 0x30
  | .kperm _ _ => 0x31
  | .vmul _ _ _ => 0x40
  | .vmov _ _ => 0x41
  | .vxor _ _ _ => 0x42
  | .vnoise _ _ _ => 0x43
  | .bsyn _ _ _ => 0x50
  | .dham _ _ _ => 0x51
  | .dbch _ _ => 0x52
  | .vmsg _ _ _ _ => 0x53

/-- The word of a well-formed command: its operands in the fields 30_encoding.md R92 names, zero in every
unused field (R102). -/
def encode (i : Instr) : Word :=
  match i with
  | .nop => packWord i.opcode 0 0 0 0
  | .midn d n => packWord i.opcode d 0 0 n
  | .mmov d a => packWord i.opcode d a 0 0
  | .mtrn d a => packWord i.opcode d a 0 0
  | .mmul d a b => packWord i.opcode d a b 0
  | .minv d a => packWord i.opcode d a 0 0
  | .xli d imm => packWord i.opcode d 0 0 imm
  | .gexp d a => packWord i.opcode d a 0 0
  | .glog d a => packWord i.opcode d a 0 0
  | .gmul d a b => packWord i.opcode d a b 0
  | .gdiv d a b => packWord i.opcode d a b 0
  | .gpow d a b => packWord i.opcode d a b 0
  | .cgeng d fam => packWord i.opcode d 0 0 (familyCode fam)
  | .cgenh d fam => packWord i.opcode d 0 0 (familyCode fam)
  | .mblk d a l => packWord i.opcode d a 0 l
  | .kinv d n => packWord i.opcode d 0 0 n
  | .kperm d n => packWord i.opcode d 0 0 n
  | .vmul d a b => packWord i.opcode d a b 0
  | .vmov d a => packWord i.opcode d a 0 0
  | .vxor d a b => packWord i.opcode d a b 0
  | .vnoise d a n => packWord i.opcode d a 0 n
  | .bsyn d a blk => packWord i.opcode d a 0 blk
  | .dham d a b => packWord i.opcode d a b 0
  | .dbch d a => packWord i.opcode d a 0 0
  | .vmsg d a n k => packWord i.opcode d a 0 (n * 64 + k)

/-- The command the decoder reads from the `nbits` bits of `w`, numbered as spec/opcode_table.json numbers
them. Every row of the table is one 32-bit word (30_encoding.md R90); bits above `nbits` are 0. -/
def decodeTableWord (nbits w : Nat) : Option Instr :=
  (decode (BitVec.ofNat 32 (w % 2 ^ nbits))).toOption

end Sys2Proof
end

