-- ==== Sys2Proof/Machine/Flags.lean ====
section
/-!
DEFINITION. The flags: STATUS and CTRL as words, their writes, and the interrupt output
(10_state.md R43, R44, R59; 60_exceptions.md R274, R277). The flags a command writes are those of
`acceptCommand`, `State.finish` and `State.takeFault` (Ops.lean); OVR is set by `State.noteOverrun`.
-/

namespace Sys2Proof.Machine

/-- STATUS as the host reads it: BUSY, DONE, ERR, OVR in bits 0 to 3 (10_state.md R44). -/
def State.statusWord (s : State) : Word :=
  BitVec.ofNat 32 (s.busy.toNat + 2 * s.done.toNat + 4 * s.err.toNat + 8 * s.ovr.toNat)

/-- A write of v to STATUS (10_state.md R44): writing 1 to DONE, ERR or OVR clears it; clearing ERR also clears
ERRCODE and ERRCMD (60_exceptions.md R274). BUSY and the reserved bits ignore the write. -/
def State.writeStatus (v : Word) (s : State) : State :=
  let s := { s with done := s.done && !v.getLsbD 1, ovr := s.ovr && !v.getLsbD 3 }
  if v.getLsbD 2 then s.clearFault else s

/-- CTRL as the host reads it: IE_DONE, IE_ERR; SRST and the reserved bits read 0 (10_state.md R43). -/
def State.ctrlWord (s : State) : Word := BitVec.ofNat 32 (s.ieDone.toNat + 2 * s.ieErr.toNat)

/-- A write of v to CTRL (10_state.md R43): with bit 31 = 1 a soft reset, which also leaves CTRL at 0;
otherwise IE_DONE and IE_ERR take bits 0 and 1. -/
def State.writeCtrl (v : Word) (s : State) : State :=
  if v.getLsbD 31 then s.resetCore
  else { s with ieDone := v.getLsbD 0, ieErr := v.getLsbD 1 }

/-- An access the engine refuses while busy sets OVR (70_reset_and_hazards.md R310, 60_exceptions.md R269). -/
def State.noteOverrun (s : State) : State := { s with ovr := true }

/-- The interrupt output (60_exceptions.md R277). -/
def State.irq (s : State) : Bool := (s.ieDone && s.done) || (s.ieErr && (s.err || s.ovr))

end Sys2Proof.Machine
end

