-- ==== Sys2Proof/Machine/Window.lean ====
section
/-!
DEFINITION. The register window: what a host read returns and what a host write does, idle and busy
(10_state.md R40 to R58, 20_memory.md R70 to R77, 70_reset_and_hazards.md R310, R311).
-/

namespace Sys2Proof.Machine

/-- The registers of the window (10_state.md R40). -/
inductive MmioReg where
  | id
  | param
  | ctrl
  | status
  | cmd
  | noiseP
  | kgRounds
  | rngState
  | errcode
  | errcmd
  | sel
  | row
  | dim
  | data (w : Fin 8)
  | reserved
deriving DecidableEq, Repr

/-- The register at byte offset `off`: register number off[7:2]; off[1:0] and the bits above bit 7 are ignored
(20_memory.md R70, 10_state.md R40, R58). -/
def regAt (off : Nat) : MmioReg :=
  match off / 4 % 64 with
  | 0 => .id
  | 1 => .param
  | 2 => .ctrl
  | 3 => .status
  | 4 => .cmd
  | 5 => .noiseP
  | 6 => .kgRounds
  | 7 => .rngState
  | 8 => .errcode
  | 9 => .errcmd
  | 16 => .sel
  | 17 => .row
  | 18 => .dim
  | 32 => .data 0
  | 33 => .data 1
  | 34 => .data 2
  | 35 => .data 3
  | 36 => .data 4
  | 37 => .data 5
  | 38 => .data 6
  | 39 => .data 7
  | _ => .reserved

/-- The engine-owned registers (70_reset_and_hazards.md R311). -/
def MmioReg.engineOwned : MmioReg → Bool
  | .noiseP => true
  | .kgRounds => true
  | .rngState => true
  | .dim => true
  | .data _ => true
  | .id => false
  | .param => false
  | .ctrl => false
  | .status => false
  | .cmd => false
  | .errcode => false
  | .errcmd => false
  | .sel => false
  | .row => false
  | .reserved => false

/-! ## The constants and the selection registers -/

/-- ID (10_state.md R41). -/
def idWord : Word := 0x47460104

/-- PARAM (10_state.md R42). -/
def paramWord : Word := 0x08880100

/-- SEL.KIND as a number (10_state.md R51). -/
def SelKind.code : SelKind → Nat
  | .matrix => 0
  | .vector => 1
  | .scalar => 2
  | .unselected => 3

/-- The SEL.KIND of a 2-bit number (10_state.md R51). -/
def selKindOf (k : Nat) : SelKind :=
  match k with
  | 0 => .matrix
  | 1 => .vector
  | 2 => .scalar
  | _ => .unselected

/-- SEL as the host reads it (10_state.md R51). -/
def State.selWord (s : State) : Word := BitVec.ofNat 32 (s.selKind.code * 16 + s.selIndex.val)

/-- A write of v to SEL: INDEX takes bits 2:0 and KIND bits 5:4 (10_state.md R51). -/
def State.writeSel (v : Word) (s : State) : State :=
  { s with selIndex := Fin.ofNat 8 (field v 2 0), selKind := selKindOf (field v 5 4) }

/-- A write of v to ROW: bits 8:0 (10_state.md R52). -/
def State.writeRow (v : Word) (s : State) : State := { s with row := BitVec.ofNat 9 (field v 8 0) }

/-- A write of v to NOISE_P: min(v[16:0], 65536) (10_state.md R46). -/
def State.writeNoiseP (v : Word) (s : State) : State :=
  { s with noiseP := BitVec.ofNat 17 (min (field v 16 0) 65536) }

/-- A write of v to KG_ROUNDS: bits 15:0 (10_state.md R47). -/
def State.writeKgRounds (v : Word) (s : State) : State := { s with kgRounds := BitVec.ofNat 16 (field v 15 0) }

/-! ## The data window (10_state.md R53 to R57) -/

/-- DIM as the host reads it (10_state.md R53). -/
def State.dimWord (s : State) : Word :=
  match s.selKind with
  | .matrix => BitVec.ofNat 32 (Mat.nrows (s.getM s.selIndex) * 2 ^ 16 + Mat.ncols (s.getM s.selIndex))
  | .vector => BitVec.ofNat 32 (s.getV s.selIndex).length
  | .scalar => 0
  | .unselected => 0

/-- A write of v to DIM: it sizes and zeroes the selected matrix or vector; a dimension above DMAX is ignored, and
a matrix with no rows or no columns is empty (10_state.md R53). -/
def State.writeDim (v : Word) (s : State) : State :=
  match s.selKind with
  | .matrix =>
    if field v 24 16 > Config.dmax ∨ field v 8 0 > Config.dmax then s
    else if field v 24 16 = 0 ∨ field v 8 0 = 0 then s.setM s.selIndex []
    else s.setM s.selIndex (Mat.zeros (field v 24 16) (field v 8 0))
  | .vector =>
    if field v 8 0 > Config.dmax then s else s.setV s.selIndex (Vec.zero (field v 8 0))
  | .scalar => s
  | .unselected => s

/-- The number whose bit i is `bits[i]`. -/
def bitsToNat : Vec → Nat
  | [] => 0
  | b :: rest => b.toNat + 2 * bitsToNat rest

/-- DATAw of a bit vector: bit b is element 32w + b, and 0 outside the vector (10_state.md R54 to R56). -/
def dataOf (bits : Vec) (w : Nat) : Word := BitVec.ofNat 32 (bitsToNat ((bits.drop (32 * w)).take 32))

/-- A write of v to DATAw of a bit vector: element 32w + b takes bit b of v where it exists; the length stays
(10_state.md R55, R56). -/
def writeData (bits : Vec) (w : Nat) (v : Word) : Vec :=
  bits.mapIdx fun e old => if e / 32 = w then v.getLsbD (e % 32) else old

/-- DATAw as the host reads it, w in 0..7 (10_state.md R54 to R57). -/
def State.dataWord (s : State) (w : Nat) : Word :=
  match s.selKind with
  | .matrix => dataOf (Mat.row (s.getM s.selIndex) s.row.toNat) w
  | .vector => dataOf (s.getV s.selIndex) w
  | .scalar => if w = 0 then (s.getX s.selIndex).setWidth 32 else 0
  | .unselected => 0

/-- A write of v to DATAw, w in 0..7 (10_state.md R54 to R57). A row outside the matrix is ignored. -/
def State.writeDataWord (w : Nat) (v : Word) (s : State) : State :=
  match s.selKind with
  | .matrix =>
    s.setM s.selIndex ((s.getM s.selIndex).modify s.row.toNat fun bits => writeData bits w v)
  | .vector => s.setV s.selIndex (writeData (s.getV s.selIndex) w v)
  | .scalar => if w = 0 then s.setX s.selIndex (v.setWidth 16) else s
  | .unselected => s

/-! ## Reads and writes -/

/-- What a register reads as while the engine does not refuse the access (10_state.md R41 to R58). -/
def State.regValue (s : State) : MmioReg → Word
  | .id => idWord
  | .param => paramWord
  | .ctrl => s.ctrlWord
  | .status => s.statusWord
  | .cmd => s.cmd
  | .noiseP => s.noiseP.setWidth 32
  | .kgRounds => s.kgRounds.setWidth 32
  | .rngState => s.rng
  | .errcode => s.errcode.setWidth 32
  | .errcmd => s.errcmd
  | .sel => s.selWord
  | .row => s.row.setWidth 32
  | .dim => s.dimWord
  | .data w => s.dataWord w
  | .reserved => 0

/-- What a write of v to a register does while the engine does not refuse the access (10_state.md R41 to R58). -/
def State.writeReg (r : MmioReg) (v : Word) (s : State) : State :=
  match r with
  | .id => s
  | .param => s
  | .ctrl => s.writeCtrl v
  | .status => s.writeStatus v
  | .cmd => acceptCommand v s
  | .noiseP => s.writeNoiseP v
  | .kgRounds => s.writeKgRounds v
  | .rngState => s.setRng v
  | .errcode => s
  | .errcmd => s
  | .sel => s.writeSel v
  | .row => s.writeRow v
  | .dim => s.writeDim v
  | .data w => s.writeDataWord w v
  | .reserved => s

/-- `MmioRead(off)`: the word returned and the state after it. While busy, a read of an engine-owned register
returns 0 and sets OVR; every other read has no side effect (20_memory.md R76, 70_reset_and_hazards.md R310). -/
def mmioRead (off : Nat) (s : State) : Word × State :=
  if s.busy && (regAt off).engineOwned then (0, s.noteOverrun) else (s.regValue (regAt off), s)

/-- `MmioWrite(off, v)`. While busy, a write to CMD or to an engine-owned register is dropped and sets OVR
(70_reset_and_hazards.md R310). -/
def mmioWrite (off : Nat) (v : Word) (s : State) : State :=
  if s.busy && ((regAt off).engineOwned || regAt off == .cmd) then s.noteOverrun
  else s.writeReg (regAt off) v

/-- A host read as an event: the word read is kept in the model's own field `lastRead` (log entry 4). -/
def hostRead (off : Nat) (s : State) : State :=
  let r := mmioRead off s
  { r.2 with lastRead := some r.1 }

/-- The outcome of an access narrower than 32 bits: the spec gives it no meaning (20_memory.md R74, log entry 5). -/
def hostNarrow (_off : Nat) (_s : State) : Host.Outcome State Fault Refusal := .refused .narrowAccess

end Sys2Proof.Machine
end

