-- ==== Sys2Proof/Machine/Step.lean ====
section
/-!
DEFINITION. One step of the machine: the next event of the outside world, or the completion of the command in
flight.
-/

namespace Sys2Proof.Machine

/-- The completion of the command in flight: the accepted word is decoded and executed, or completes with
ILLEGAL_CMD (46_system.md R250, R251; 60_exceptions.md R262). -/
def runCommand (s : State) : Host.Outcome State Fault Refusal :=
  match decode s.cmd with
  | .ok i => exec i s
  | .error _ => illegalCommand s

/-- A running command completes; an idle engine waits (70_reset_and_hazards.md R303, R320). -/
def engineCompletes (s : State) : Host.Outcome State Fault Refusal :=
  if s.busy then runCommand s else .next s

/-- The effect of one event (20_memory.md R78; 70_reset_and_hazards.md R300, R310). -/
def handleEvent (e : Event) (s : State) : Host.Outcome State Fault Refusal :=
  match e with
  | .read off => .next (hostRead off s)
  | .write off v => .next (mmioWrite off v s)
  | .narrow off => hostNarrow off s
  | .hardReset => .next s.resetCore
  | .completion => engineCompletes s

/-- One step. Accesses, resets and completions form one total order, the order of `bus` (20_memory.md R80); when
nothing more arrives, a running command completes after a finite time and an idle engine waits
(70_reset_and_hazards.md R303, R320; log entries 1 and 2). -/
def step (s : State) : Host.Outcome State Fault Refusal :=
  match s.bus with
  | [] => engineCompletes s
  | e :: rest => handleEvent e { s with bus := rest }

/-- s with the word accepted (46_system.md R250) and its completion next, so that the next step executes exactly
that command. The core fetches nothing: a program is the sequence of words the host writes to CMD
(10_state.md R36; log entry 15). -/
def State.withFetchWord (s : State) (nbits w : Nat) : State :=
  { acceptCommand (BitVec.ofNat 32 (w % 2 ^ nbits)) s with bus := .completion :: s.bus }

end Sys2Proof.Machine
end

