-- ==== Sys2Proof/Machine/Assembler.lean ====
section
/-!
DEFINITION. The assembler of 30_encoding.md R100 to R104: a line of text to its commands, with the
pseudo-commands. It is no part of the machine's state or step. Reading details the rules leave open are
DESIGN CHOICES: log entry 14.
-/

namespace Sys2Proof.Machine

/-- Why the assembler refuses a line (30_encoding.md R100, R102, R104). -/
inductive AsmError where
  /-- No command or pseudo-command has this mnemonic. -/
  | unknownMnemonic
  /-- An operand that is neither a register 0..7 nor an immediate. -/
  | badOperand
  /-- The operands are not those of R101: their number, or a register of the wrong file. -/
  | wrongOperands
  /-- An immediate that does not fit its kind. -/
  | immediateTooLarge
  /-- A pseudo-command whose two registers must differ (R104). -/
  | registersMustDiffer
deriving DecidableEq, Repr

/-- An operand as written (30_encoding.md R100, R101). -/
inductive Operand where
  | m (r : Reg)
  | v (r : Reg)
  | x (r : Reg)
  | imm (n : Nat)
  | fam (f : Family)
deriving DecidableEq, Repr

/-! ## Reading a line -/

/-- A space or a tab. -/
def isBlank (c : Char) : Bool := c == ' ' || c == '\t'

/-- The text without blanks at either end. -/
def trimBlanks (cs : List Char) : List Char :=
  ((cs.dropWhile isBlank).reverse.dropWhile isBlank).reverse

/-- The pieces between commas. -/
def splitCommas : List Char → List (List Char)
  | [] => [[]]
  | c :: cs =>
    if c = ',' then [] :: splitCommas cs
    else
      match splitCommas cs with
      | [] => [[c]]
      | piece :: rest => (c :: piece) :: rest

/-- The value of a digit, letters in upper case. -/
def digitValue (c : Char) : Option Nat :=
  if '0' ≤ c ∧ c ≤ '9' then some (c.toNat - '0'.toNat)
  else if 'A' ≤ c ∧ c ≤ 'F' then some (c.toNat - 'A'.toNat + 10)
  else none

/-- The number written by the digits, most significant first, continuing from acc. -/
def readDigits (base : Nat) : List Char → Nat → Option Nat
  | [], acc => some acc
  | c :: cs, acc =>
    match digitValue c with
    | some d => if d < base then readDigits base cs (acc * base + d) else none
    | none => none

/-- A number: decimal, or hexadecimal after 0x (30_encoding.md R100). -/
def readNumber (cs : List Char) : Option Nat :=
  match cs with
  | [] => none
  | ['0', 'X'] => none
  | '0' :: 'X' :: digits => readDigits 16 digits 0
  | digits => readDigits 10 digits 0

/-- An operand, in upper case (30_encoding.md R100, R101). -/
def readOperand (cs : List Char) : Except AsmError Operand :=
  match cs with
  | '#' :: rest =>
    if rest = ['H', 'A', 'M'] then .ok (.fam .ham)
    else if rest = ['B', 'C', 'H'] then .ok (.fam .bch)
    else
      match readNumber rest with
      | some n => .ok (.imm n)
      | none => .error .badOperand
  | [file, digit] =>
    if '0' ≤ digit ∧ digit ≤ '7' then
      let r : Reg := Fin.ofNat 8 (digit.toNat - '0'.toNat)
      if file = 'M' then .ok (.m r)
      else if file = 'V' then .ok (.v r)
      else if file = 'X' then .ok (.x r)
      else .error .badOperand
    else .error .badOperand
  | _ => .error .badOperand

/-- All the operands, in order. -/
def readOperands : List (List Char) → Except AsmError (List Operand)
  | [] => .ok []
  | piece :: rest => do
    let op ← readOperand (trimBlanks piece)
    let ops ← readOperands rest
    .ok (op :: ops)

/-! ## Commands by the files of their operands (30_encoding.md R101) -/

/-- The command, when its immediates fit (30_encoding.md R102). -/
def whenFits (i : Instr) : Except AsmError (List Instr) :=
  if i.wf then .ok [i] else .error .immediateTooLarge

/-- A FAM operand: 0, 1, HAM or BCH (30_encoding.md R101, R102). -/
def famOperand (op : Operand) : Except AsmError Family :=
  match op with
  | .fam f => .ok f
  | .imm n => if n ≤ 1 then .ok (familyOf n) else .error .immediateTooLarge
  | _ => .error .wrongOperands

/-- Operands `Md, #n`. -/
def asmMI (k : Reg → Nat → Instr) : List Operand → Except AsmError (List Instr)
  | [.m d, .imm n] => whenFits (k d n)
  | _ => .error .wrongOperands

/-- Operands `Xd, #imm`. -/
def asmXI (k : Reg → Nat → Instr) : List Operand → Except AsmError (List Instr)
  | [.x d, .imm n] => whenFits (k d n)
  | _ => .error .wrongOperands

/-- Operands `Md, #fam`. -/
def asmMF (k : Reg → Family → Instr) : List Operand → Except AsmError (List Instr)
  | [.m d, op] => do
    let f ← famOperand op
    whenFits (k d f)
  | _ => .error .wrongOperands

/-- Operands `Md, Ma`. -/
def asmMM (k : Reg → Reg → Instr) : List Operand → Except AsmError (List Instr)
  | [.m d, .m a] => whenFits (k d a)
  | _ => .error .wrongOperands

/-- Operands `Xd, Xa`. -/
def asmXX (k : Reg → Reg → Instr) : List Operand → Except AsmError (List Instr)
  | [.x d, .x a] => whenFits (k d a)
  | _ => .error .wrongOperands

/-- Operands `Vd, Va`. -/
def asmVV (k : Reg → Reg → Instr) : List Operand → Except AsmError (List Instr)
  | [.v d, .v a] => whenFits (k d a)
  | _ => .error .wrongOperands

/-- Operands `Md, Ma, Mb`. -/
def asmMMM (k : Reg → Reg → Reg → Instr) : List Operand → Except AsmError (List Instr)
  | [.m d, .m a, .m b] => whenFits (k d a b)
  | _ => .error .wrongOperands

/-- Operands `Xd, Xa, Xb`. -/
def asmXXX (k : Reg → Reg → Reg → Instr) : List Operand → Except AsmError (List Instr)
  | [.x d, .x a, .x b] => whenFits (k d a b)
  | _ => .error .wrongOperands

/-- Operands `Vd, Va, Vb`. -/
def asmVVV (k : Reg → Reg → Reg → Instr) : List Operand → Except AsmError (List Instr)
  | [.v d, .v a, .v b] => whenFits (k d a b)
  | _ => .error .wrongOperands

/-- Operands `Vd, Va, Mb`. -/
def asmVVM (k : Reg → Reg → Reg → Instr) : List Operand → Except AsmError (List Instr)
  | [.v d, .v a, .m b] => whenFits (k d a b)
  | _ => .error .wrongOperands

/-- Operands `Md, Ma, #L`. -/
def asmMMI (k : Reg → Reg → Nat → Instr) : List Operand → Except AsmError (List Instr)
  | [.m d, .m a, .imm n] => whenFits (k d a n)
  | _ => .error .wrongOperands

/-- Operands `Vd, Va, #n`. -/
def asmVVI (k : Reg → Reg → Nat → Instr) : List Operand → Except AsmError (List Instr)
  | [.v d, .v a, .imm n] => whenFits (k d a n)
  | _ => .error .wrongOperands

/-- Operands `Xd, Va, #b`. -/
def asmXVI (k : Reg → Reg → Nat → Instr) : List Operand → Except AsmError (List Instr)
  | [.x d, .v a, .imm n] => whenFits (k d a n)
  | _ => .error .wrongOperands

/-- Operands `Vd, Va, #n, #k`. -/
def asmVVII (c : Reg → Reg → Nat → Nat → Instr) : List Operand → Except AsmError (List Instr)
  | [.v d, .v a, .imm n, .imm k] => whenFits (c d a n k)
  | _ => .error .wrongOperands

/-! ## Pseudo-commands (30_encoding.md R104) -/

/-- `PKEY Md, Ms, Mg, Mp`: S · G_blockdiag · P, for d ≠ p. -/
def asmPkey : List Operand → Except AsmError (List Instr)
  | [.m d, .m s, .m g, .m p] =>
    if d = p then .error .registersMustDiffer else .ok [.mmul d s g, .mmul d d p]
  | _ => .error .wrongOperands

/-- `UNPERM Vd, Va, Mp, Mt` and `HSYN Vd, Va, Mh, Mt`: the vector times the transpose of the third operand, which
is put in the fourth; the two matrices must differ. -/
def asmMulTransposed : List Operand → Except AsmError (List Instr)
  | [.v d, .v a, .m p, .m t] =>
    if t = p then .error .registersMustDiffer else .ok [.mtrn t p, .vmul d a t]
  | _ => .error .wrongOperands

/-- The commands of a mnemonic, in upper case, with its operands (30_encoding.md R101, R104). -/
def assembleCommand (mnemonic : String) (ops : List Operand) : Except AsmError (List Instr) :=
  match mnemonic with
  | "NOP" => if ops = [] then .ok [.nop] else .error .wrongOperands
  | "MIDN" => asmMI .midn ops
  | "MMOV" => asmMM .mmov ops
  | "MTRN" => asmMM .mtrn ops
  | "MMUL" => asmMMM .mmul ops
  | "MINV" => asmMM .minv ops
  | "XLI" => asmXI .xli ops
  | "GEXP" => asmXX .gexp ops
  | "GLOG" => asmXX .glog ops
  | "GMUL" => asmXXX .gmul ops
  | "GDIV" => asmXXX .gdiv ops
  | "GPOW" => asmXXX .gpow ops
  | "CGENG" => asmMF .cgeng ops
  | "CGENH" => asmMF .cgenh ops
  | "MBLK" => asmMMI .mblk ops
  | "KINV" => asmMI .kinv ops
  | "KPERM" => asmMI .kperm ops
  | "VMUL" => asmVVM .vmul ops
  | "VMOV" => asmVV .vmov ops
  | "VXOR" => asmVVV .vxor ops
  | "VNOISE" => asmVVI .vnoise ops
  | "BSYN" => asmXVI .bsyn ops
  | "DHAM" => asmVVM .dham ops
  | "DBCH" => asmVV .dbch ops
  | "VMSG" => asmVVII .vmsg ops
  | "PKEY" => asmPkey ops
  | "ENCODE" => asmVVM .vmul ops
  | "UNPERM" => asmMulTransposed ops
  | "HSYN" => asmMulTransposed ops
  | "VCMP" => asmVVV .vxor ops
  | _ => .error .unknownMnemonic

/-- The commands of one line: none for an empty line or a comment, one for a command, those of its expansion for a
pseudo-command (30_encoding.md R100, R104). -/
def assembleLine (line : List Char) : Except AsmError (List Instr) :=
  let body := trimBlanks ((line.takeWhile fun c => c != ';').map Char.toUpper)
  if body = [] then .ok []
  else do
    let rest := trimBlanks (body.dropWhile fun c => !isBlank c)
    let ops ← if rest = [] then .ok [] else readOperands (splitCommas rest)
    assembleCommand (String.ofList (body.takeWhile fun c => !isBlank c)) ops

/-- The command words of one line (30_encoding.md R102). -/
def assembleWords (line : List Char) : Except AsmError (List Word) := do
  let commands ← assembleLine line
  .ok (commands.map encode)

end Sys2Proof.Machine
end

