-- ==== Sys2Proof/Safety.lean ====
section
/-!
DEFINITION. The invariant of the machine, and the words the statements use for what a command writes and leaves
alone.
-/

namespace Sys2Proof.Machine

/-! ## Shapes and the invariant -/

/-- v is a vector of length n. -/
abbrev Vec.HasLength (v : Vec) (n : Nat) : Prop := v.length = n

/-- A has R rows, each of C bits (00_scope.md R13). -/
abbrev Mat.HasShape (A : Mat) (R C : Nat) : Prop := A.length = R ∧ ∀ row ∈ A, row.length = C

/-- A legal vector register: length at most DMAX (10_state.md R33). -/
abbrev Vec.WF (v : Vec) : Prop := v.length ≤ Config.dmax

/-- A legal matrix register: rows of one length, dimensions at most DMAX, rows = 0 exactly when cols = 0
(10_state.md R31, R32). -/
abbrev Mat.WF (A : Mat) : Prop :=
  Mat.nrows A ≤ Config.dmax ∧ Mat.ncols A ≤ Config.dmax ∧ (∀ row ∈ A, row.length = Mat.ncols A) ∧
    (Mat.nrows A = 0 ↔ Mat.ncols A = 0)

/-- The invariant of every reachable state. -/
structure State.Inv (s : State) : Prop where
  /-- Matrix registers have a legal shape (10_state.md R31, R32). -/
  matrices : ∀ i, Mat.WF (s.getM i)
  /-- Vector registers have a legal length (10_state.md R33). -/
  vectors : ∀ i, Vec.WF (s.getV i)
  /-- NOISE_P never exceeds 0x10000 (10_state.md R46). -/
  noise : s.noiseP.toNat ≤ 65536
  /-- Cause codes 7..15 are never produced (60_exceptions.md R261). -/
  code : s.errcode.toNat ≤ 6
  /-- ERRCODE is 0 exactly when STATUS.ERR = 0 (10_state.md R49, 60_exceptions.md R261, R271). -/
  errIff : s.err = true ↔ s.errcode ≠ 0
  /-- ERRCMD is 0 when STATUS.ERR = 0 (10_state.md R50). -/
  cmdClear : s.err = false → s.errcmd = 0
  /-- DONE is cleared at acceptance and set only at completion (46_system.md R250, R251). -/
  notBoth : s.busy = true → s.done = false

/-- The next step is no narrow access: the only thing a step can refuse (20_memory.md R74). -/
def State.FullAccessNext (s : State) : Prop := ∀ off rest, s.bus ≠ .narrow off :: rest

end Sys2Proof.Machine

/-! ## What a command writes -/

namespace Sys2Proof

/-- The destination register of a command (30_encoding.md R92): NOP has none. -/
inductive Dest where
  | none
  | m (d : Reg)
  | v (d : Reg)
  | x (d : Reg)
deriving DecidableEq, Repr

/-- The one register a command's rule names as its destination (10_state.md R60, 46_system.md R251). -/
def Instr.dest : Instr → Dest
  | .nop => .none
  | .midn d _ => .m d
  | .mmov d _ => .m d
  | .mtrn d _ => .m d
  | .mmul d _ _ => .m d
  | .minv d _ => .m d
  | .xli d _ => .x d
  | .gexp d _ => .x d
  | .glog d _ => .x d
  | .gmul d _ _ => .x d
  | .gdiv d _ _ => .x d
  | .gpow d _ _ => .x d
  | .cgeng d _ => .m d
  | .cgenh d _ => .m d
  | .mblk d _ _ => .m d
  | .kinv d _ => .m d
  | .kperm d _ => .m d
  | .vmul d _ _ => .v d
  | .vmov d _ => .v d
  | .vxor d _ _ => .v d
  | .vnoise d _ _ => .v d
  | .bsyn d _ _ => .x d
  | .dham d _ _ => .v d
  | .dbch d _ => .v d
  | .vmsg d _ _ _ => .v d

/-- The commands that draw: KINV, KPERM and VNOISE (43_keygen.md R183). -/
def Instr.draws : Instr → Bool
  | .nop => false
  | .midn _ _ => false
  | .mmov _ _ => false
  | .mtrn _ _ => false
  | .mmul _ _ _ => false
  | .minv _ _ => false
  | .xli _ _ => false
  | .gexp _ _ => false
  | .glog _ _ => false
  | .gmul _ _ _ => false
  | .gdiv _ _ _ => false
  | .gpow _ _ _ => false
  | .cgeng _ _ => false
  | .cgenh _ _ => false
  | .mblk _ _ _ => false
  | .kinv _ _ => true
  | .kperm _ _ => true
  | .vmul _ _ _ => false
  | .vmov _ _ => false
  | .vxor _ _ _ => false
  | .vnoise _ _ _ => true
  | .bsyn _ _ _ => false
  | .dham _ _ _ => false
  | .dbch _ _ => false
  | .vmsg _ _ _ _ => false

end Sys2Proof

namespace Sys2Proof.Machine

/-- What the completion of any command leaves alone, and the two flags every completion writes
(46_system.md R251, 60_exceptions.md R260). -/
structure CommandFrame (s t : State) : Prop where
  busy : t.busy = false
  done : t.done = true
  ovr : t.ovr = s.ovr
  ieDone : t.ieDone = s.ieDone
  ieErr : t.ieErr = s.ieErr
  cmd : t.cmd = s.cmd
  noiseP : t.noiseP = s.noiseP
  kgRounds : t.kgRounds = s.kgRounds
  selIndex : t.selIndex = s.selIndex
  selKind : t.selKind = s.selKind
  row : t.row = s.row
  bus : t.bus = s.bus
  lastRead : t.lastRead = s.lastRead

/-- The completion recorded no fault: ERR and the capture registers are as before (46_system.md R251). -/
structure NoFaultRecorded (s t : State) : Prop where
  err : t.err = s.err
  errcode : t.errcode = s.errcode
  errcmd : t.errcmd = s.errcmd

/-- The completion recorded the fault c of the command: ERR is 1, and the capture registers take the cause and the
command word when ERR was 0, and keep the first fault when it was 1 (60_exceptions.md R260, R271). -/
structure FaultRecorded (c : FaultCause) (s t : State) : Prop where
  err : t.err = true
  first : s.err = false → t.errcode = c.code ∧ t.errcmd = s.cmd
  later : s.err = true → t.errcode = s.errcode ∧ t.errcmd = s.errcmd

/-- Every register of the three files is as before. -/
structure SameRegisters (s t : State) : Prop where
  m : ∀ j, t.getM j = s.getM j
  v : ∀ j, t.getV j = s.getV j
  x : ∀ j, t.getX j = s.getX j

/-- Every register of the three files but the destination is as before (10_state.md R60). -/
structure SameRegistersBut (dst : Dest) (s t : State) : Prop where
  m : ∀ j, dst ≠ .m j → t.getM j = s.getM j
  v : ∀ j, dst ≠ .v j → t.getV j = s.getV j
  x : ∀ j, dst ≠ .x j → t.getX j = s.getX j

/-- The frame of a command with destination dst that completes from s in t: either it completed normally, and no
register but its destination changed, or it faulted, and none did (46_system.md R251, 60_exceptions.md R260). -/
def CompletionOf (dst : Dest) (s t : State) : Prop :=
  CommandFrame s t ∧
    ((NoFaultRecorded s t ∧ SameRegistersBut dst s t) ∨ (∃ c, FaultRecorded c s t ∧ SameRegisters s t))

/-! ## Words for the statements about results -/

/-- The XOR of f 0, ..., f (n - 1): a sum over GF(2) (00_scope.md R14). -/
def xorSum (n : Nat) (f : Nat → Bool) : Bool := (List.range n).foldl (fun acc j => Bool.xor acc (f j)) false

/-- A has an inverse: a square matrix B of its size with A·B = I_n. -/
def Mat.Invertible (A : Mat) (n : Nat) : Prop := ∃ B, Mat.HasShape B n n ∧ Mat.mul A B = Mat.identity n

/-- g after k steps of the random source (43_keygen.md R180). -/
def rngAfter : Nat → Word → Word
  | 0, g => g
  | k + 1, g => rngAfter k (xorshift32 g)

/-- The sum over GF(2^4) of f 0, ..., f (n - 1): field addition is XOR (00_scope.md R15). -/
def gfSum (n : Nat) (f : Nat → Gf) : Gf := (List.range n).foldl (fun acc j => acc ^^^ f j) 0

/-- Multiplication by x modulo x^4 + x + 1 of a polynomial over GF(2), bit j the coefficient of x^j
(00_scope.md R15). -/
def timesX (a : Gf) : Gf := (a <<< 1) ^^^ (if a.getLsbD 3 then 3 else 0)

/-- The product of two polynomials over GF(2) modulo x^4 + x + 1 (00_scope.md R15). -/
def polyMul (a b : Gf) : Gf := gfSum 4 fun j => if b.getLsbD j then timesX^[j] a else 0

/-- The number of 1 coordinates. -/
def Vec.weight (v : Vec) : Nat := v.count true

/-- The number of coordinates in which two vectors of one length differ. -/
def Vec.distance (u w : Vec) : Nat := Vec.weight (Vec.xor u w)

/-- The row numbers dst and src of round k of KINV, drawn from g (43_keygen.md R184). -/
def kinvRows (n k : Nat) (g : Word) : Nat × Nat :=
  let dst := (rngAfter (2 * k + 1) g).toNat % n
  let src := (rngAfter (2 * k + 2) g).toNat % (n - 1)
  (dst, if dst ≤ src then src + 1 else src)

/-- The random source before block b of VNOISE: a block draws once, and once more when it is flipped
(44_encoder.md R206). -/
def noiseRng (noiseP : Nat) : Nat → Word → Word
  | 0, g => g
  | b + 1, g =>
    let g1 := xorshift32 (noiseRng noiseP b g)
    if g1.toNat % 65536 < noiseP then xorshift32 g1 else g1

/-- The causes a legal command can reach, the table of 60_exceptions.md R270 without ILLEGAL_CMD. -/
def possibleCauses : Instr → List FaultCause
  | .nop => []
  | .midn _ _ => [.shape]
  | .mmov _ _ => [.shape]
  | .mtrn _ _ => [.shape]
  | .mmul _ _ _ => [.shape]
  | .minv _ _ => [.shape, .singular]
  | .xli _ _ => []
  | .gexp _ _ => [.gfDomain]
  | .glog _ _ => [.gfDomain]
  | .gmul _ _ _ => [.gfDomain]
  | .gdiv _ _ _ => [.gfDomain, .gfDiv0]
  | .gpow _ _ _ => [.gfDomain]
  | .cgeng _ _ => []
  | .cgenh _ _ => []
  | .mblk _ _ _ => [.shape]
  | .kinv _ _ => [.shape, .keygenExhausted]
  | .kperm _ _ => [.shape]
  | .vmul _ _ _ => [.shape]
  | .vmov _ _ => [.shape]
  | .vxor _ _ _ => [.shape]
  | .vnoise _ _ _ => [.shape]
  | .bsyn _ _ _ => [.shape]
  | .dham _ _ _ => [.shape]
  | .dbch _ _ => [.shape]
  | .vmsg _ _ _ _ => [.shape]

/-- Block b of a vector cut into blocks of n coordinates (44_encoder.md R205). -/
def Vec.block (n b : Nat) (v : Vec) : Vec := (v.drop (n * b)).take n

/-- An event the host can cause without resetting the core: a read, or a write other than a CTRL write with
SRST = 1 (10_state.md R43). -/
def Event.hostAccess : Event → Prop
  | .read _ => True
  | .write off v => ¬ (regAt off = .ctrl ∧ v.getLsbD 31 = true)
  | .narrow _ => False
  | .hardReset => False
  | .completion => False

/-- The state after a list of events, each handled in turn; nothing when one is refused. -/
def runEvents : List Event → State → Option State
  | [], s => some s
  | e :: rest, s =>
    match handleEvent e s with
    | .next t => runEvents rest t
    | .fault _ => none
    | .refused _ => none

end Sys2Proof.Machine
end

