-- ==== Sys2Proof/Certificates/Slice0/Obligations.lean ====
section
/-!
DEFINITION. The statements for the provers. A register number is quantified over all eight registers and a state
over all states; where only a state that no run reaches could break a statement, `State.Inv` is a premise, and
`StepKeepsInvariant` and `ResetMeetsInvariant` state that every reachable state meets it. A clause about an immediate
above the largest that fits its field is about a term no word decodes to: there the model's choice is log entry 13's.
-/

open Sys2Proof Sys2Proof.Machine

/-! ## Encoding -/

/-- Decoding the word of a well-formed command gives the command back (30_encoding.md R91, R92, R97, R102). -/
def Obligations.DecodeOfEncode : Prop := ∀ i : Instr, i.wf = true → decode (encode i) = .ok i

/-- A legal word is the word of the one well-formed command it decodes to: no two words decode to one command
(30_encoding.md R96, R97). -/
def Obligations.EncodeOfDecode : Prop :=
  ∀ (w : Word) (i : Instr), decode w = .ok i → i.wf = true ∧ encode i = w

/-- A word is illegal exactly when a clause (a) to (e) of 30_encoding.md R94 holds, written on its bits; it then
completes with ILLEGAL_CMD, writes no register and draws nothing. -/
def Obligations.IllegalWordsAreThoseOfR94 : Prop :=
  ∀ w : Word,
    let opc := w.extractLsb' 0 8
    let ra := w.extractLsb' 12 3
    let rb := w.extractLsb' 16 3
    let imm := w.extractLsb' 20 12
    let formN : List (BitVec 8) := [0x00]
    let formDI : List (BitVec 8) := [0x01, 0x10, 0x20, 0x21, 0x30, 0x31]
    let formDA : List (BitVec 8) := [0x02, 0x03, 0x05, 0x11, 0x12, 0x41, 0x52]
    let formDAB : List (BitVec 8) := [0x04, 0x13, 0x14, 0x15, 0x40, 0x42, 0x51]
    let formDAI : List (BitVec 8) := [0x22, 0x43, 0x50, 0x53]
    ((∃ e, decode w = .error e) ↔
      opc ∉ formN ++ formDI ++ formDA ++ formDAB ++ formDAI ∨
      w.getLsbD 11 = true ∨ w.getLsbD 15 = true ∨ w.getLsbD 19 = true ∨
      (opc ∈ formN ∧ w.extractLsb' 8 24 ≠ 0) ∨
      (opc ∈ formDI ∧ (ra ≠ 0 ∨ rb ≠ 0)) ∨
      (opc ∈ formDA ∧ (rb ≠ 0 ∨ imm ≠ 0)) ∨
      (opc ∈ formDAB ∧ imm ≠ 0) ∨
      (opc ∈ formDAI ∧ rb ≠ 0) ∨
      ((opc = 0x20 ∨ opc = 0x21) ∧ 1 < imm.toNat) ∨
      (opc = 0x43 ∧ w.extractLsb' 26 6 ≠ 0)) ∧
    ∀ s : State, (∃ e, decode w = .error e) →
      runCommand { s with cmd := w } = .next (State.takeFault .illegalCmd { s with cmd := w }) ∧
      SameRegisters s (State.takeFault .illegalCmd { s with cmd := w }) ∧
      (State.takeFault .illegalCmd { s with cmd := w }).rng = s.rng

/-- The lines and words of the table of 30_encoding.md R103: each line assembles to its word, and each word decodes
to its command. -/
def Obligations.ExampleWordsDecode : Prop :=
  (assembleWords "NOP".toList = .ok [0x00000000] ∧ decode 0x00000000 = .ok .nop) ∧
  (assembleWords "MIDN M2, #22".toList = .ok [0x01600201] ∧ decode 0x01600201 = .ok (.midn 2 22)) ∧
  (assembleWords "MMUL M6, M2, M4".toList = .ok [0x00042604] ∧ decode 0x00042604 = .ok (.mmul 6 2 4)) ∧
  (assembleWords "MINV M3, M2".toList = .ok [0x00002305] ∧ decode 0x00002305 = .ok (.minv 3 2)) ∧
  (assembleWords "XLI X1, #9".toList = .ok [0x00900110] ∧ decode 0x00900110 = .ok (.xli 1 9)) ∧
  (assembleWords "GPOW X3, X1, X2".toList = .ok [0x00021315] ∧ decode 0x00021315 = .ok (.gpow 3 1 2)) ∧
  (assembleWords "CGENG M0, #HAM".toList = .ok [0x00000020] ∧ decode 0x00000020 = .ok (.cgeng 0 .ham)) ∧
  (assembleWords "CGENH M1, #BCH".toList = .ok [0x00100121] ∧ decode 0x00100121 = .ok (.cgenh 1 .bch)) ∧
  (assembleWords "MBLK M4, M0, #2".toList = .ok [0x00200422] ∧ decode 0x00200422 = .ok (.mblk 4 0 2)) ∧
  (assembleWords "KPERM M5, #30".toList = .ok [0x01E00531] ∧ decode 0x01E00531 = .ok (.kperm 5 30)) ∧
  (assembleWords "VMUL V1, V0, M6".toList = .ok [0x00060140] ∧ decode 0x00060140 = .ok (.vmul 1 0 6)) ∧
  (assembleWords "VNOISE V1, V1, #15".toList = .ok [0x00F01143] ∧ decode 0x00F01143 = .ok (.vnoise 1 1 15)) ∧
  (assembleWords "BSYN X0, V2, #0".toList = .ok [0x00002050] ∧ decode 0x00002050 = .ok (.bsyn 0 2 0)) ∧
  (assembleWords "DHAM V2, V2, M1".toList = .ok [0x00012251] ∧ decode 0x00012251 = .ok (.dham 2 2 1)) ∧
  (assembleWords "DBCH V2, V1".toList = .ok [0x00001252] ∧ decode 0x00001252 = .ok (.dbch 2 1)) ∧
  (assembleWords "VMSG V3, V2, #15, #11".toList = .ok [0x3CB02353] ∧ decode 0x3CB02353 = .ok (.vmsg 3 2 15 11))

/-- Whatever line the assembler accepts, every word it makes is a legal command word, and decodes to the command of
the line (30_encoding.md R100, R102). -/
def Obligations.AssembledLinesDecode : Prop :=
  ∀ (line : List Char) (commands : List Instr), assembleLine line = .ok commands →
    assembleWords line = .ok (commands.map encode) ∧ ∀ i ∈ commands, decode (encode i) = .ok i

/-! ## A step -/

/-- What a step does, event by event. A running command completes as `exec` of the command its word decodes to (with
ILLEGAL_CMD when it decodes to none): when nothing more arrives, when its completion is the next event, and right after
`withFetchWord`; an idle engine waits (46_system.md R250, R251; 60_exceptions.md R262). A host write, a host read or a
reset that is the next event takes its whole effect before anything else (20_memory.md R70, R78;
70_reset_and_hazards.md R300, R301). The list the step takes each event off, the word a read leaves in `lastRead`,
`withFetchWord` and a completion event while idle are the model's own: log entries 1, 2, 4, 8, 15, 17. -/
def Obligations.StepRunsDecodedCommand : Prop :=
  (∀ (s : State) (i : Instr), s.busy = true → decode s.cmd = .ok i →
    (s.bus = [] → step s = exec i s) ∧
    (∀ rest, s.bus = .completion :: rest → step s = exec i { s with bus := rest })) ∧
  (∀ (s : State) (e : IllegalWord), s.busy = true → decode s.cmd = .error e →
    (s.bus = [] → step s = .next (s.takeFault .illegalCmd)) ∧
    (∀ rest, s.bus = .completion :: rest →
      step s = .next (State.takeFault .illegalCmd { s with bus := rest }))) ∧
  (∀ (s : State) (w : Word) (i : Instr), decode w = .ok i →
    step (s.withFetchWord 32 w.toNat) = exec i (acceptCommand w s)) ∧
  (∀ s : State, s.busy = false →
    (s.bus = [] → step s = .next s) ∧
    (∀ rest, s.bus = .completion :: rest → step s = .next { s with bus := rest })) ∧
  ∀ (s : State) (rest : List Event),
    let now : State := { s with bus := rest }
    (∀ (off : Nat) (v : Word), s.bus = .write off v :: rest → step s = .next (mmioWrite off v now)) ∧
    (∀ off : Nat, s.bus = .read off :: rest →
      step s = .next { (mmioRead off now).2 with lastRead := some (mmioRead off now).1 }) ∧
    (s.bus = .hardReset :: rest → step s = .next now.resetCore)

/-- Acceptance (46_system.md R250): a write to CMD (register 4 of the window) while idle makes CMD read the word, sets
BUSY, clears DONE and changes nothing else; every accepted word is then executed; a write while busy is not accepted. -/
def Obligations.AcceptanceOfACommand : Prop :=
  ∀ (s : State) (w : Word) (off : Nat), off / 4 % 64 = 4 →
    (s.busy = false →
      mmioWrite off w s = { s with cmd := w, busy := true, done := false } ∧
      (mmioRead off (mmioWrite off w s)).1 = w ∧
      (mmioWrite off w s).err = s.err ∧ (mmioWrite off w s).ovr = s.ovr ∧
      (∀ i, decode w = .ok i → engineCompletes (mmioWrite off w s) = exec i (mmioWrite off w s)) ∧
      (∀ e, decode w = .error e →
        engineCompletes (mmioWrite off w s) = .next ((mmioWrite off w s).takeFault .illegalCmd))) ∧
    (s.busy = true → mmioWrite off w s = { s with ovr := true })

/-- Completion (46_system.md R251, 60_exceptions.md R260): whatever word is in flight, it completes in one state
change, either normally, writing no register but its destination and RNG_STATE only if it draws, or with a fault of
that word (ILLEGAL_CMD for an illegal one, else one of its command's causes), writing nothing but the fault's record.
RNG_STATE stays at every fault: KEYGEN_EXHAUSTED, the one fault after draws, is never reached (43_keygen.md R185). -/
def Obligations.CompletionOfAcceptedCommand : Prop :=
  ∀ s : State, s.busy = true → ∃ t, engineCompletes s = .next t ∧ CommandFrame s t ∧
    t.irq = (s.ieDone || (s.ieErr && (t.err || s.ovr))) ∧
    ((∃ i, decode s.cmd = .ok i ∧ NoFaultRecorded s t ∧ SameRegistersBut i.dest s t ∧
        (i.draws = false → t.rng = s.rng)) ∨
      (∃ c, ((∃ e, decode s.cmd = .error e ∧ c = .illegalCmd) ∨
          (∃ i, decode s.cmd = .ok i ∧ c ∈ possibleCauses i ∧ c ≠ .keygenExhausted)) ∧
        FaultRecorded c s t ∧ SameRegisters s t ∧ t.rng = s.rng))

/-- No access fails and no command stops the machine (20_memory.md R75, 70_reset_and_hazards.md R321): a step answers
a next state, except before an access narrower than 32 bits, which the spec does not define (R74). -/
def Obligations.StepStopsOnlyOnNarrowAccess : Prop :=
  (∀ s : State, s.FullAccessNext → ∃ t, step s = .next t) ∧
  (∀ (s : State) (off : Nat) (rest : List Event), s.bus = .narrow off :: rest → step s = .refused .narrowAccess)

/-! ## Faults, flags, registers -/

/-- The fault capture keeps the first fault (60_exceptions.md R271): a command that faults while ERR = 0 leaves its
cause and its word; one that completes while ERR = 1 leaves the capture as it is. -/
def Obligations.FirstFaultCapture : Prop :=
  ∀ s t : State, runCommand s = .next t →
    (s.err = true → t.err = true ∧ t.errcode = s.errcode ∧ t.errcmd = s.errcmd) ∧
    (s.err = false → t.err = true → t.errcmd = s.cmd ∧ ∃ c : FaultCause, t.errcode = c.code) ∧
    (s.err = false → t.err = false → t.errcode = s.errcode ∧ t.errcmd = s.errcmd)

/-- A legal command reaches only the causes its row of the table of 60_exceptions.md R270 lists, and KINV never
reaches KEYGEN_EXHAUSTED (43_keygen.md R185). -/
def Obligations.CausesOfEachCommand : Prop :=
  ∀ (i : Instr) (s t : State), exec i s = .next t → s.err = false → t.err = true →
    (∃ c ∈ possibleCauses i, t.errcode = c.code) ∧ t.errcode ≠ 6

/-- A write to STATUS (60_exceptions.md R274; 10_state.md R44), idle or busy: 1 in bit 1, 2 or 3 clears DONE, ERR or
OVR; clearing ERR clears ERRCODE and ERRCMD, and a fault that completes right after is captured anew. STATUS reads as
its four flags. No step but such a write or a reset clears ERR. -/
def Obligations.StatusWriteOneToClear : Prop :=
  (∀ s t : State, step s = .next t → s.err = true → t.err = false →
    ∃ rest, s.bus = .hardReset :: rest ∨ ∃ off v, s.bus = .write off v :: rest ∧
      ((off / 4 % 64 = 3 ∧ v.getLsbD 2 = true) ∨ (off / 4 % 64 = 2 ∧ v.getLsbD 31 = true))) ∧
  ∀ (s : State) (v : Word) (off : Nat), off / 4 % 64 = 3 →
    mmioWrite off v s =
      { s with
        done := s.done && !v.getLsbD 1
        err := s.err && !v.getLsbD 2
        ovr := s.ovr && !v.getLsbD 3
        errcode := if v.getLsbD 2 then 0 else s.errcode
        errcmd := if v.getLsbD 2 then 0 else s.errcmd } ∧
    (v.getLsbD 2 = true → s.busy = true → ∃ t, runEvents [.write off v, .completion] s = some t ∧
      (t.err = true → t.errcmd = s.cmd ∧ t.errcode ≠ 0) ∧
      (∀ e, decode s.cmd = .error e → t.err = true ∧ t.errcode = 1)) ∧
    (mmioRead off s).1 = BitVec.ofNat 32
      ((if s.busy then 1 else 0) + (if s.done then 2 else 0) + (if s.err then 4 else 0) + (if s.ovr then 8 else 0))

/-- The interrupt output (60_exceptions.md R277). -/
def Obligations.InterruptOutput : Prop :=
  ∀ s : State, s.irq = true ↔ (s.ieDone = true ∧ s.done = true) ∨ (s.ieErr = true ∧ (s.err = true ∨ s.ovr = true))

/-- The three register files (10_state.md R35): a register reads as what was last written to it, and a write changes
no other register of its file or of another file. -/
def Obligations.RegisterFilesReadAfterWrite : Prop :=
  ∀ (s : State) (i j : Reg) (A : Mat) (v : Vec) (x : Scalar),
    (s.setM i A).getM i = A ∧ (i ≠ j → (s.setM i A).getM j = s.getM j) ∧
    (s.setV i v).getV i = v ∧ (i ≠ j → (s.setV i v).getV j = s.getV j) ∧
    (s.setX i x).getX i = x ∧ (i ≠ j → (s.setX i x).getX j = s.getX j) ∧
    (s.setM i A).getV j = s.getV j ∧ (s.setM i A).getX j = s.getX j ∧
    (s.setV i v).getM j = s.getM j ∧ (s.setV i v).getX j = s.getX j ∧
    (s.setX i x).getM j = s.getM j ∧ (s.setX i x).getV j = s.getV j

/-- What the two ways to complete do, the words the command statements end in (46_system.md R251; 60_exceptions.md
R260, R261): `finish` records no fault and changes no register; `takeFault c` records c and changes no register. -/
def Obligations.FinishAndTakeFault : Prop :=
  (∀ s : State, CommandFrame s s.finish ∧ NoFaultRecorded s s.finish ∧ SameRegisters s s.finish ∧
    s.finish.rng = s.rng) ∧
  (∀ (s : State) (c : FaultCause), CommandFrame s (s.takeFault c) ∧ FaultRecorded c s (s.takeFault c) ∧
    SameRegisters s (s.takeFault c) ∧ (s.takeFault c).rng = s.rng) ∧
  FaultCause.code .illegalCmd = 1 ∧ FaultCause.code .shape = 2 ∧ FaultCause.code .singular = 3 ∧
  FaultCause.code .gfDiv0 = 4 ∧ FaultCause.code .gfDomain = 5 ∧ FaultCause.code .keygenExhausted = 6

/-! ## Frames (10_state.md R60; 40_matrix.md R120; 41_gf.md R140; 44_encoder.md R200) -/

/-- The frame of MIDN, MMOV, MTRN, MMUL, MINV, CGENG, CGENH, MBLK, KINV and KPERM. -/
def Obligations.MatrixCommandsFrame : Prop :=
  ∀ (i : Instr) (d : Reg) (s t : State), i.dest = .m d → exec i s = .next t →
    CompletionOf (.m d) s t ∧ (i.draws = false → t.rng = s.rng)

/-- The frame of XLI, GEXP, GLOG, GMUL, GDIV, GPOW and BSYN. -/
def Obligations.ScalarCommandsFrame : Prop :=
  ∀ (i : Instr) (d : Reg) (s t : State), i.dest = .x d → exec i s = .next t →
    CompletionOf (.x d) s t ∧ t.rng = s.rng

/-- The frame of VMUL, VMOV, VXOR, VNOISE, DHAM, DBCH and VMSG. -/
def Obligations.VectorCommandsFrame : Prop :=
  ∀ (i : Instr) (d : Reg) (s t : State), i.dest = .v d → exec i s = .next t →
    CompletionOf (.v d) s t ∧ (i.draws = false → t.rng = s.rng)

/-! ## The commands: system and matrix algebra -/

/-- NOP (46_system.md R252): its only word is 0; it completes normally and changes no register; opcode 0 with any other
bit set is illegal. -/
def Obligations.NopCompletes : Prop :=
  (∀ w : Word, decode w = .ok .nop ↔ w = 0) ∧ (∀ s : State, exec .nop s = .next s.finish) ∧
  ∀ s : State, field s.cmd 7 0 = 0 → field s.cmd 31 8 ≠ 0 → runCommand s = .next (s.takeFault .illegalCmd)

/-- MIDN (40_matrix.md R121). -/
def Obligations.MidnWritesIdentity : Prop :=
  ∀ (d : Reg) (n : Nat) (s : State),
    encode (.midn d n) = packWord 0x01 d 0 0 n ∧
    (1 ≤ n → n ≤ 256 → ∃ T, exec (.midn d n) s = .next (s.setM d T).finish ∧ Mat.HasShape T n n ∧
      ∀ r c, r < n → c < n → Mat.bit T r c = decide (r = c)) ∧
    (n = 0 ∨ 256 < n → exec (.midn d n) s = .next (s.takeFault .shape))

/-- MMOV (40_matrix.md R122) and VMOV (44_encoder.md R203). -/
def Obligations.MmovVmovCopy : Prop :=
  ∀ (d a : Reg) (s : State),
    encode (.mmov d a) = packWord 0x02 d a 0 0 ∧ encode (.vmov d a) = packWord 0x41 d a 0 0 ∧
    (Mat.nrows (s.getM a) ≠ 0 → exec (.mmov d a) s = .next (s.setM d (s.getM a)).finish ∧
      exec (.mmov a a) s = .next s.finish) ∧
    (Mat.nrows (s.getM a) = 0 → exec (.mmov d a) s = .next (s.takeFault .shape)) ∧
    ((s.getV a).length ≠ 0 → exec (.vmov d a) s = .next (s.setV d (s.getV a)).finish ∧
      exec (.vmov a a) s = .next s.finish) ∧
    ((s.getV a).length = 0 → exec (.vmov d a) s = .next (s.takeFault .shape))

/-- MTRN (40_matrix.md R123). -/
def Obligations.MtrnTransposes : Prop :=
  ∀ (d a : Reg) (s : State),
    let A := s.getM a
    encode (.mtrn d a) = packWord 0x03 d a 0 0 ∧
    (s.Inv → Mat.nrows A ≠ 0 → ∃ T, exec (.mtrn d a) s = .next (s.setM d T).finish ∧
      Mat.HasShape T (Mat.ncols A) (Mat.nrows A) ∧
      ∀ r c, r < Mat.nrows A → c < Mat.ncols A → Mat.bit T c r = Mat.bit A r c) ∧
    (Mat.nrows A = 0 → exec (.mtrn d a) s = .next (s.takeFault .shape))

/-- MMUL (40_matrix.md R124). -/
def Obligations.MmulIsProduct : Prop :=
  ∀ (d a b : Reg) (s : State),
    let A := s.getM a
    let B := s.getM b
    encode (.mmul d a b) = packWord 0x04 d a b 0 ∧
    (s.Inv → Mat.nrows A ≠ 0 → Mat.nrows B ≠ 0 → Mat.ncols A = Mat.nrows B →
      ∃ T, exec (.mmul d a b) s = .next (s.setM d T).finish ∧ Mat.HasShape T (Mat.nrows A) (Mat.ncols B) ∧
        ∀ r c, r < Mat.nrows A → c < Mat.ncols B →
          Mat.bit T r c = xorSum (Mat.ncols A) (fun j => Mat.bit A r j && Mat.bit B j c)) ∧
    (Mat.nrows A = 0 ∨ Mat.nrows B = 0 ∨ Mat.ncols A ≠ Mat.nrows B →
      exec (.mmul d a b) s = .next (s.takeFault .shape))

/-- MINV (40_matrix.md R125, R126, R127; 60_exceptions.md R264): the two-sided inverse of an invertible matrix, SINGULAR
exactly when there is none, SHAPE for an empty or non-square operand. The elimination step is the spec's from general
knowledge (log entry 10). -/
def Obligations.MinvIsInverse : Prop :=
  ∀ (d a : Reg) (s : State),
    let A := s.getM a
    let n := Mat.nrows A
    encode (.minv d a) = packWord 0x05 d a 0 0 ∧
    (s.Inv → n ≠ 0 → Mat.ncols A = n →
      (Mat.Invertible A n → ∃ T, exec (.minv d a) s = .next (s.setM d T).finish ∧ Mat.HasShape T n n ∧
        Mat.mul A T = Mat.identity n ∧ Mat.mul T A = Mat.identity n) ∧
      (¬ Mat.Invertible A n → exec (.minv d a) s = .next (s.takeFault .singular))) ∧
    (n = 0 ∨ n ≠ Mat.ncols A → exec (.minv d a) s = .next (s.takeFault .shape))

/-! ## The commands: GF(2^4) -/

/-- XLI (41_gf.md R141), for every immediate its 12-bit field holds. -/
def Obligations.XliLoadsImmediate : Prop :=
  ∀ (d : Reg) (imm : Nat) (s : State),
    encode (.xli d imm) = packWord 0x10 d 0 0 imm ∧
    (imm ≤ 4095 → exec (.xli d imm) s = .next (s.setX d ((BitVec.ofNat 12 imm).setWidth 16)).finish)

/-- GEXP (41_gf.md R142). -/
def Obligations.GexpReadsTheExpTable : Prop :=
  ∀ (d a : Reg) (s : State),
    encode (.gexp d a) = packWord 0x11 d a 0 0 ∧
    ((s.getX a).toNat ≤ 29 →
      exec (.gexp d a) s = .next (s.setX d ((expOf (s.getX a).toNat).setWidth 16)).finish) ∧
    (30 ≤ (s.getX a).toNat → exec (.gexp d a) s = .next (s.takeFault .gfDomain))

/-- GLOG (41_gf.md R143): the logarithm, in 0..14, of a nonzero field element. -/
def Obligations.GlogIsTheLogarithm : Prop :=
  ∀ (d a : Reg) (s : State),
    let e := (s.getX a).toNat
    encode (.glog d a) = packWord 0x12 d a 0 0 ∧
    (1 ≤ e → e ≤ 15 → ∃ l, l ≤ 14 ∧ l = logOf (BitVec.ofNat 4 e) ∧ (expOf l).toNat = e ∧
      exec (.glog d a) s = .next (s.setX d (BitVec.ofNat 16 l)).finish) ∧
    (e = 0 ∨ 15 < e → exec (.glog d a) s = .next (s.takeFault .gfDomain))

/-- GMUL (41_gf.md R144). -/
def Obligations.GmulMultiplies : Prop :=
  ∀ (d a b : Reg) (s : State),
    let x : Gf := (s.getX a).setWidth 4
    let y : Gf := (s.getX b).setWidth 4
    encode (.gmul d a b) = packWord 0x13 d a b 0 ∧
    ((s.getX a).toNat ≤ 15 → (s.getX b).toNat ≤ 15 →
      ∃ p : Gf, exec (.gmul d a b) s = .next (s.setX d (p.setWidth 16)).finish ∧
        (x = 0 ∨ y = 0 → p = 0) ∧ (x ≠ 0 → y ≠ 0 → p = expOf ((logOf x + logOf y) % 15))) ∧
    (15 < (s.getX a).toNat ∨ 15 < (s.getX b).toNat → exec (.gmul d a b) s = .next (s.takeFault .gfDomain))

/-- GDIV (41_gf.md R145). The formula of the last line of its pseudocode is the spec's from general knowledge (log
entry 10); the quotient is also stated as the q with q·b = a. -/
def Obligations.GdivDivides : Prop :=
  ∀ (d a b : Reg) (s : State),
    let x : Gf := (s.getX a).setWidth 4
    let y : Gf := (s.getX b).setWidth 4
    encode (.gdiv d a b) = packWord 0x14 d a b 0 ∧
    (15 < (s.getX a).toNat ∨ 15 < (s.getX b).toNat → exec (.gdiv d a b) s = .next (s.takeFault .gfDomain)) ∧
    ((s.getX a).toNat ≤ 15 → (s.getX b).toNat ≤ 15 →
      (x = 0 → exec (.gdiv d a b) s = .next (s.setX d 0).finish) ∧
      (x ≠ 0 → y = 0 → exec (.gdiv d a b) s = .next (s.takeFault .gfDiv0)) ∧
      (x ≠ 0 → y ≠ 0 → ∃ q : Gf, exec (.gdiv d a b) s = .next (s.setX d (q.setWidth 16)).finish ∧
        q = expOf (((logOf x : Int) - logOf y) % 15).toNat ∧ gfMul q y = x))

/-- GPOW (41_gf.md R146), the exponent a signed 16-bit number. -/
def Obligations.GpowIsThePower : Prop :=
  ∀ (d a b : Reg) (s : State),
    let x : Gf := (s.getX a).setWidth 4
    let n : Int := (s.getX b).toInt
    encode (.gpow d a b) = packWord 0x15 d a b 0 ∧
    (15 < (s.getX a).toNat → exec (.gpow d a b) s = .next (s.takeFault .gfDomain)) ∧
    ((s.getX a).toNat ≤ 15 →
      (n = 0 → exec (.gpow d a b) s = .next (s.setX d 1).finish) ∧
      (x = 0 → 0 < n → exec (.gpow d a b) s = .next (s.setX d 0).finish) ∧
      (x = 0 → n < 0 → exec (.gpow d a b) s = .next (s.takeFault .gfDomain)) ∧
      (x ≠ 0 → n ≠ 0 → exec (.gpow d a b) s =
        .next (s.setX d ((expOf ((logOf x * n) % 15).toNat).setWidth 16)).finish))

/-- The Galois ROM (10_state.md R37, R38) and the field (00_scope.md R15; 41_gf.md R144, R145, R147): multiplication is
that of polynomials modulo x^4 + x + 1, division inverts it, and the third power is the repeated product. The polynomial
basis, the table's generation and the division formula are the spec's from general knowledge (log entry 10). -/
def Obligations.GaloisRomAndFieldLaws : Prop :=
  (List.range 30).map expOf =
    [1, 2, 4, 8, 3, 6, 12, 11, 5, 10, 7, 14, 15, 13, 9, 1, 2, 4, 8, 3, 6, 12, 11, 5, 10, 7, 14, 15, 13, 9] ∧
  ((List.range 15).map fun e => logOf (BitVec.ofNat 4 (e + 1))) = [0, 1, 4, 2, 8, 5, 10, 3, 14, 9, 7, 6, 13, 11, 12] ∧
  (∀ e : Gf, e ≠ 0 → expOf (logOf e) = e) ∧
  (∀ i, i < 30 → logOf (expOf i) = i % 15) ∧
  (∀ a b : Gf, gfMul a b = polyMul a b) ∧
  (∀ a b : Gf, b ≠ 0 → gfMul (gfQuot a b) b = a) ∧
  (∀ a : Gf, gfPow a 3 = .ok (gfMul (gfMul a a) a))

/-! ## The commands: code construction -/

/-- CGENG and CGENH (42_code.md R161, R162): the same matrices from every state, G_HAM, G_BCH, H_HAM and H_BCH of R163 to
R166. A row of G_BCH is systematic and a multiple of g(x) = 1 + x + x^2 + x^4 + x^8. -/
def Obligations.CgengCgenhWriteTheCodeMatrices : Prop :=
  let v : List Nat := [3, 5, 6, 7, 9, 10, 11, 12, 13, 14, 15, 1, 2, 4, 8]
  let g : Vec := [true, true, true, false, true, false, false, false, true]
  (∀ d, encode (.cgeng d .ham) = packWord 0x20 d 0 0 0 ∧ encode (.cgeng d .bch) = packWord 0x20 d 0 0 1 ∧
    encode (.cgenh d .ham) = packWord 0x21 d 0 0 0 ∧ encode (.cgenh d .bch) = packWord 0x21 d 0 0 1) ∧
  ∃ gHam hHam gBch hBch : Mat,
    (∀ (d : Reg) (s : State), exec (.cgeng d .ham) s = .next (s.setM d gHam).finish ∧
      exec (.cgenh d .ham) s = .next (s.setM d hHam).finish ∧
      exec (.cgeng d .bch) s = .next (s.setM d gBch).finish ∧
      exec (.cgenh d .bch) s = .next (s.setM d hBch).finish) ∧
    Mat.HasShape hHam 4 15 ∧ (∀ r, r < 4 → ∀ j, j < 15 → Mat.bit hHam r j = (v.getD j 0).testBit r) ∧
    Mat.HasShape gHam 11 15 ∧ (∀ i, i < 11 → ∀ j, j < 15 → Mat.bit gHam i j =
      if j < 11 then decide (i = j) else (v.getD i 0).testBit (j - 11)) ∧
    Mat.HasShape gBch 7 15 ∧ (∀ i, i < 7 → ∀ j, j < 7 → Mat.bit gBch i j = decide (i = j)) ∧
    (∀ i, i < 7 → ∃ q : Vec, q.length = 7 ∧ ∀ j, j < 15 → Mat.bit gBch i j =
      xorSum 7 (fun k => decide (k ≤ j) && Vec.bit q k && Vec.bit g (j - k))) ∧
    Mat.HasShape hBch 8 15 ∧ (∀ r, r < 8 → ∀ j, j < 15 → Mat.bit hBch r j =
      if j < 7 then Mat.bit gBch j (7 + r) else decide (j = 7 + r))

/-- MBLK (42_code.md R167). -/
def Obligations.MblkReplicatesBlocks : Prop :=
  ∀ (d a : Reg) (l : Nat) (s : State),
    let A := s.getM a
    let R := Mat.nrows A
    let C := Mat.ncols A
    encode (.mblk d a l) = packWord 0x22 d a 0 l ∧
    (s.Inv → R ≠ 0 → 1 ≤ l → l * R ≤ 256 → l * C ≤ 256 →
      ∃ T, exec (.mblk d a l) s = .next (s.setM d T).finish ∧ Mat.HasShape T (l * R) (l * C) ∧
        ∀ b i c, b < l → i < R → c < l * C →
          Mat.bit T (b * R + i) c = (decide (c / C = b) && Mat.bit A i (c % C))) ∧
    (R = 0 ∨ l = 0 ∨ 256 < l * R ∨ 256 < l * C → exec (.mblk d a l) s = .next (s.takeFault .shape))

/-- The generator and the parity-check matrix of either code, replicated L times, are orthogonal (42_code.md R168). -/
def Obligations.BlockCodesAreOrthogonal : Prop :=
  ∀ (fam : Family) (l : Nat), 1 ≤ l →
    Mat.mul (Mat.blockDiagonal (generatorMatrix fam) l) (Mat.transpose (Mat.blockDiagonal (parityMatrix fam) l)) =
      Mat.zeros (l * Mat.nrows (generatorMatrix fam)) (l * Mat.nrows (parityMatrix fam))

/-! ## The commands: key generation -/

/-- The random source (43_keygen.md R180 to R182): the sequence from seed 1 that R180 lists; a draw lies below its range
and advances the source once; 0 is the only state that leads to 0, and every draw from it is 0. The shift triple is
the spec's from general knowledge (log entry 10). -/
def Obligations.RandomSource : Prop :=
  (List.range 5).map (fun k => rngAfter (k + 1) 1) =
    [0x00042021, 0x04080601, 0x9DCCA8C5, 0x1255994F, 0x8EF917D1] ∧
  (∀ (R : Nat) (g : Word), 1 ≤ R → (draw R g).1 < R ∧ (draw R g).2 = xorshift32 g) ∧
  (∀ R : Nat, draw R 0 = (0, 0)) ∧
  (∀ g : Word, xorshift32 g = 0 → g = 0)

/-- KINV with a legal size never faults (43_keygen.md R185): the result is invertible, and RNG_STATE is advanced by two
draws a round, by none for size 1; with KG_ROUNDS = 0 it is the identity. -/
def Obligations.KinvNeverFaults : Prop :=
  ∀ (d : Reg) (n : Nat) (s : State),
    encode (.kinv d n) = packWord 0x30 d 0 0 n ∧
    (1 ≤ n → n ≤ 256 → ∃ T,
      exec (.kinv d n) s =
        .next ((s.setM d T).setRng
          (if n = 1 then s.rng else rngAfter (2 * s.kgRounds.toNat) s.rng)).finish ∧
      Mat.HasShape T n n ∧ Mat.Invertible T n ∧ (s.kgRounds = 0 → T = Mat.identity n)) ∧
    (n = 0 ∨ 256 < n → exec (.kinv d n) s = .next (s.takeFault .shape))

/-- What KINV computes (43_keygen.md R184): KG_ROUNDS times a drawn row is added into another drawn row, from the
identity. -/
def Obligations.KinvAddsDrawnRows : Prop :=
  ∀ (d : Reg) (n : Nat) (s t : State), 2 ≤ n → n ≤ 256 → exec (.kinv d n) s = .next t →
    t.getM d = (List.range s.kgRounds.toNat).foldl
      (fun T k => Mat.addRow T (kinvRows n k s.rng).1 (kinvRows n k s.rng).2) (Mat.identity n)

/-- KPERM (43_keygen.md R187, R188): the matrix of the shuffled indices, orthogonal, after exactly n - 1 draws. The
downward loop is the spec's from general knowledge (log entry 10). -/
def Obligations.KpermIsAPermutation : Prop :=
  ∀ (d : Reg) (n : Nat) (s : State),
    let p := (List.range (n - 1)).foldl
      (fun p k => swapEntries p (n - 1 - k) ((rngAfter (k + 1) s.rng).toNat % (n - k))) (List.range n)
    encode (.kperm d n) = packWord 0x31 d 0 0 n ∧
    (1 ≤ n → n ≤ 256 → ∃ T,
      exec (.kperm d n) s = .next ((s.setM d T).setRng (rngAfter (n - 1) s.rng)).finish ∧
      Mat.HasShape T n n ∧ p.Perm (List.range n) ∧
      (∀ r c, r < n → c < n → Mat.bit T r c = decide (p.getD r 0 = c)) ∧
      Mat.mul T (Mat.transpose T) = Mat.identity n) ∧
    (n = 0 ∨ 256 < n → exec (.kperm d n) s = .next (s.takeFault .shape))

/-! ## The commands: encoder, vectors, noise -/

/-- VMUL (44_encoder.md R201). -/
def Obligations.VmulIsProduct : Prop :=
  ∀ (d a b : Reg) (s : State),
    let v := s.getV a
    let B := s.getM b
    encode (.vmul d a b) = packWord 0x40 d a b 0 ∧
    (v.length ≠ 0 → Mat.nrows B ≠ 0 → v.length = Mat.nrows B →
      ∃ w, exec (.vmul d a b) s = .next (s.setV d w).finish ∧ w.length = Mat.ncols B ∧
        ∀ c, c < Mat.ncols B → Vec.bit w c = xorSum v.length (fun j => Vec.bit v j && Mat.bit B j c)) ∧
    (v.length = 0 ∨ Mat.nrows B = 0 ∨ v.length ≠ Mat.nrows B →
      exec (.vmul d a b) s = .next (s.takeFault .shape))

/-- VXOR (44_encoder.md R204): the coordinate-wise XOR, all-zero exactly when the operands are equal. -/
def Obligations.VxorIsTheSum : Prop :=
  ∀ (d a b : Reg) (s : State),
    let u := s.getV a
    let w := s.getV b
    encode (.vxor d a b) = packWord 0x42 d a b 0 ∧
    (u.length ≠ 0 → w.length ≠ 0 → u.length = w.length →
      ∃ x, exec (.vxor d a b) s = .next (s.setV d x).finish ∧ x.length = u.length ∧
        (∀ j, j < u.length → Vec.bit x j = Bool.xor (Vec.bit u j) (Vec.bit w j)) ∧
        ((∀ j, j < x.length → Vec.bit x j = false) ↔ u = w)) ∧
    (u.length = 0 ∨ w.length = 0 ∨ u.length ≠ w.length → exec (.vxor d a b) s = .next (s.takeFault .shape))

/-- VNOISE (44_encoder.md R206): every block draws u, and is flipped at one drawn position exactly when u < NOISE_P. -/
def Obligations.VnoiseFlipsAtMostOneBitPerBlock : Prop :=
  ∀ (d a : Reg) (n : Nat) (s : State),
    let c := s.getV a
    let p := s.noiseP.toNat
    encode (.vnoise d a n) = packWord 0x43 d a 0 n ∧
    (c.length ≠ 0 → n ≠ 0 → c.length % n = 0 →
      ∃ w, exec (.vnoise d a n) s =
          .next ((s.setV d w).setRng (noiseRng p (c.length / n) s.rng)).finish ∧
        w.length = c.length ∧
        ∀ b, b < c.length / n →
          let g1 := xorshift32 (noiseRng p b s.rng)
          Vec.block n b w =
            if g1.toNat % 65536 < p then Vec.flip (Vec.block n b c) ((xorshift32 g1).toNat % n)
            else Vec.block n b c) ∧
    (c.length = 0 ∨ n = 0 ∨ c.length % n ≠ 0 → exec (.vnoise d a n) s = .next (s.takeFault .shape)) ∧
    (field s.cmd 7 0 = 0x43 → field s.cmd 31 26 ≠ 0 → runCommand s = .next (s.takeFault .illegalCmd))

/-! ## The commands: decoder -/

/-- BSYN (45_decoder.md R221, R223): s1 in bits 3:0 and s3 in bits 7:4. -/
def Obligations.BsynPacksTheSyndromes : Prop :=
  ∀ (d a : Reg) (blk : Nat) (s : State),
    let v := s.getV a
    encode (.bsyn d a blk) = packWord 0x50 d a 0 blk ∧
    (15 * (blk + 1) ≤ v.length → ∃ s1 s3 : Gf,
      exec (.bsyn d a blk) s = .next (s.setX d (BitVec.ofNat 16 (s3.toNat * 16 + s1.toNat))).finish ∧
      s1 = gfSum 15 (fun i => if Vec.bit v (15 * blk + i) then expOf ((14 - i) % 15) else 0) ∧
      s3 = gfSum 15 (fun i => if Vec.bit v (15 * blk + i) then expOf (3 * (14 - i) % 15) else 0)) ∧
    (v.length < 15 * (blk + 1) → exec (.bsyn d a blk) s = .next (s.takeFault .shape))

/-- DHAM (45_decoder.md R224): a block with zero syndrome stays, another is flipped at the smallest column equal to its
syndrome, and stays where no column is. -/
def Obligations.DhamLooksUpTheSyndrome : Prop :=
  ∀ (d a b : Reg) (s : State),
    let c := s.getV a
    let H := s.getM b
    let r := Mat.nrows H
    let n := Mat.ncols H
    encode (.dham d a b) = packWord 0x51 d a b 0 ∧
    (s.Inv → c.length ≠ 0 → r ≠ 0 → c.length % n = 0 →
      ∃ w, exec (.dham d a b) s = .next (s.setV d w).finish ∧ w.length = c.length ∧
        ∀ blk, blk < c.length / n →
          let block := Vec.block n blk c
          let syn := fun i => xorSum n (fun j => Vec.bit block j && Mat.bit H i j)
          let found := fun j => ∀ i, i < r → Mat.bit H i j = syn i
          ((∀ i, i < r → syn i = false) → Vec.block n blk w = block) ∧
          ((∃ i, i < r ∧ syn i = true) →
            (∀ j, j < n → found j → (∀ k, k < j → ¬ found k) → Vec.block n blk w = Vec.flip block j) ∧
            ((∀ j, j < n → ¬ found j) → Vec.block n blk w = block))) ∧
    (c.length = 0 ∨ r = 0 ∨ c.length % n ≠ 0 → exec (.dham d a b) s = .next (s.takeFault .shape))

/-- DBCH (45_decoder.md R222, R225): with s1 = 0 a block stays; with δ = 0 the coordinate 14 - LOG[s1] is flipped;
otherwise exactly the coordinates are flipped whose locator solves 1 + σ1·z + σ2·z² = 0, which are two or none. The
quotient σ2 = δ/s1 is by the division formula of log entry 10. -/
def Obligations.DbchSolvesTheLocator : Prop :=
  ∀ (d a : Reg) (s : State),
    let c := s.getV a
    encode (.dbch d a) = packWord 0x52 d a 0 0 ∧
    (c.length ≠ 0 → c.length % 15 = 0 →
      ∃ w, exec (.dbch d a) s = .next (s.setV d w).finish ∧ w.length = c.length ∧
        ∀ blk, blk < c.length / 15 →
          let r := Vec.block 15 blk c
          let s1 := gfSum 15 (fun i => if Vec.bit r i then expOf ((14 - i) % 15) else 0)
          let s3 := gfSum 15 (fun i => if Vec.bit r i then expOf (3 * (14 - i) % 15) else 0)
          let delta := s3 ^^^ gfMul (gfMul s1 s1) s1
          (s1 = 0 → Vec.block 15 blk w = r) ∧
          (s1 ≠ 0 → delta = 0 → Vec.block 15 blk w = Vec.flip r (14 - logOf s1)) ∧
          (s1 ≠ 0 → delta ≠ 0 → ∀ j, j < 15 →
            let z := expOf ((j + 1) % 15)
            Vec.bit (Vec.block 15 blk w) j = Bool.xor (Vec.bit r j)
              (decide (1 ^^^ gfMul s1 z ^^^ gfMul (gfQuot delta s1) (gfMul z z) = 0)))) ∧
    (c.length = 0 ∨ c.length % 15 ≠ 0 → exec (.dbch d a) s = .next (s.takeFault .shape))

/-- VMSG (45_decoder.md R226). -/
def Obligations.VmsgTakesTheMessageBits : Prop :=
  ∀ (d a : Reg) (n k : Nat) (s : State),
    let c := s.getV a
    encode (.vmsg d a n k) = packWord 0x53 d a 0 (n * 64 + k) ∧
    (c.length ≠ 0 → 1 ≤ k → k ≤ n → c.length % n = 0 →
      ∃ m, exec (.vmsg d a n k) s = .next (s.setV d m).finish ∧ m.length = c.length / n * k ∧
        ∀ b i, b < c.length / n → i < k → Vec.bit m (k * b + i) = Vec.bit c (n * b + i)) ∧
    (c.length = 0 ∨ k = 0 ∨ n < k ∨ c.length % n ≠ 0 →
      exec (.vmsg d a n k) s = .next (s.takeFault .shape))

/-- DHAM with H_HAM corrects one error in every block (42_code.md R168, 45_decoder.md R228): when every block of the
received vector differs from a Hamming codeword in at most one coordinate, DHAM writes the codewords. -/
def Obligations.DhamCorrectsOneErrorPerBlock : Prop :=
  ∀ (d a b : Reg) (s : State) (c : Vec),
    s.getM b = parHamming → (s.getV a).length ≠ 0 → (s.getV a).length % 15 = 0 → c.length = (s.getV a).length →
    (∀ blk, blk < c.length / 15 → ∃ m : Vec, m.length = 11 ∧
      Vec.block 15 blk c = Vec.mulMat m genHamming ∧
      Vec.distance (Vec.block 15 blk (s.getV a)) (Vec.block 15 blk c) ≤ 1) →
    exec (.dham d a b) s = .next (s.setV d c).finish

/-- DBCH corrects two errors in every block (42_code.md R168, 45_decoder.md R225, R228): when every block of the received
vector differs from a BCH codeword in at most two coordinates, DBCH writes the codewords. -/
def Obligations.DbchCorrectsTwoErrorsPerBlock : Prop :=
  ∀ (d a : Reg) (s : State) (c : Vec),
    (s.getV a).length ≠ 0 → (s.getV a).length % 15 = 0 → c.length = (s.getV a).length →
    (∀ blk, blk < c.length / 15 → ∃ m : Vec, m.length = 7 ∧
      Vec.block 15 blk c = Vec.mulMat m genBch ∧
      Vec.distance (Vec.block 15 blk (s.getV a)) (Vec.block 15 blk c) ≤ 2) →
    exec (.dbch d a) s = .next (s.setV d c).finish

/-- Encoding with the public key and decoding without errors gives the message back (45_decoder.md R227, R228; 30_encoding.md
R104): for S with a right inverse S⁻¹, P with P·Pᵗ = I and either code, on the functions the commands compute. -/
def Obligations.DecodingInvertsEncoding : Prop :=
  ∀ (fam : Family) (l : Nat) (S Sinv P : Mat) (m : Vec),
    let k := Mat.nrows (generatorMatrix fam)
    let correct : Vec → Vec := match fam with
      | .ham => hammingCorrect parHamming
      | .bch => bchCorrect
    let gpub := Mat.mul (Mat.mul S (Mat.blockDiagonal (generatorMatrix fam) l)) P
    let received := Vec.mulMat (Vec.mulMat m gpub) (Mat.transpose P)
    let corrected := (Vec.blocks 15 l received).flatMap correct
    let scrambled := (Vec.blocks 15 l corrected).flatMap (List.take k)
    1 ≤ l → Mat.HasShape S (l * k) (l * k) → Mat.HasShape Sinv (l * k) (l * k) →
    Mat.HasShape P (l * 15) (l * 15) → Mat.mul S Sinv = Mat.identity (l * k) →
    Mat.mul P (Mat.transpose P) = Mat.identity (l * 15) → m.length = l * k →
    Vec.mulMat scrambled Sinv = m

/-! ## The register window -/

/-- ID, PARAM and the reserved offsets (10_state.md R41, R42, R58), and what the window shows of ERRCODE (register 8) and
ERRCMD (register 9), 0 while no fault is recorded (R49, R50; what they record is `FirstFaultCapture`), idle or busy. -/
def Obligations.ConstantAndReservedRegisters : Prop :=
  ∀ (s : State) (v : Word) (off : Nat),
    let r := off / 4 % 64
    (r = 0 → mmioRead off s = (0x47460104, s) ∧ mmioWrite off v s = s) ∧
    (r = 1 → mmioRead off s = (0x08880100, s) ∧ mmioWrite off v s = s) ∧
    (r = 8 → mmioRead off s = (BitVec.ofNat 32 s.errcode.toNat, s) ∧ mmioWrite off v s = s) ∧
    (r = 9 → mmioRead off s = (s.errcmd, s) ∧ mmioWrite off v s = s) ∧
    (r = 8 ∨ r = 9 → s.Inv → s.err = false → mmioRead off s = (0, s)) ∧
    ((10 ≤ r ∧ r ≤ 15) ∨ (19 ≤ r ∧ r ≤ 31) ∨ 40 ≤ r → mmioRead off s = (0, s) ∧ mmioWrite off v s = s)

/-- Host accesses while busy (70_reset_and_hazards.md R310, R311): the engine-owned registers are 5, 6, 7, 18 and 32 to
39; CMD is 4, CTRL 2 and STATUS 3. -/
def Obligations.AccessesWhileBusy : Prop :=
  ∀ (s : State) (v : Word) (off : Nat), s.busy = true →
    let r := off / 4 % 64
    let owned := (5 ≤ r ∧ r ≤ 7) ∨ r = 18 ∨ (32 ≤ r ∧ r ≤ 39)
    (r = 4 → mmioWrite off v s = { s with ovr := true }) ∧
    (owned → mmioRead off s = (0, { s with ovr := true }) ∧ mmioWrite off v s = { s with ovr := true }) ∧
    (¬ owned → (mmioRead off s).2 = s ∧
      (r ≠ 3 → (mmioRead off s).1 = (mmioRead off { s with busy := false }).1) ∧
      (r = 3 → (mmioRead off s).1 = s.statusWord) ∧
      (r ≠ 4 → mmioWrite off v s =
        { mmioWrite off v { s with busy := false } with busy := !(decide (r = 2) && v.getLsbD 31) }))

/-- The address of an access (20_memory.md R70): only off[7:2] matters. Reads have no side effect but OVR while busy
(R76). -/
def Obligations.HostAccessAddressing : Prop :=
  ∀ (s : State) (v : Word) (off : Nat),
    mmioRead off s = mmioRead (4 * (off / 4 % 64)) s ∧ mmioWrite off v s = mmioWrite (4 * (off / 4 % 64)) v s ∧
    (mmioRead off s).2 = { s with ovr := (mmioRead off s).2.ovr } ∧
    (s.busy = false → (mmioRead off s).2 = s) ∧ mmioRead off (mmioRead off s).2 = mmioRead off s

/-- Reset (10_state.md R61; 70_reset_and_hazards.md R300, R301): by a CTRL write with bit 31 set or by the reset input,
idle or busy, every element takes its reset value, and `State.reset` is that state with nothing sent or read yet. -/
def Obligations.ResetValues : Prop :=
  ∀ (s : State) (v : Word) (off : Nat), off / 4 % 64 = 2 → v.getLsbD 31 = true →
    ∃ t : State, mmioWrite off v s = t ∧ handleEvent .hardReset s = .next t ∧
      (∀ j, t.getM j = [] ∧ t.getV j = [] ∧ t.getX j = 0) ∧
      t.busy = false ∧ t.done = false ∧ t.err = false ∧ t.ovr = false ∧
      t.ieDone = false ∧ t.ieErr = false ∧ t.cmd = 0 ∧ t.noiseP = 0x8000 ∧ t.kgRounds = 64 ∧ t.rng = 1 ∧
      t.errcode = 0 ∧ t.errcmd = 0 ∧ t.selIndex = 0 ∧ t.selKind = .matrix ∧ t.row = 0 ∧
      t.irq = false ∧
      State.reset = { t with bus := [], lastRead := none }

/-- The parameter and selection registers take the fields of the word written, read them back, and a write changes nothing
else; KIND 0, 1, 2, 3 selects a matrix, a vector, a scalar, none (10_state.md R43, R46, R47, R48, R51, R52). NOISE_P, KG_ROUNDS and RNG_STATE are idle accesses; CTRL, SEL and ROW any. -/
def Obligations.ParameterRegistersReadBack : Prop :=
  ∀ (s : State) (v : Word),
    let kind := v.toNat / 16 % 4
    (s.busy = false →
      (mmioRead 0x14 (mmioWrite 0x14 v s)).1.toNat = min (v.toNat % 2 ^ 17) 65536 ∧
      mmioWrite 0x14 v s = { s with noiseP := BitVec.ofNat 17 (min (v.toNat % 2 ^ 17) 65536) } ∧
      (mmioRead 0x18 (mmioWrite 0x18 v s)).1.toNat = v.toNat % 2 ^ 16 ∧
      mmioWrite 0x18 v s = { s with kgRounds := BitVec.ofNat 16 (v.toNat % 2 ^ 16) } ∧
      (mmioRead 0x1C (mmioWrite 0x1C v s)).1 = v ∧ mmioWrite 0x1C v s = { s with rng := v }) ∧
    (v.getLsbD 31 = false →
      (mmioRead 0x08 (mmioWrite 0x08 v s)).1.toNat = v.toNat % 4 ∧
      mmioWrite 0x08 v s = { s with ieDone := v.getLsbD 0, ieErr := v.getLsbD 1 }) ∧
    (mmioRead 0x40 (mmioWrite 0x40 v s)).1.toNat = v.toNat % 8 + kind * 16 ∧
    mmioWrite 0x40 v s =
      { s with
        selIndex := Fin.ofNat 8 (v.toNat % 8)
        selKind :=
          if kind = 0 then .matrix else if kind = 1 then .vector else if kind = 2 then .scalar else .unselected } ∧
    (mmioRead 0x44 (mmioWrite 0x44 v s)).1.toNat = v.toNat % 512 ∧
    mmioWrite 0x44 v s = { s with row := BitVec.ofNat 9 (v.toNat % 512) }

/-- DIM (10_state.md R53), while idle. -/
def Obligations.DimReadsAndSetsTheShape : Prop :=
  ∀ (s : State) (v : Word), s.busy = false → s.Inv →
    let i := s.selIndex
    let R := v.toNat / 2 ^ 16 % 512
    let C := v.toNat % 512
    (s.selKind = .matrix →
      (mmioRead 0x48 s).1.toNat = Mat.nrows (s.getM i) * 2 ^ 16 + Mat.ncols (s.getM i) ∧
      (256 < R ∨ 256 < C → mmioWrite 0x48 v s = s) ∧
      (R ≤ 256 → C ≤ 256 → R = 0 ∨ C = 0 → mmioWrite 0x48 v s = s.setM i []) ∧
      (1 ≤ R → R ≤ 256 → 1 ≤ C → C ≤ 256 → ∃ Z, mmioWrite 0x48 v s = s.setM i Z ∧ Mat.HasShape Z R C ∧
        ∀ r c, Mat.bit Z r c = false)) ∧
    (s.selKind = .vector →
      (mmioRead 0x48 s).1.toNat = (s.getV i).length ∧
      (256 < C → mmioWrite 0x48 v s = s) ∧
      (C ≤ 256 → ∃ z, mmioWrite 0x48 v s = s.setV i z ∧ z.length = C ∧ ∀ j, Vec.bit z j = false)) ∧
    (s.selKind = .scalar ∨ s.selKind = .unselected → (mmioRead 0x48 s).1 = 0 ∧ mmioWrite 0x48 v s = s)

/-- DATA0..DATA7 of a matrix (10_state.md R55), while idle. -/
def Obligations.DataWindowOfAMatrix : Prop :=
  ∀ (s : State) (v : Word) (w : Nat), s.busy = false → s.Inv → s.selKind = .matrix → w < 8 →
    let i := s.selIndex
    let M := s.getM i
    let row := s.row.toNat
    (∀ b, b < 32 → (mmioRead (0x80 + 4 * w) s).1.getLsbD b =
      (decide (row < Mat.nrows M) && decide (32 * w + b < Mat.ncols M) && Mat.bit M row (32 * w + b))) ∧
    (∃ M', mmioWrite (0x80 + 4 * w) v s = s.setM i M' ∧ Mat.HasShape M' (Mat.nrows M) (Mat.ncols M) ∧
      ∀ r c, r < Mat.nrows M → c < Mat.ncols M →
        Mat.bit M' r c = if r = row ∧ c / 32 = w then v.getLsbD (c % 32) else Mat.bit M r c) ∧
    (Mat.nrows M ≤ row → mmioWrite (0x80 + 4 * w) v s = s)

/-- DATA0..DATA7 of a vector, of a scalar and with nothing selected (10_state.md R54, R56, R57), while idle. -/
def Obligations.DataWindowOfAVectorOrScalar : Prop :=
  ∀ (s : State) (v : Word) (w : Nat), s.busy = false → w < 8 →
    let i := s.selIndex
    (s.selKind = .vector →
      (∀ b, b < 32 → (mmioRead (0x80 + 4 * w) s).1.getLsbD b =
        (decide (32 * w + b < (s.getV i).length) && Vec.bit (s.getV i) (32 * w + b))) ∧
      ∃ u, mmioWrite (0x80 + 4 * w) v s = s.setV i u ∧ u.length = (s.getV i).length ∧
        ∀ e, e < (s.getV i).length →
          Vec.bit u e = if e / 32 = w then v.getLsbD (e % 32) else Vec.bit (s.getV i) e) ∧
    (s.selKind = .scalar →
      (w = 0 → (mmioRead 0x80 s).1.toNat = (s.getX i).toNat ∧
        mmioWrite 0x80 v s = s.setX i (BitVec.ofNat 16 (v.toNat % 2 ^ 16))) ∧
      (w ≠ 0 → (mmioRead (0x80 + 4 * w) s).1 = 0 ∧ mmioWrite (0x80 + 4 * w) v s = s)) ∧
    (s.selKind = .unselected → (mmioRead (0x80 + 4 * w) s).1 = 0 ∧ mmioWrite (0x80 + 4 * w) v s = s)

/-! ## The whole machine -/

/-- A command is one atomic step (20_memory.md R79; 46_system.md R253; 70_reset_and_hazards.md R310): whatever the host reads
and writes while the command runs, short of a reset, its word, its operands, its parameters and the random source
stay, and it completes with the same registers as without those accesses. -/
def Obligations.HostCannotDisturbACommand : Prop :=
  ∀ (events : List Event) (s : State), s.busy = true → (∀ e ∈ events, e.hostAccess) →
    ∃ t, runEvents events s = some t ∧
      t.busy = true ∧ t.cmd = s.cmd ∧ t.noiseP = s.noiseP ∧ t.kgRounds = s.kgRounds ∧ t.rng = s.rng ∧ SameRegisters s t ∧
      ∃ u v, engineCompletes s = .next u ∧ engineCompletes t = .next v ∧ SameRegisters u v ∧ v.rng = u.rng

/-- Every step keeps the invariant: registers of legal shape, NOISE_P in range, a legal cause code, ERRCODE and ERRCMD
clear when ERR is, never BUSY and DONE together (10_state.md R31 to R33, R46, R49, R50; 46_system.md R250, R251;
60_exceptions.md R261). -/
def Obligations.StepKeepsInvariant : Prop :=
  ∀ s t : State, s.Inv → step s = .next t → t.Inv

/-- The state after reset meets the invariant. -/
def Obligations.ResetMeetsInvariant : Prop := State.reset.Inv

/-- The pseudo-commands (30_encoding.md R104): their expansions, the refusals, and the products PKEY and UNPERM compute. -/
def Obligations.PseudoCommandsExpand : Prop :=
  (∀ d x g p : Reg, assembleCommand "PKEY" [.m d, .m x, .m g, .m p] =
    if d = p then .error .registersMustDiffer else .ok [.mmul d x g, .mmul d d p]) ∧
  (∀ d a g : Reg, assembleCommand "ENCODE" [.v d, .v a, .m g] = .ok [.vmul d a g]) ∧
  (∀ d a p t : Reg, assembleCommand "UNPERM" [.v d, .v a, .m p, .m t] =
    if t = p then .error .registersMustDiffer else .ok [.mtrn t p, .vmul d a t]) ∧
  (∀ d a h t : Reg, t ≠ h →
    assembleCommand "HSYN" [.v d, .v a, .m h, .m t] = .ok [.mtrn t h, .vmul d a t]) ∧
  (∀ d a b : Reg, assembleCommand "VCMP" [.v d, .v a, .v b] = .ok [.vxor d a b]) ∧
  (∀ (d x g p : Reg) (s : State), s.Inv → d ≠ p → Mat.nrows (s.getM x) ≠ 0 → Mat.nrows (s.getM g) ≠ 0 →
    Mat.nrows (s.getM p) ≠ 0 → Mat.ncols (s.getM x) = Mat.nrows (s.getM g) →
    Mat.ncols (s.getM g) = Mat.nrows (s.getM p) →
    ∃ t u, exec (.mmul d x g) s = .next t ∧ exec (.mmul d d p) t = .next u ∧
      u.getM d = Mat.mul (Mat.mul (s.getM x) (s.getM g)) (s.getM p) ∧ u.err = s.err) ∧
  (∀ (d a p t : Reg) (s : State), s.Inv → t ≠ p → Mat.nrows (s.getM p) ≠ 0 →
    (s.getV a).length = Mat.ncols (s.getM p) →
    ∃ u w, exec (.mtrn t p) s = .next u ∧ exec (.vmul d a t) u = .next w ∧
      w.getV d = Vec.mulMat (s.getV a) (Mat.transpose (s.getM p)) ∧ w.err = s.err)
end

