-- ==== Sys2Proof/Laws/Bits.lean ====
section
/-!
SUPPORT. GF(2) vectors and matrices: lengths, shapes and bits of every operation of Machine/Bits.lean.
-/

namespace Sys2Proof.Machine

/-! ## Vectors -/

@[simp] theorem Vec.length_zero (n : Nat) : (Vec.zero n).length = n := by simp [Vec.zero]

@[simp] theorem Vec.length_unit (n p : Nat) : (Vec.unit n p).length = n := by simp [Vec.unit]

@[simp] theorem Vec.length_flip (v : Vec) (p : Nat) : (Vec.flip v p).length = v.length := by simp [Vec.flip]

@[simp] theorem Vec.length_xor (u w : Vec) : (Vec.xor u w).length = min u.length w.length := by
  simp [Vec.xor]

theorem Vec.bit_of_lt (v : Vec) (j : Nat) (h : j < v.length) : Vec.bit v j = v[j] := by
  simp [Vec.bit, h]

theorem Vec.bit_of_le (v : Vec) (j : Nat) (h : v.length ≤ j) : Vec.bit v j = false := by
  simp [Vec.bit, h]

/-- Two vectors of one length with the same bits are equal. -/
theorem Vec.ext_bit {u w : Vec} (hl : u.length = w.length)
    (hb : ∀ j, j < u.length → Vec.bit u j = Vec.bit w j) : u = w := by
  refine List.ext_getElem hl fun j h1 h2 => ?_
  rw [← Vec.bit_of_lt u j h1, ← Vec.bit_of_lt w j h2]
  exact hb j h1

theorem Vec.bit_zero (n j : Nat) : Vec.bit (Vec.zero n) j = false := by
  rcases Nat.lt_or_ge j n with h | h
  · simp [Vec.bit, Vec.zero, h]
  · exact Vec.bit_of_le _ _ (by simpa using h)

theorem Vec.bit_unit (n p j : Nat) : Vec.bit (Vec.unit n p) j = (decide (j < n) && decide (j = p)) := by
  rcases Nat.lt_or_ge j n with h | h
  · simp [Vec.bit, Vec.unit, h]
  · rw [Vec.bit_of_le _ _ (by simpa using h)]
    simp [Nat.not_lt.mpr h]

theorem Vec.bit_xor (u w : Vec) (hl : u.length = w.length) (j : Nat) :
    Vec.bit (Vec.xor u w) j = Bool.xor (Vec.bit u j) (Vec.bit w j) := by
  rcases Nat.lt_or_ge j u.length with h | h
  · have hw : j < w.length := hl ▸ h
    rw [Vec.bit_of_lt _ _ (by simp [h, hw]), Vec.bit_of_lt _ _ h, Vec.bit_of_lt _ _ hw]
    simp [Vec.xor]
  · rw [Vec.bit_of_le _ _ (by simp; omega), Vec.bit_of_le _ _ h, Vec.bit_of_le _ _ (hl ▸ h)]
    rfl

theorem Vec.bit_flip (v : Vec) (p j : Nat) :
    Vec.bit (Vec.flip v p) j = if p = j ∧ j < v.length then !Vec.bit v j else Vec.bit v j := by
  rcases Nat.lt_or_ge j v.length with h | h
  · rw [Vec.bit_of_lt _ _ (by simpa using h), Vec.bit_of_lt _ _ h]
    simp [Vec.flip, List.getElem_modify, h]
  · rw [Vec.bit_of_le _ _ (by simpa using h), Vec.bit_of_le _ _ h]
    simp [Nat.not_lt.mpr h]

/-- A flip is the sum with the unit vector at that position. -/
theorem Vec.flip_eq_xor_unit (v : Vec) (p : Nat) : Vec.flip v p = Vec.xor v (Vec.unit v.length p) := by
  refine Vec.ext_bit (by simp) fun j hj => ?_
  have hj' : j < v.length := by simpa using hj
  rw [Vec.bit_flip, Vec.bit_xor _ _ (by simp), Vec.bit_unit]
  by_cases hp : p = j
  · simp [hp, hj']
  · simp [hp, Ne.symm hp]

/-! ## Sums over GF(2) -/

@[simp] theorem xorSum_zero (f : Nat → Bool) : xorSum 0 f = false := rfl

theorem xorSum_succ (n : Nat) (f : Nat → Bool) : xorSum (n + 1) f = Bool.xor (xorSum n f) (f n) := by
  simp [xorSum, List.range_succ]

theorem xorSum_congr {n : Nat} {f g : Nat → Bool} (h : ∀ j, j < n → f j = g j) : xorSum n f = xorSum n g := by
  induction n with
  | zero => rfl
  | succ n ih => rw [xorSum_succ, xorSum_succ, ih fun j hj => h j (by omega), h n (by omega)]

theorem xorSum_false (n : Nat) : xorSum n (fun _ => false) = false := by
  induction n with
  | zero => rfl
  | succ n ih => rw [xorSum_succ, ih]; rfl

/-- Sums over GF(2) add. -/
theorem xorSum_xor (n : Nat) (f g : Nat → Bool) :
    xorSum n (fun j => Bool.xor (f j) (g j)) = Bool.xor (xorSum n f) (xorSum n g) := by
  induction n with
  | zero => rfl
  | succ n ih =>
    simp only [xorSum_succ, ih]
    cases xorSum n f <;> cases xorSum n g <;> cases f n <;> cases g n <;> rfl

/-- The sum of a function with one nonzero place. -/
theorem xorSum_single (n p : Nat) (b : Bool) (hp : p < n) :
    xorSum n (fun j => decide (j = p) && b) = b := by
  induction n with
  | zero => omega
  | succ n ih =>
    rw [xorSum_succ]
    rcases Nat.lt_or_ge p n with h | h
    · rw [ih h]; simp [show ¬ n = p by omega]
    · have : p = n := by omega
      subst this
      rw [xorSum_congr (g := fun _ => false) fun j hj => by simp [show ¬ j = p by omega], xorSum_false]
      simp

/-- A sum of sums may be taken in either order. -/
theorem xorSum_comm (m n : Nat) (f : Nat → Nat → Bool) :
    xorSum m (fun i => xorSum n (f i)) = xorSum n (fun j => xorSum m fun i => f i j) := by
  induction m with
  | zero => simp [xorSum_false]
  | succ m ih =>
    rw [xorSum_succ, ih, ← xorSum_xor]
    exact xorSum_congr fun j _ => (xorSum_succ m _).symm

theorem xorSum_and_left (n : Nat) (b : Bool) (f : Nat → Bool) :
    xorSum n (fun j => b && f j) = (b && xorSum n f) := by
  cases b <;> simp [xorSum_false]

theorem xorSum_and_right (n : Nat) (b : Bool) (f : Nat → Bool) :
    xorSum n (fun j => f j && b) = (xorSum n f && b) := by
  cases b <;> simp [xorSum_false]

/-- The dot product is the sum of the products of the bits (00_scope.md R17). -/
theorem Vec.dot_eq_xorSum (u w : Vec) (hl : u.length = w.length) :
    Vec.dot u w = xorSum u.length (fun j => Vec.bit u j && Vec.bit w j) := by
  have aux : ∀ (u w : Vec) (acc : Bool), u.length = w.length →
      (List.zipWith Bool.and u w).foldl Bool.xor acc
        = Bool.xor acc (xorSum u.length (fun j => Vec.bit u j && Vec.bit w j)) := by
    intro u
    induction u using List.reverseRecOn with
    | nil => intro w acc h; simp
    | append_singleton u a ih =>
      intro w acc h
      obtain ⟨w', b, rfl⟩ : ∃ w' b, w = w' ++ [b] := by
        rcases List.eq_nil_or_concat w with rfl | ⟨w', b, rfl⟩
        · simp at h
        · exact ⟨w', b, by simp⟩
      have h' : u.length = w'.length := by simpa using h
      rw [List.zipWith_append h', List.foldl_append, ih w' acc h']
      have e : (u ++ [a]).length = u.length + 1 := by simp
      rw [e, xorSum_succ]
      have c : xorSum u.length (fun j => Vec.bit (u ++ [a]) j && Vec.bit (w' ++ [b]) j)
          = xorSum u.length (fun j => Vec.bit u j && Vec.bit w' j) := by
        refine xorSum_congr fun j hj => ?_
        simp [Vec.bit, List.getElem?_append, hj, h' ▸ hj]
      rw [c]
      have ha : Vec.bit (u ++ [a]) u.length = a := by simp [Vec.bit]
      have hb : Vec.bit (w' ++ [b]) u.length = b := by simp [Vec.bit, h']
      rw [ha, hb]
      simp
  simpa [Vec.dot] using aux u w false hl

/-! ## Shapes -/

theorem Mat.HasShape.length_row {A : Mat} {R C : Nat} (h : Mat.HasShape A R C) {r : Nat} (hr : r < R) :
    (Mat.row A r).length = C := by
  have : r < A.length := h.1 ▸ hr
  simp only [Mat.row, List.getD_eq_getElem?_getD, List.getElem?_eq_getElem this, Option.getD_some]
  exact h.2 _ (List.getElem_mem this)

theorem Mat.HasShape.nrows {A : Mat} {R C : Nat} (h : Mat.HasShape A R C) : Mat.nrows A = R := h.1

theorem Mat.HasShape.ncols {A : Mat} {R C : Nat} (h : Mat.HasShape A R C) (hR : 0 < R) : Mat.ncols A = C := by
  cases A with
  | nil => have := h.1; simp at this; omega
  | cons a A => exact h.2 a (by simp)

/-- A legal matrix register has the shape it reports. -/
theorem Mat.WF.hasShape {A : Mat} (h : Mat.WF A) : Mat.HasShape A (Mat.nrows A) (Mat.ncols A) :=
  ⟨rfl, h.2.2.1⟩

/-- A matrix of a nonempty shape within DMAX is a legal register. -/
theorem Mat.HasShape.wf {A : Mat} {R C : Nat} (h : Mat.HasShape A R C) (hR : 0 < R) (hC : 0 < C)
    (hR' : R ≤ Config.dmax) (hC' : C ≤ Config.dmax) : Mat.WF A := by
  have hc := h.ncols hR
  refine ⟨by rw [h.nrows]; exact hR', by rw [hc]; exact hC', fun row hrow => by rw [hc]; exact h.2 row hrow, ?_⟩
  rw [hc, h.nrows]
  omega

@[simp] theorem Mat.wf_nil : Mat.WF [] := by simp [Mat.WF, Mat.nrows, Mat.ncols]

/-- An empty register is the empty list (10_state.md R32). -/
theorem Mat.nrows_eq_zero {A : Mat} : Mat.nrows A = 0 ↔ A = [] := List.length_eq_zero_iff

/-- Two matrices of one shape with the same bits are equal. -/
theorem Mat.ext_bit {A B : Mat} {R C : Nat} (hA : Mat.HasShape A R C) (hB : Mat.HasShape B R C)
    (h : ∀ r c, r < R → c < C → Mat.bit A r c = Mat.bit B r c) : A = B := by
  refine List.ext_getElem (hA.1.trans hB.1.symm) fun r h1 h2 => ?_
  have hr : r < R := hA.1 ▸ h1
  have ea : A[r] = Mat.row A r := by simp [Mat.row, h1]
  have eb : B[r] = Mat.row B r := by simp [Mat.row, h2]
  rw [ea, eb]
  refine Vec.ext_bit ((hA.length_row hr).trans (hB.length_row hr).symm) fun c hc => ?_
  exact h r c hr (hA.length_row hr ▸ hc)

theorem Mat.shape_zeros (R C : Nat) : Mat.HasShape (Mat.zeros R C) R C := by
  refine ⟨by simp [Mat.zeros], fun row hrow => ?_⟩
  rw [List.eq_of_mem_replicate hrow]
  simp

theorem Mat.shape_identity (n : Nat) : Mat.HasShape (Mat.identity n) n n := by
  refine ⟨by simp [Mat.identity], fun row hrow => ?_⟩
  simp only [Mat.identity, List.mem_map] at hrow
  obtain ⟨r, -, rfl⟩ := hrow
  simp

theorem Mat.shape_transpose {A : Mat} {R C : Nat} (h : Mat.HasShape A R C) (hR : 0 < R) :
    Mat.HasShape (Mat.transpose A) C R := by
  refine ⟨by simp [Mat.transpose, h.ncols hR], fun row hrow => ?_⟩
  simp only [Mat.transpose, List.mem_map] at hrow
  obtain ⟨c, -, rfl⟩ := hrow
  simp [Mat.column, h.1]

theorem Vec.length_mulMat (v : Vec) (B : Mat) : (Vec.mulMat v B).length = Mat.ncols B := by
  simp [Vec.mulMat, Mat.transpose]

theorem Mat.shape_mul (A B : Mat) : Mat.HasShape (Mat.mul A B) (Mat.nrows A) (Mat.ncols B) := by
  refine ⟨by simp [Mat.mul, Mat.nrows], fun row hrow => ?_⟩
  simp only [Mat.mul, List.mem_map] at hrow
  obtain ⟨r, -, rfl⟩ := hrow
  exact Vec.length_mulMat _ _

theorem Mat.shape_blockDiagonal {A : Mat} {R C : Nat} (h : Mat.HasShape A R C) (hR : 0 < R) (L : Nat) :
    Mat.HasShape (Mat.blockDiagonal A L) (L * R) (L * C) := by
  constructor
  · simp [Mat.blockDiagonal, List.length_flatMap, h.1]
  · intro row hrow
    simp only [Mat.blockDiagonal, List.mem_flatMap, List.mem_range, List.mem_map] at hrow
    obtain ⟨b, hb, r, hr, rfl⟩ := hrow
    simp only [List.length_append, Vec.length_zero, h.2 r hr, h.ncols hR]
    obtain ⟨k, rfl⟩ : ∃ k, L = b + 1 + k := ⟨L - (b + 1), by omega⟩
    rw [show b + 1 + k - 1 - b = k by omega]
    ring

theorem Mat.shape_set {A : Mat} {R C : Nat} (h : Mat.HasShape A R C) (r : Nat) {v : Vec} (hv : v.length = C) :
    Mat.HasShape (A.set r v) R C := by
  refine ⟨by simpa using h.1, fun row hrow => ?_⟩
  rcases List.mem_or_eq_of_mem_set hrow with hm | rfl
  · exact h.2 row hm
  · exact hv

theorem Mat.shape_addRow {A : Mat} {R C : Nat} (h : Mat.HasShape A R C) {dst src : Nat} (hd : dst < R)
    (hs : src < R) : Mat.HasShape (Mat.addRow A dst src) R C :=
  Mat.shape_set h dst (by simp [h.length_row hd, h.length_row hs])

theorem Mat.shape_swapRows {A : Mat} {R C : Nat} (h : Mat.HasShape A R C) {r c : Nat} (hr : r < R)
    (hc : c < R) : Mat.HasShape (Mat.swapRows A r c) R C :=
  Mat.shape_set (Mat.shape_set h r (h.length_row hc)) c (h.length_row hr)

/-! ## Bits -/

theorem Mat.bit_zeros (R C r c : Nat) : Mat.bit (Mat.zeros R C) r c = false := by
  rcases Nat.lt_or_ge r R with h | h
  · simp [Mat.bit, Mat.row, Mat.zeros, h, Vec.bit_zero]
  · simp [Mat.bit, Mat.row, Mat.zeros, Nat.not_lt.mpr h, Vec.bit]

theorem Mat.row_identity {n r : Nat} (h : r < n) : Mat.row (Mat.identity n) r = Vec.unit n r := by
  simp [Mat.row, Mat.identity, h]

theorem Mat.bit_identity {n r c : Nat} (hr : r < n) (hc : c < n) :
    Mat.bit (Mat.identity n) r c = decide (r = c) := by
  rw [Mat.bit, Mat.row_identity hr, Vec.bit_unit]
  simp [hc, eq_comm]

theorem Mat.bit_column (A : Mat) (r c : Nat) : Vec.bit (Mat.column A c) r = Mat.bit A r c := by
  rcases Nat.lt_or_ge r A.length with h | h
  · simp [Mat.column, Vec.bit, Mat.bit, Mat.row, h]
  · simp [Mat.column, Vec.bit, Mat.bit, Mat.row, Nat.not_lt.mpr h]

theorem Mat.row_transpose (A : Mat) {c : Nat} (h : c < Mat.ncols A) :
    Mat.row (Mat.transpose A) c = Mat.column A c := by
  simp [Mat.row, Mat.transpose, h]

theorem Mat.bit_transpose (A : Mat) {r c : Nat} (h : c < Mat.ncols A) :
    Mat.bit (Mat.transpose A) c r = Mat.bit A r c := by
  rw [Mat.bit, Mat.row_transpose A h, Mat.bit_column]

/-- `(v·B)[c]` is the sum of the products of the bits (00_scope.md R18). -/
theorem Vec.bit_mulMat (v : Vec) (B : Mat) (hl : v.length = Mat.nrows B) {c : Nat} (hc : c < Mat.ncols B) :
    Vec.bit (Vec.mulMat v B) c = xorSum v.length (fun j => Vec.bit v j && Mat.bit B j c) := by
  have h1 : Vec.bit (Vec.mulMat v B) c = Vec.dot v (Mat.column B c) := by
    simp [Vec.bit, Vec.mulMat, Mat.transpose, hc]
  rw [h1, Vec.dot_eq_xorSum _ _ (by simpa [Mat.column, Mat.nrows] using hl)]
  exact xorSum_congr fun j _ => by rw [Mat.bit_column]

theorem Mat.row_mul (A B : Mat) {r : Nat} (hr : r < Mat.nrows A) :
    Mat.row (Mat.mul A B) r = Vec.mulMat (Mat.row A r) B := by
  have : r < A.length := hr
  simp [Mat.row, Mat.mul, this]

/-- `(A·B)[r][c]` is the sum of the products of the bits (00_scope.md R17). -/
theorem Mat.bit_mul {A B : Mat} {R J C : Nat} (hA : Mat.HasShape A R J) (hB : Mat.HasShape B J C) (hJ : 0 < J)
    {r c : Nat} (hr : r < R) (hc : c < C) :
    Mat.bit (Mat.mul A B) r c = xorSum J (fun j => Mat.bit A r j && Mat.bit B j c) := by
  rw [Mat.bit, Mat.row_mul A B (hA.nrows ▸ hr),
    Vec.bit_mulMat _ _ ((hA.length_row hr).trans hB.nrows.symm) (hB.ncols hJ ▸ hc), hA.length_row hr]
  rfl

/-! ## Blocks -/

theorem Vec.length_blocks (n count : Nat) (v : Vec) : (Vec.blocks n count v).length = count := by
  induction count generalizing v with
  | zero => rfl
  | succ count ih => simp [Vec.blocks, ih]

/-- Every block has n coordinates when the vector has count * n of them. -/
theorem Vec.length_of_mem_blocks {n count : Nat} {v block : Vec} (hl : v.length = count * n)
    (h : block ∈ Vec.blocks n count v) : block.length = n := by
  induction count generalizing v with
  | zero => simp [Vec.blocks] at h
  | succ count ih =>
    have hl' : v.length = count * n + n := by rw [hl]; ring
    rcases List.mem_cons.mp h with rfl | h
    · simp; omega
    · exact ih (by simp; omega) h

/-- The blocks put together again are the vector. -/
theorem Vec.flatten_blocks {n count : Nat} {v : Vec} (hl : v.length = count * n) :
    (Vec.blocks n count v).flatten = v := by
  induction count generalizing v with
  | zero => simp [Vec.blocks]; simpa using hl
  | succ count ih =>
    have hl' : v.length = count * n + n := by rw [hl]; ring
    simp [Vec.blocks, ih (v := v.drop n) (by simp; omega)]

/-- Block b is coordinates n*b .. n*b + n - 1 (44_encoder.md R205). -/
theorem Vec.getElem_blocks (n count : Nat) (v : Vec) (b : Nat) (hb : b < (Vec.blocks n count v).length) :
    (Vec.blocks n count v)[b] = Vec.block n b v := by
  induction count generalizing v b with
  | zero => simp [Vec.blocks] at hb
  | succ count ih =>
    cases b with
    | zero => simp [Vec.blocks, Vec.block]
    | succ b =>
      simp only [Vec.blocks, List.getElem_cons_succ]
      rw [ih, Vec.block, Vec.block, List.drop_drop]
      congr 2
      ring

/-- A block-by-block map that gives k coordinates for every block of n. -/
theorem Vec.length_flatMap_blocks {n k count : Nat} {v : Vec} {f : Vec → Vec} (hl : v.length = count * n)
    (hf : ∀ block : Vec, block.length = n → (f block).length = k) :
    ((Vec.blocks n count v).flatMap f).length = count * k := by
  induction count generalizing v with
  | zero => simp [Vec.blocks]
  | succ count ih =>
    have hl' : v.length = count * n + n := by rw [hl]; ring
    simp only [Vec.blocks, List.flatMap_cons, List.length_append]
    rw [hf _ (by simp; omega), ih (by simp; omega)]
    ring

end Sys2Proof.Machine
end

