-- ==== Sys2Proof/Laws/Encode.lean ====
section
/-!
SUPPORT. The fields of an assembled command word, each said once (30_encoding.md R91).
-/

namespace Sys2Proof

/-- The operands of a command word fit their fields. -/
structure PackFits (opc rd ra rb imm : Nat) : Prop where
  opc : opc < 256
  rd : rd < 8
  ra : ra < 8
  rb : rb < 8
  imm : imm < 4096

theorem PackFits.toNat {opc rd ra rb imm : Nat} (h : PackFits opc rd ra rb imm) :
    (packWord opc rd ra rb imm).toNat = imm * 2 ^ 20 + rb * 2 ^ 16 + ra * 2 ^ 12 + rd * 2 ^ 8 + opc := by
  have := h.opc; have := h.rd; have := h.ra; have := h.rb; have := h.imm
  rw [packWord, BitVec.toNat_ofNat]
  omega

theorem PackFits.field_opc {opc rd ra rb imm : Nat} (h : PackFits opc rd ra rb imm) :
    field (packWord opc rd ra rb imm) 7 0 = opc := by
  have := h.opc
  rw [field, h.toNat]
  omega

theorem PackFits.field_rd {opc rd ra rb imm : Nat} (h : PackFits opc rd ra rb imm) :
    field (packWord opc rd ra rb imm) 10 8 = rd := by
  have := h.opc; have := h.rd
  rw [field, h.toNat]
  omega

theorem PackFits.field_ra {opc rd ra rb imm : Nat} (h : PackFits opc rd ra rb imm) :
    field (packWord opc rd ra rb imm) 14 12 = ra := by
  have := h.opc; have := h.rd; have := h.ra
  rw [field, h.toNat]
  omega

theorem PackFits.field_rb {opc rd ra rb imm : Nat} (h : PackFits opc rd ra rb imm) :
    field (packWord opc rd ra rb imm) 18 16 = rb := by
  have := h.opc; have := h.rd; have := h.ra; have := h.rb
  rw [field, h.toNat]
  omega

theorem PackFits.field_imm {opc rd ra rb imm : Nat} (h : PackFits opc rd ra rb imm) :
    field (packWord opc rd ra rb imm) 31 20 = imm := by
  have := h.opc; have := h.rd; have := h.ra; have := h.rb; have := h.imm
  rw [field, h.toNat]
  omega

/-- Bits 11, 15 and 19 of an assembled word are 0. -/
theorem PackFits.reserved {opc rd ra rb imm : Nat} (h : PackFits opc rd ra rb imm) :
    field (packWord opc rd ra rb imm) 11 11 = 0 ∧ field (packWord opc rd ra rb imm) 15 15 = 0 ∧
      field (packWord opc rd ra rb imm) 19 19 = 0 := by
  have := h.opc; have := h.rd; have := h.ra; have := h.rb; have := h.imm
  simp only [field, h.toNat]
  omega

end Sys2Proof
end

