-- ==== Sys2Proof/Laws/State.lean ====
section
/-!
SUPPORT. One lemma per field per named update of State, so that no later proof unfolds a record update.
-/

namespace Sys2Proof.Machine

/-! ## setM -/

@[simp] theorem State.setM_mreg (s : State) (i : Reg) (A : Mat) : (s.setM i A).mreg = s.mreg.set i A := rfl
@[simp] theorem State.setM_vreg (s : State) (i : Reg) (A : Mat) : (s.setM i A).vreg = s.vreg := rfl
@[simp] theorem State.setM_xreg (s : State) (i : Reg) (A : Mat) : (s.setM i A).xreg = s.xreg := rfl
@[simp] theorem State.setM_busy (s : State) (i : Reg) (A : Mat) : (s.setM i A).busy = s.busy := rfl
@[simp] theorem State.setM_done (s : State) (i : Reg) (A : Mat) : (s.setM i A).done = s.done := rfl
@[simp] theorem State.setM_err (s : State) (i : Reg) (A : Mat) : (s.setM i A).err = s.err := rfl
@[simp] theorem State.setM_ovr (s : State) (i : Reg) (A : Mat) : (s.setM i A).ovr = s.ovr := rfl
@[simp] theorem State.setM_ieDone (s : State) (i : Reg) (A : Mat) : (s.setM i A).ieDone = s.ieDone := rfl
@[simp] theorem State.setM_ieErr (s : State) (i : Reg) (A : Mat) : (s.setM i A).ieErr = s.ieErr := rfl
@[simp] theorem State.setM_cmd (s : State) (i : Reg) (A : Mat) : (s.setM i A).cmd = s.cmd := rfl
@[simp] theorem State.setM_noiseP (s : State) (i : Reg) (A : Mat) : (s.setM i A).noiseP = s.noiseP := rfl
@[simp] theorem State.setM_kgRounds (s : State) (i : Reg) (A : Mat) : (s.setM i A).kgRounds = s.kgRounds := rfl
@[simp] theorem State.setM_rng (s : State) (i : Reg) (A : Mat) : (s.setM i A).rng = s.rng := rfl
@[simp] theorem State.setM_errcode (s : State) (i : Reg) (A : Mat) : (s.setM i A).errcode = s.errcode := rfl
@[simp] theorem State.setM_errcmd (s : State) (i : Reg) (A : Mat) : (s.setM i A).errcmd = s.errcmd := rfl
@[simp] theorem State.setM_selIndex (s : State) (i : Reg) (A : Mat) : (s.setM i A).selIndex = s.selIndex := rfl
@[simp] theorem State.setM_selKind (s : State) (i : Reg) (A : Mat) : (s.setM i A).selKind = s.selKind := rfl
@[simp] theorem State.setM_row (s : State) (i : Reg) (A : Mat) : (s.setM i A).row = s.row := rfl
@[simp] theorem State.setM_bus (s : State) (i : Reg) (A : Mat) : (s.setM i A).bus = s.bus := rfl
@[simp] theorem State.setM_lastRead (s : State) (i : Reg) (A : Mat) : (s.setM i A).lastRead = s.lastRead := rfl
@[simp] theorem State.setM_getV (s : State) (i : Reg) (A : Mat) (j : Reg) : (s.setM i A).getV j = s.getV j := rfl
@[simp] theorem State.setM_getX (s : State) (i : Reg) (A : Mat) (j : Reg) : (s.setM i A).getX j = s.getX j := rfl

/-! ## setV -/

@[simp] theorem State.setV_mreg (s : State) (i : Reg) (v : Vec) : (s.setV i v).mreg = s.mreg := rfl
@[simp] theorem State.setV_vreg (s : State) (i : Reg) (v : Vec) : (s.setV i v).vreg = s.vreg.set i v := rfl
@[simp] theorem State.setV_xreg (s : State) (i : Reg) (v : Vec) : (s.setV i v).xreg = s.xreg := rfl
@[simp] theorem State.setV_busy (s : State) (i : Reg) (v : Vec) : (s.setV i v).busy = s.busy := rfl
@[simp] theorem State.setV_done (s : State) (i : Reg) (v : Vec) : (s.setV i v).done = s.done := rfl
@[simp] theorem State.setV_err (s : State) (i : Reg) (v : Vec) : (s.setV i v).err = s.err := rfl
@[simp] theorem State.setV_ovr (s : State) (i : Reg) (v : Vec) : (s.setV i v).ovr = s.ovr := rfl
@[simp] theorem State.setV_ieDone (s : State) (i : Reg) (v : Vec) : (s.setV i v).ieDone = s.ieDone := rfl
@[simp] theorem State.setV_ieErr (s : State) (i : Reg) (v : Vec) : (s.setV i v).ieErr = s.ieErr := rfl
@[simp] theorem State.setV_cmd (s : State) (i : Reg) (v : Vec) : (s.setV i v).cmd = s.cmd := rfl
@[simp] theorem State.setV_noiseP (s : State) (i : Reg) (v : Vec) : (s.setV i v).noiseP = s.noiseP := rfl
@[simp] theorem State.setV_kgRounds (s : State) (i : Reg) (v : Vec) : (s.setV i v).kgRounds = s.kgRounds := rfl
@[simp] theorem State.setV_rng (s : State) (i : Reg) (v : Vec) : (s.setV i v).rng = s.rng := rfl
@[simp] theorem State.setV_errcode (s : State) (i : Reg) (v : Vec) : (s.setV i v).errcode = s.errcode := rfl
@[simp] theorem State.setV_errcmd (s : State) (i : Reg) (v : Vec) : (s.setV i v).errcmd = s.errcmd := rfl
@[simp] theorem State.setV_selIndex (s : State) (i : Reg) (v : Vec) : (s.setV i v).selIndex = s.selIndex := rfl
@[simp] theorem State.setV_selKind (s : State) (i : Reg) (v : Vec) : (s.setV i v).selKind = s.selKind := rfl
@[simp] theorem State.setV_row (s : State) (i : Reg) (v : Vec) : (s.setV i v).row = s.row := rfl
@[simp] theorem State.setV_bus (s : State) (i : Reg) (v : Vec) : (s.setV i v).bus = s.bus := rfl
@[simp] theorem State.setV_lastRead (s : State) (i : Reg) (v : Vec) : (s.setV i v).lastRead = s.lastRead := rfl
@[simp] theorem State.setV_getM (s : State) (i : Reg) (v : Vec) (j : Reg) : (s.setV i v).getM j = s.getM j := rfl
@[simp] theorem State.setV_getX (s : State) (i : Reg) (v : Vec) (j : Reg) : (s.setV i v).getX j = s.getX j := rfl

/-! ## setX -/

@[simp] theorem State.setX_mreg (s : State) (i : Reg) (x : Scalar) : (s.setX i x).mreg = s.mreg := rfl
@[simp] theorem State.setX_vreg (s : State) (i : Reg) (x : Scalar) : (s.setX i x).vreg = s.vreg := rfl
@[simp] theorem State.setX_xreg (s : State) (i : Reg) (x : Scalar) : (s.setX i x).xreg = s.xreg.set i x := rfl
@[simp] theorem State.setX_busy (s : State) (i : Reg) (x : Scalar) : (s.setX i x).busy = s.busy := rfl
@[simp] theorem State.setX_done (s : State) (i : Reg) (x : Scalar) : (s.setX i x).done = s.done := rfl
@[simp] theorem State.setX_err (s : State) (i : Reg) (x : Scalar) : (s.setX i x).err = s.err := rfl
@[simp] theorem State.setX_ovr (s : State) (i : Reg) (x : Scalar) : (s.setX i x).ovr = s.ovr := rfl
@[simp] theorem State.setX_ieDone (s : State) (i : Reg) (x : Scalar) : (s.setX i x).ieDone = s.ieDone := rfl
@[simp] theorem State.setX_ieErr (s : State) (i : Reg) (x : Scalar) : (s.setX i x).ieErr = s.ieErr := rfl
@[simp] theorem State.setX_cmd (s : State) (i : Reg) (x : Scalar) : (s.setX i x).cmd = s.cmd := rfl
@[simp] theorem State.setX_noiseP (s : State) (i : Reg) (x : Scalar) : (s.setX i x).noiseP = s.noiseP := rfl
@[simp] theorem State.setX_kgRounds (s : State) (i : Reg) (x : Scalar) : (s.setX i x).kgRounds = s.kgRounds := rfl
@[simp] theorem State.setX_rng (s : State) (i : Reg) (x : Scalar) : (s.setX i x).rng = s.rng := rfl
@[simp] theorem State.setX_errcode (s : State) (i : Reg) (x : Scalar) : (s.setX i x).errcode = s.errcode := rfl
@[simp] theorem State.setX_errcmd (s : State) (i : Reg) (x : Scalar) : (s.setX i x).errcmd = s.errcmd := rfl
@[simp] theorem State.setX_selIndex (s : State) (i : Reg) (x : Scalar) : (s.setX i x).selIndex = s.selIndex := rfl
@[simp] theorem State.setX_selKind (s : State) (i : Reg) (x : Scalar) : (s.setX i x).selKind = s.selKind := rfl
@[simp] theorem State.setX_row (s : State) (i : Reg) (x : Scalar) : (s.setX i x).row = s.row := rfl
@[simp] theorem State.setX_bus (s : State) (i : Reg) (x : Scalar) : (s.setX i x).bus = s.bus := rfl
@[simp] theorem State.setX_lastRead (s : State) (i : Reg) (x : Scalar) : (s.setX i x).lastRead = s.lastRead := rfl
@[simp] theorem State.setX_getM (s : State) (i : Reg) (x : Scalar) (j : Reg) : (s.setX i x).getM j = s.getM j := rfl
@[simp] theorem State.setX_getV (s : State) (i : Reg) (x : Scalar) (j : Reg) : (s.setX i x).getV j = s.getV j := rfl

/-! ## setRng -/

@[simp] theorem State.setRng_mreg (s : State) (g : Word) : (s.setRng g).mreg = s.mreg := rfl
@[simp] theorem State.setRng_vreg (s : State) (g : Word) : (s.setRng g).vreg = s.vreg := rfl
@[simp] theorem State.setRng_xreg (s : State) (g : Word) : (s.setRng g).xreg = s.xreg := rfl
@[simp] theorem State.setRng_busy (s : State) (g : Word) : (s.setRng g).busy = s.busy := rfl
@[simp] theorem State.setRng_done (s : State) (g : Word) : (s.setRng g).done = s.done := rfl
@[simp] theorem State.setRng_err (s : State) (g : Word) : (s.setRng g).err = s.err := rfl
@[simp] theorem State.setRng_ovr (s : State) (g : Word) : (s.setRng g).ovr = s.ovr := rfl
@[simp] theorem State.setRng_ieDone (s : State) (g : Word) : (s.setRng g).ieDone = s.ieDone := rfl
@[simp] theorem State.setRng_ieErr (s : State) (g : Word) : (s.setRng g).ieErr = s.ieErr := rfl
@[simp] theorem State.setRng_cmd (s : State) (g : Word) : (s.setRng g).cmd = s.cmd := rfl
@[simp] theorem State.setRng_noiseP (s : State) (g : Word) : (s.setRng g).noiseP = s.noiseP := rfl
@[simp] theorem State.setRng_kgRounds (s : State) (g : Word) : (s.setRng g).kgRounds = s.kgRounds := rfl
@[simp] theorem State.setRng_rng (s : State) (g : Word) : (s.setRng g).rng = g := rfl
@[simp] theorem State.setRng_errcode (s : State) (g : Word) : (s.setRng g).errcode = s.errcode := rfl
@[simp] theorem State.setRng_errcmd (s : State) (g : Word) : (s.setRng g).errcmd = s.errcmd := rfl
@[simp] theorem State.setRng_selIndex (s : State) (g : Word) : (s.setRng g).selIndex = s.selIndex := rfl
@[simp] theorem State.setRng_selKind (s : State) (g : Word) : (s.setRng g).selKind = s.selKind := rfl
@[simp] theorem State.setRng_row (s : State) (g : Word) : (s.setRng g).row = s.row := rfl
@[simp] theorem State.setRng_bus (s : State) (g : Word) : (s.setRng g).bus = s.bus := rfl
@[simp] theorem State.setRng_lastRead (s : State) (g : Word) : (s.setRng g).lastRead = s.lastRead := rfl
@[simp] theorem State.setRng_getM (s : State) (g : Word) (j : Reg) : (s.setRng g).getM j = s.getM j := rfl
@[simp] theorem State.setRng_getV (s : State) (g : Word) (j : Reg) : (s.setRng g).getV j = s.getV j := rfl
@[simp] theorem State.setRng_getX (s : State) (g : Word) (j : Reg) : (s.setRng g).getX j = s.getX j := rfl

/-! ## finish -/

@[simp] theorem State.finish_mreg (s : State) : (s.finish).mreg = s.mreg := rfl
@[simp] theorem State.finish_vreg (s : State) : (s.finish).vreg = s.vreg := rfl
@[simp] theorem State.finish_xreg (s : State) : (s.finish).xreg = s.xreg := rfl
@[simp] theorem State.finish_busy (s : State) : (s.finish).busy = false := rfl
@[simp] theorem State.finish_done (s : State) : (s.finish).done = true := rfl
@[simp] theorem State.finish_err (s : State) : (s.finish).err = s.err := rfl
@[simp] theorem State.finish_ovr (s : State) : (s.finish).ovr = s.ovr := rfl
@[simp] theorem State.finish_ieDone (s : State) : (s.finish).ieDone = s.ieDone := rfl
@[simp] theorem State.finish_ieErr (s : State) : (s.finish).ieErr = s.ieErr := rfl
@[simp] theorem State.finish_cmd (s : State) : (s.finish).cmd = s.cmd := rfl
@[simp] theorem State.finish_noiseP (s : State) : (s.finish).noiseP = s.noiseP := rfl
@[simp] theorem State.finish_kgRounds (s : State) : (s.finish).kgRounds = s.kgRounds := rfl
@[simp] theorem State.finish_rng (s : State) : (s.finish).rng = s.rng := rfl
@[simp] theorem State.finish_errcode (s : State) : (s.finish).errcode = s.errcode := rfl
@[simp] theorem State.finish_errcmd (s : State) : (s.finish).errcmd = s.errcmd := rfl
@[simp] theorem State.finish_selIndex (s : State) : (s.finish).selIndex = s.selIndex := rfl
@[simp] theorem State.finish_selKind (s : State) : (s.finish).selKind = s.selKind := rfl
@[simp] theorem State.finish_row (s : State) : (s.finish).row = s.row := rfl
@[simp] theorem State.finish_bus (s : State) : (s.finish).bus = s.bus := rfl
@[simp] theorem State.finish_lastRead (s : State) : (s.finish).lastRead = s.lastRead := rfl
@[simp] theorem State.finish_getM (s : State) (j : Reg) : (s.finish).getM j = s.getM j := rfl
@[simp] theorem State.finish_getV (s : State) (j : Reg) : (s.finish).getV j = s.getV j := rfl
@[simp] theorem State.finish_getX (s : State) (j : Reg) : (s.finish).getX j = s.getX j := rfl

/-! ## takeFault -/

@[simp] theorem State.takeFault_mreg (c : FaultCause) (s : State) : (s.takeFault c).mreg = s.mreg := rfl
@[simp] theorem State.takeFault_vreg (c : FaultCause) (s : State) : (s.takeFault c).vreg = s.vreg := rfl
@[simp] theorem State.takeFault_xreg (c : FaultCause) (s : State) : (s.takeFault c).xreg = s.xreg := rfl
@[simp] theorem State.takeFault_busy (c : FaultCause) (s : State) : (s.takeFault c).busy = false := rfl
@[simp] theorem State.takeFault_done (c : FaultCause) (s : State) : (s.takeFault c).done = true := rfl
@[simp] theorem State.takeFault_err (c : FaultCause) (s : State) : (s.takeFault c).err = true := rfl
@[simp] theorem State.takeFault_ovr (c : FaultCause) (s : State) : (s.takeFault c).ovr = s.ovr := rfl
@[simp] theorem State.takeFault_ieDone (c : FaultCause) (s : State) : (s.takeFault c).ieDone = s.ieDone := rfl
@[simp] theorem State.takeFault_ieErr (c : FaultCause) (s : State) : (s.takeFault c).ieErr = s.ieErr := rfl
@[simp] theorem State.takeFault_cmd (c : FaultCause) (s : State) : (s.takeFault c).cmd = s.cmd := rfl
@[simp] theorem State.takeFault_noiseP (c : FaultCause) (s : State) : (s.takeFault c).noiseP = s.noiseP := rfl
@[simp] theorem State.takeFault_kgRounds (c : FaultCause) (s : State) : (s.takeFault c).kgRounds = s.kgRounds := rfl
@[simp] theorem State.takeFault_rng (c : FaultCause) (s : State) : (s.takeFault c).rng = s.rng := rfl
@[simp] theorem State.takeFault_errcode (c : FaultCause) (s : State) : (s.takeFault c).errcode = if s.err then s.errcode else c.code := rfl
@[simp] theorem State.takeFault_errcmd (c : FaultCause) (s : State) : (s.takeFault c).errcmd = if s.err then s.errcmd else s.cmd := rfl
@[simp] theorem State.takeFault_selIndex (c : FaultCause) (s : State) : (s.takeFault c).selIndex = s.selIndex := rfl
@[simp] theorem State.takeFault_selKind (c : FaultCause) (s : State) : (s.takeFault c).selKind = s.selKind := rfl
@[simp] theorem State.takeFault_row (c : FaultCause) (s : State) : (s.takeFault c).row = s.row := rfl
@[simp] theorem State.takeFault_bus (c : FaultCause) (s : State) : (s.takeFault c).bus = s.bus := rfl
@[simp] theorem State.takeFault_lastRead (c : FaultCause) (s : State) : (s.takeFault c).lastRead = s.lastRead := rfl
@[simp] theorem State.takeFault_getM (c : FaultCause) (s : State) (j : Reg) : (s.takeFault c).getM j = s.getM j := rfl
@[simp] theorem State.takeFault_getV (c : FaultCause) (s : State) (j : Reg) : (s.takeFault c).getV j = s.getV j := rfl
@[simp] theorem State.takeFault_getX (c : FaultCause) (s : State) (j : Reg) : (s.takeFault c).getX j = s.getX j := rfl

/-! ## acceptCommand -/

@[simp] theorem acceptCommand_mreg (w : Word) (s : State) : (acceptCommand w s).mreg = s.mreg := rfl
@[simp] theorem acceptCommand_vreg (w : Word) (s : State) : (acceptCommand w s).vreg = s.vreg := rfl
@[simp] theorem acceptCommand_xreg (w : Word) (s : State) : (acceptCommand w s).xreg = s.xreg := rfl
@[simp] theorem acceptCommand_busy (w : Word) (s : State) : (acceptCommand w s).busy = true := rfl
@[simp] theorem acceptCommand_done (w : Word) (s : State) : (acceptCommand w s).done = false := rfl
@[simp] theorem acceptCommand_err (w : Word) (s : State) : (acceptCommand w s).err = s.err := rfl
@[simp] theorem acceptCommand_ovr (w : Word) (s : State) : (acceptCommand w s).ovr = s.ovr := rfl
@[simp] theorem acceptCommand_ieDone (w : Word) (s : State) : (acceptCommand w s).ieDone = s.ieDone := rfl
@[simp] theorem acceptCommand_ieErr (w : Word) (s : State) : (acceptCommand w s).ieErr = s.ieErr := rfl
@[simp] theorem acceptCommand_cmd (w : Word) (s : State) : (acceptCommand w s).cmd = w := rfl
@[simp] theorem acceptCommand_noiseP (w : Word) (s : State) : (acceptCommand w s).noiseP = s.noiseP := rfl
@[simp] theorem acceptCommand_kgRounds (w : Word) (s : State) : (acceptCommand w s).kgRounds = s.kgRounds := rfl
@[simp] theorem acceptCommand_rng (w : Word) (s : State) : (acceptCommand w s).rng = s.rng := rfl
@[simp] theorem acceptCommand_errcode (w : Word) (s : State) : (acceptCommand w s).errcode = s.errcode := rfl
@[simp] theorem acceptCommand_errcmd (w : Word) (s : State) : (acceptCommand w s).errcmd = s.errcmd := rfl
@[simp] theorem acceptCommand_selIndex (w : Word) (s : State) : (acceptCommand w s).selIndex = s.selIndex := rfl
@[simp] theorem acceptCommand_selKind (w : Word) (s : State) : (acceptCommand w s).selKind = s.selKind := rfl
@[simp] theorem acceptCommand_row (w : Word) (s : State) : (acceptCommand w s).row = s.row := rfl
@[simp] theorem acceptCommand_bus (w : Word) (s : State) : (acceptCommand w s).bus = s.bus := rfl
@[simp] theorem acceptCommand_lastRead (w : Word) (s : State) : (acceptCommand w s).lastRead = s.lastRead := rfl
@[simp] theorem acceptCommand_getM (w : Word) (s : State) (j : Reg) : (acceptCommand w s).getM j = s.getM j := rfl
@[simp] theorem acceptCommand_getV (w : Word) (s : State) (j : Reg) : (acceptCommand w s).getV j = s.getV j := rfl
@[simp] theorem acceptCommand_getX (w : Word) (s : State) (j : Reg) : (acceptCommand w s).getX j = s.getX j := rfl

/-! ## clearFault -/

@[simp] theorem State.clearFault_mreg (s : State) : (s.clearFault).mreg = s.mreg := rfl
@[simp] theorem State.clearFault_vreg (s : State) : (s.clearFault).vreg = s.vreg := rfl
@[simp] theorem State.clearFault_xreg (s : State) : (s.clearFault).xreg = s.xreg := rfl
@[simp] theorem State.clearFault_busy (s : State) : (s.clearFault).busy = s.busy := rfl
@[simp] theorem State.clearFault_done (s : State) : (s.clearFault).done = s.done := rfl
@[simp] theorem State.clearFault_err (s : State) : (s.clearFault).err = false := rfl
@[simp] theorem State.clearFault_ovr (s : State) : (s.clearFault).ovr = s.ovr := rfl
@[simp] theorem State.clearFault_ieDone (s : State) : (s.clearFault).ieDone = s.ieDone := rfl
@[simp] theorem State.clearFault_ieErr (s : State) : (s.clearFault).ieErr = s.ieErr := rfl
@[simp] theorem State.clearFault_cmd (s : State) : (s.clearFault).cmd = s.cmd := rfl
@[simp] theorem State.clearFault_noiseP (s : State) : (s.clearFault).noiseP = s.noiseP := rfl
@[simp] theorem State.clearFault_kgRounds (s : State) : (s.clearFault).kgRounds = s.kgRounds := rfl
@[simp] theorem State.clearFault_rng (s : State) : (s.clearFault).rng = s.rng := rfl
@[simp] theorem State.clearFault_errcode (s : State) : (s.clearFault).errcode = 0 := rfl
@[simp] theorem State.clearFault_errcmd (s : State) : (s.clearFault).errcmd = 0 := rfl
@[simp] theorem State.clearFault_selIndex (s : State) : (s.clearFault).selIndex = s.selIndex := rfl
@[simp] theorem State.clearFault_selKind (s : State) : (s.clearFault).selKind = s.selKind := rfl
@[simp] theorem State.clearFault_row (s : State) : (s.clearFault).row = s.row := rfl
@[simp] theorem State.clearFault_bus (s : State) : (s.clearFault).bus = s.bus := rfl
@[simp] theorem State.clearFault_lastRead (s : State) : (s.clearFault).lastRead = s.lastRead := rfl
@[simp] theorem State.clearFault_getM (s : State) (j : Reg) : (s.clearFault).getM j = s.getM j := rfl
@[simp] theorem State.clearFault_getV (s : State) (j : Reg) : (s.clearFault).getV j = s.getV j := rfl
@[simp] theorem State.clearFault_getX (s : State) (j : Reg) : (s.clearFault).getX j = s.getX j := rfl

/-! ## noteOverrun -/

@[simp] theorem State.noteOverrun_mreg (s : State) : (s.noteOverrun).mreg = s.mreg := rfl
@[simp] theorem State.noteOverrun_vreg (s : State) : (s.noteOverrun).vreg = s.vreg := rfl
@[simp] theorem State.noteOverrun_xreg (s : State) : (s.noteOverrun).xreg = s.xreg := rfl
@[simp] theorem State.noteOverrun_busy (s : State) : (s.noteOverrun).busy = s.busy := rfl
@[simp] theorem State.noteOverrun_done (s : State) : (s.noteOverrun).done = s.done := rfl
@[simp] theorem State.noteOverrun_err (s : State) : (s.noteOverrun).err = s.err := rfl
@[simp] theorem State.noteOverrun_ovr (s : State) : (s.noteOverrun).ovr = true := rfl
@[simp] theorem State.noteOverrun_ieDone (s : State) : (s.noteOverrun).ieDone = s.ieDone := rfl
@[simp] theorem State.noteOverrun_ieErr (s : State) : (s.noteOverrun).ieErr = s.ieErr := rfl
@[simp] theorem State.noteOverrun_cmd (s : State) : (s.noteOverrun).cmd = s.cmd := rfl
@[simp] theorem State.noteOverrun_noiseP (s : State) : (s.noteOverrun).noiseP = s.noiseP := rfl
@[simp] theorem State.noteOverrun_kgRounds (s : State) : (s.noteOverrun).kgRounds = s.kgRounds := rfl
@[simp] theorem State.noteOverrun_rng (s : State) : (s.noteOverrun).rng = s.rng := rfl
@[simp] theorem State.noteOverrun_errcode (s : State) : (s.noteOverrun).errcode = s.errcode := rfl
@[simp] theorem State.noteOverrun_errcmd (s : State) : (s.noteOverrun).errcmd = s.errcmd := rfl
@[simp] theorem State.noteOverrun_selIndex (s : State) : (s.noteOverrun).selIndex = s.selIndex := rfl
@[simp] theorem State.noteOverrun_selKind (s : State) : (s.noteOverrun).selKind = s.selKind := rfl
@[simp] theorem State.noteOverrun_row (s : State) : (s.noteOverrun).row = s.row := rfl
@[simp] theorem State.noteOverrun_bus (s : State) : (s.noteOverrun).bus = s.bus := rfl
@[simp] theorem State.noteOverrun_lastRead (s : State) : (s.noteOverrun).lastRead = s.lastRead := rfl
@[simp] theorem State.noteOverrun_getM (s : State) (j : Reg) : (s.noteOverrun).getM j = s.getM j := rfl
@[simp] theorem State.noteOverrun_getV (s : State) (j : Reg) : (s.noteOverrun).getV j = s.getV j := rfl
@[simp] theorem State.noteOverrun_getX (s : State) (j : Reg) : (s.noteOverrun).getX j = s.getX j := rfl

/-! ## Reading a register file after a write -/

theorem State.getM_setM (s : State) (i j : Reg) (A : Mat) :
    (s.setM i A).getM j = if i = j then A else s.getM j := by
  simp [State.getM, State.setM, Vector.getElem_set, Fin.ext_iff]

@[simp] theorem State.getM_setM_self (s : State) (i : Reg) (A : Mat) : (s.setM i A).getM i = A := by
  simp [State.getM_setM]

theorem State.getM_setM_ne (s : State) (i j : Reg) (A : Mat) (h : i ≠ j) :
    (s.setM i A).getM j = s.getM j := by
  simp [State.getM_setM, h]

theorem State.getV_setV (s : State) (i j : Reg) (v : Vec) :
    (s.setV i v).getV j = if i = j then v else s.getV j := by
  simp [State.getV, State.setV, Vector.getElem_set, Fin.ext_iff]

@[simp] theorem State.getV_setV_self (s : State) (i : Reg) (v : Vec) : (s.setV i v).getV i = v := by
  simp [State.getV_setV]

theorem State.getV_setV_ne (s : State) (i j : Reg) (v : Vec) (h : i ≠ j) :
    (s.setV i v).getV j = s.getV j := by
  simp [State.getV_setV, h]

theorem State.getX_setX (s : State) (i j : Reg) (x : Scalar) :
    (s.setX i x).getX j = if i = j then x else s.getX j := by
  simp [State.getX, State.setX, Vector.getElem_set, Fin.ext_iff]

@[simp] theorem State.getX_setX_self (s : State) (i : Reg) (x : Scalar) : (s.setX i x).getX i = x := by
  simp [State.getX_setX]

theorem State.getX_setX_ne (s : State) (i j : Reg) (x : Scalar) (h : i ≠ j) :
    (s.setX i x).getX j = s.getX j := by
  simp [State.getX_setX, h]

@[simp] theorem State.setRng_self (s : State) : s.setRng s.rng = s := rfl

/-! ## The registers at reset, and reset itself -/

@[simp] theorem State.reset_getM (j : Reg) : State.reset.getM j = [] := by
  simp [State.getM, State.reset]

@[simp] theorem State.reset_getV (j : Reg) : State.reset.getV j = [] := by
  simp [State.getV, State.reset]

@[simp] theorem State.reset_getX (j : Reg) : State.reset.getX j = 0 := by
  simp [State.getX, State.reset]

@[simp] theorem State.resetCore_bus (s : State) : s.resetCore.bus = s.bus := rfl

@[simp] theorem State.resetCore_lastRead (s : State) : s.resetCore.lastRead = s.lastRead := rfl

@[simp] theorem State.resetCore_getM (s : State) (j : Reg) : s.resetCore.getM j = [] := State.reset_getM j

@[simp] theorem State.resetCore_getV (s : State) (j : Reg) : s.resetCore.getV j = [] := State.reset_getV j

@[simp] theorem State.resetCore_getX (s : State) (j : Reg) : s.resetCore.getX j = 0 := State.reset_getX j

end Sys2Proof.Machine
end

