-- ==== Sys2Proof/Laws/Exec.lean ====
section
/-!
SUPPORT. The shared operations of a command, each said once: the checks, the completion, and everything a command
can do.
-/

namespace Sys2Proof.Machine

/-! ## The checks -/

@[simp] theorem ok_bind {α β : Type} (a : α) (f : α → Except FaultCause β) : (Except.ok a >>= f) = f a := rfl

@[simp] theorem error_bind {α β : Type} (c : FaultCause) (f : α → Except FaultCause β) :
    (Except.error c >>= f) = .error c := rfl

/-- A check goes on when it holds and faults otherwise. -/
@[simp] theorem require_bind {β : Type} (c : FaultCause) (p : Prop) [Decidable p]
    (f : Unit → Except FaultCause β) : (require c p >>= f) = if p then f () else .error c := by
  by_cases h : p <;> simp [require, h]

/-- An empty matrix operand faults with SHAPE (10_state.md R32). -/
@[simp] theorem matOperand_bind {β : Type} (s : State) (a : Reg) (f : Mat → Except FaultCause β) :
    (matOperand s a >>= f) = if Mat.nrows (s.getM a) = 0 then .error .shape else f (s.getM a) := by
  by_cases h : Mat.nrows (s.getM a) = 0 <;> simp [matOperand, h]

/-- An empty vector operand faults with SHAPE (10_state.md R33). -/
@[simp] theorem vecOperand_bind {β : Type} (s : State) (a : Reg) (f : Vec → Except FaultCause β) :
    (vecOperand s a >>= f) = if (s.getV a).length = 0 then .error .shape else f (s.getV a) := by
  by_cases h : (s.getV a).length = 0 <;> simp [vecOperand, h]

/-- A field operand above 15 faults with GF_DOMAIN (41_gf.md R140). -/
@[simp] theorem gfOperand_bind {β : Type} (s : State) (a : Reg) (f : Gf → Except FaultCause β) :
    (gfOperand s a >>= f) = if 15 < (s.getX a).toNat then .error .gfDomain else f ((s.getX a).setWidth 4) := by
  by_cases h : 15 < (s.getX a).toNat <;> simp [gfOperand, h]

/-- A size outside 1..DMAX faults with SHAPE (30_encoding.md R93). -/
@[simp] theorem sizeImm_bind {β : Type} (n : Nat) (f : Unit → Except FaultCause β) :
    (sizeImm n >>= f) = if 1 ≤ n ∧ n ≤ Config.dmax then f () else .error .shape := by
  simp only [sizeImm, require_bind]

/-! ## Completion -/

@[simp] theorem complete_ok (s t : State) : complete s (.ok t) = .next t.finish := rfl

@[simp] theorem complete_error (s : State) (c : FaultCause) : complete s (.error c) = .next (s.takeFault c) := rfl

theorem complete_ite (s : State) (p : Prop) [Decidable p] (x y : Except FaultCause State) :
    complete s (if p then x else y) = if p then complete s x else complete s y := by
  by_cases h : p <;> simp [h]

/-- A command always completes: its outcome is a next state (46_system.md R251). -/
theorem complete_next (s : State) (r : Except FaultCause State) : ∃ t, complete s r = .next t := ⟨_, rfl⟩

/-! ## Everything a command can do -/

/-- u is s with its destination register written, whatever the value. -/
def WritesDest (dst : Dest) (s u : State) : Prop :=
  match dst with
  | .none => u = s
  | .m d => ∃ A, u = s.setM d A
  | .v d => ∃ v, u = s.setV d v
  | .x d => ∃ x, u = s.setX d x

/-- A command completes normally, its destination written and RNG_STATE if it draws, or it faults with a cause its
row of R270 lists, and then nothing is written but RNG_STATE after KEYGEN_EXHAUSTED (46_system.md R251;
60_exceptions.md R260, R270). -/
def CommandOutcome (i : Instr) (s : State) (o : Host.Outcome State Fault Refusal) : Prop :=
  (∃ g u, (i.draws = false → g = s.rng) ∧ WritesDest i.dest s u ∧ o = .next (u.setRng g).finish) ∨
    (∃ g c, c ∈ possibleCauses i ∧ (c ≠ .keygenExhausted → g = s.rng) ∧ o = .next ((s.setRng g).takeFault c))

/-- The outcome of a command that draws nothing. -/
theorem CommandOutcome.of_complete {i : Instr} {s : State} (r : Except FaultCause State)
    (h : ∀ u, r = .ok u → WritesDest i.dest s u ∧ u.rng = s.rng) (hc : ∀ c, r = .error c → c ∈ possibleCauses i) :
    CommandOutcome i s (complete s r) := by
  cases r with
  | ok u =>
    refine .inl ⟨s.rng, u, fun _ => rfl, (h u rfl).1, ?_⟩
    rw [complete_ok, ← (h u rfl).2]
    rfl
  | error c => exact .inr ⟨s.rng, c, hc c rfl, fun _ => rfl, rfl⟩

/-- The outcome of a command that writes its destination and cannot fault. -/
theorem CommandOutcome.of_ok {i : Instr} {s : State} (u : State) (h : WritesDest i.dest s u ∧ u.rng = s.rng) :
    CommandOutcome i s (complete s (.ok u)) :=
  .of_complete _ (fun _ hu => by cases hu; exact h) fun _ hc => nomatch hc

/-- Every command does one of the things of `CommandOutcome`, from every state. -/
theorem exec_outcome (i : Instr) (s : State) : CommandOutcome i s (exec i s) := by
  cases i with
  | nop => exact .of_ok s ⟨rfl, rfl⟩
  | xli d imm => exact .of_ok (s.setXNat d imm) ⟨⟨_, rfl⟩, rfl⟩
  | cgeng d fam => exact .of_ok (s.setM d (generatorMatrix fam)) ⟨⟨_, rfl⟩, rfl⟩
  | cgenh d fam => exact .of_ok (s.setM d (parityMatrix fam)) ⟨⟨_, rfl⟩, rfl⟩
  | kinv d n =>
    simp only [exec, execKinv]
    split
    · cases h : (kinvAttempts n s.kgRounds.toNat Config.kgMaxAttempts s.rng).1 with
      | none => exact .inr ⟨_, _, by simp [possibleCauses], fun h => absurd rfl h, rfl⟩
      | some T => exact .inl ⟨_, s.setM d T, fun h => by simp [Instr.draws] at h, ⟨T, rfl⟩, rfl⟩
    · exact .inr ⟨s.rng, _, by simp [possibleCauses], fun _ => rfl, rfl⟩
  | kperm d n =>
    simp only [exec, execKperm, sizeImm_bind]
    split
    · exact .inl ⟨_, s.setM d _, fun h => by simp [Instr.draws] at h, ⟨_, rfl⟩, rfl⟩
    · exact .inr ⟨s.rng, _, by simp [possibleCauses], fun _ => rfl, rfl⟩
  | vnoise d a n =>
    simp only [exec, execVnoise, vecOperand_bind, require_bind]
    split
    · exact .inr ⟨s.rng, _, by simp [possibleCauses], fun _ => rfl, rfl⟩
    · split
      · exact .inl ⟨_, s.setV d _, fun h => by simp [Instr.draws] at h, ⟨_, rfl⟩, rfl⟩
      · exact .inr ⟨s.rng, _, by simp [possibleCauses], fun _ => rfl, rfl⟩
  | _ =>
    refine .of_complete _ (fun u hu => ?_) (fun c hu => ?_) <;>
    · simp only [sizeImm_bind, matOperand_bind, vecOperand_bind, gfOperand_bind, require_bind, gfDiv, gfPow] at hu
      repeat' split at hu
      all_goals cases hu
      all_goals first
        | exact ⟨⟨_, rfl⟩, rfl⟩
        | simp [possibleCauses]

/-- Every command answers a next state, from every state (46_system.md R251). -/
theorem exec_next (i : Instr) (s : State) : ∃ t, exec i s = .next t := by
  rcases exec_outcome i s with ⟨g, u, -, -, h⟩ | ⟨g, c, -, -, h⟩ <;> exact ⟨_, h⟩

/-- Whatever word is in flight, its completion answers a next state (46_system.md R250, R251). -/
theorem runCommand_next (s : State) : ∃ t, runCommand s = .next t := by
  unfold runCommand
  split
  · exact exec_next _ s
  · exact ⟨_, rfl⟩

end Sys2Proof.Machine
end

