-- ==== Sys2Proof/Laws/Inverse.lean ====
section
/-!
SUPPORT. Gauss-Jordan inversion is right: it answers the inverse of an invertible matrix and nothing for a singular
one. The proof reads a bit matrix as a matrix over ZMod 2, in which every elimination step is the product with an
invertible matrix.
-/

namespace Sys2Proof.Machine

/-! ## Bits and bit matrices over ZMod 2 -/

/-- A bit as an element of ZMod 2. -/
def bitZ (b : Bool) : ZMod 2 := if b then 1 else 0

@[simp] theorem bitZ_false : bitZ false = 0 := rfl

@[simp] theorem bitZ_true : bitZ true = 1 := rfl

theorem bitZ_xor (a b : Bool) : bitZ (Bool.xor a b) = bitZ a + bitZ b := by
  cases a <;> cases b <;> decide

theorem bitZ_and (a b : Bool) : bitZ (a && b) = bitZ a * bitZ b := by
  cases a <;> cases b <;> decide

theorem bitZ_inj {a b : Bool} (h : bitZ a = bitZ b) : a = b := by
  cases a <;> cases b <;> simp_all

theorem bitZ_xorSum (n : Nat) (f : Nat → Bool) : bitZ (xorSum n f) = ∑ j : Fin n, bitZ (f j) := by
  induction n with
  | zero => simp
  | succ n ih => rw [xorSum_succ, bitZ_xor, ih, Fin.sum_univ_castSucc]; simp

/-- The bits of A as an R x C matrix over ZMod 2. -/
def Mat.toZ (R C : Nat) (A : Mat) : Matrix (Fin R) (Fin C) (ZMod 2) := fun r c => bitZ (Mat.bit A r c)

@[simp] theorem Mat.toZ_apply (R C : Nat) (A : Mat) (r : Fin R) (c : Fin C) :
    Mat.toZ R C A r c = bitZ (Mat.bit A r c) := rfl

theorem Mat.toZ_inj {A B : Mat} {R C : Nat} (hA : Mat.HasShape A R C) (hB : Mat.HasShape B R C)
    (h : Mat.toZ R C A = Mat.toZ R C B) : A = B :=
  Mat.ext_bit hA hB fun r c hr hc => bitZ_inj (congrFun (congrFun h ⟨r, hr⟩) ⟨c, hc⟩)

theorem Mat.toZ_mul {A B : Mat} {R J C : Nat} (hA : Mat.HasShape A R J) (hB : Mat.HasShape B J C) (hJ : 0 < J) :
    Mat.toZ R C (Mat.mul A B) = Mat.toZ R J A * Mat.toZ J C B := by
  ext r c
  rw [Mat.toZ_apply, Mat.bit_mul hA hB hJ r.2 c.2, bitZ_xorSum, Matrix.mul_apply]
  simp [bitZ_and]

theorem Mat.toZ_identity (n : Nat) : Mat.toZ n n (Mat.identity n) = 1 := by
  ext r c
  rw [Mat.toZ_apply, Mat.bit_identity r.2 c.2, Matrix.one_apply]
  by_cases h : r = c
  · simp [h]
  · simp [h, Fin.val_ne_of_ne h]

/-! ## One elimination step is the product with an involution -/

theorem Mat.row_set {A : Mat} {r i : Nat} {v : Vec} (hr : r < A.length) :
    Mat.row (A.set r v) i = if r = i then v else Mat.row A i := by
  by_cases h : r = i
  · subst h; simp [Mat.row, hr]
  · simp [Mat.row, h]

theorem Mat.row_swapRows {A : Mat} {r c : Nat} (hr : r < A.length) (hc : c < A.length) (i : Nat) :
    Mat.row (Mat.swapRows A r c) i = if i = c then Mat.row A r else if i = r then Mat.row A c else Mat.row A i := by
  rw [Mat.swapRows, Mat.row_set (by simpa using hc), Mat.row_set hr]
  by_cases h1 : c = i <;> by_cases h2 : r = i <;> simp [h1, h2, eq_comm]

theorem Mat.row_clearColumn {W : Mat} {c i : Nat} (hi : i < W.length) :
    Mat.row (Mat.clearColumn W c) i
      = if i ≠ c ∧ Mat.bit W i c = true then Vec.xor (Mat.row W i) (Mat.row W c) else Mat.row W i := by
  have e : Mat.row W i = W[i] := by simp [Mat.row, hi]
  simp only [Mat.bit, e]
  simp [Mat.row, Mat.clearColumn, hi]

theorem Mat.shape_clearColumn {W : Mat} {R C c : Nat} (h : Mat.HasShape W R C) (hc : c < R) :
    Mat.HasShape (Mat.clearColumn W c) R C := by
  have hl : (Mat.clearColumn W c).length = R := by simp [Mat.clearColumn, h.1]
  refine ⟨hl, fun row hrow => ?_⟩
  obtain ⟨i, hi, rfl⟩ := List.getElem_of_mem hrow
  have hi' : i < R := hl ▸ hi
  have e : (Mat.clearColumn W c)[i] = Mat.row (Mat.clearColumn W c) i := by simp [Mat.row, hi]
  rw [e, Mat.row_clearColumn (h.1.symm ▸ hi')]
  split
  · simp [h.length_row hi', h.length_row hc]
  · exact h.length_row hi'

theorem Mat.bit_clearColumn {W : Mat} {R C c i j : Nat} (h : Mat.HasShape W R C) (hc : c < R) (hi : i < R) :
    Mat.bit (Mat.clearColumn W c) i j
      = Bool.xor (Mat.bit W i j) (decide (i ≠ c) && Mat.bit W i c && Mat.bit W c j) := by
  rw [Mat.bit, Mat.row_clearColumn (h.1.symm ▸ hi)]
  by_cases hh : i ≠ c ∧ Mat.bit W i c = true
  · rw [if_pos hh, Vec.bit_xor _ _ ((h.length_row hi).trans (h.length_row hc).symm), hh.2]
    simp [hh.1, Mat.bit]
  · rw [if_neg hh]
    have : (decide (i ≠ c) && Mat.bit W i c) = false := by
      rcases Decidable.not_and_iff_or_not.mp hh with h1 | h1 <;> simp [h1]
    rw [this]
    simp [Mat.bit]

/-- W' is W after a row operation: the product with an invertible matrix. -/
def RowEquiv (R C : Nat) (W W' : Mat) : Prop :=
  ∃ E F : Matrix (Fin R) (Fin R) (ZMod 2), F * E = 1 ∧ Mat.toZ R C W' = E * Mat.toZ R C W

theorem RowEquiv.refl (R C : Nat) (W : Mat) : RowEquiv R C W W := ⟨1, 1, by simp, by simp⟩

theorem RowEquiv.trans {R C : Nat} {W W' W'' : Mat} (h : RowEquiv R C W W') (h' : RowEquiv R C W' W'') :
    RowEquiv R C W W'' := by
  obtain ⟨E, F, hF, hE⟩ := h
  obtain ⟨E', F', hF', hE'⟩ := h'
  refine ⟨E' * E, F * F', ?_, by rw [hE', hE, Matrix.mul_assoc]⟩
  calc F * F' * (E' * E) = F * (F' * E') * E := by simp only [Matrix.mul_assoc]
    _ = 1 := by rw [hF', Matrix.mul_one, hF]

theorem rowEquiv_swapRows {W : Mat} {R C r c : Nat} (h : Mat.HasShape W R C) (hr : r < R) (hc : c < R) :
    RowEquiv R C W (Mat.swapRows W r c) := by
  refine ⟨Matrix.swap _ ⟨r, hr⟩ ⟨c, hc⟩, Matrix.swap _ ⟨r, hr⟩ ⟨c, hc⟩, Matrix.swap_mul_self _ _, ?_⟩
  ext i k
  rw [Mat.toZ_apply, Mat.bit, Mat.row_swapRows (h.1.symm ▸ hr) (h.1.symm ▸ hc)]
  by_cases h1 : i.val = c
  · obtain rfl : i = ⟨c, hc⟩ := Fin.ext h1
    simp [Mat.bit]
  · by_cases h2 : i.val = r
    · obtain rfl : i = ⟨r, hr⟩ := Fin.ext h2
      simp [h1, Mat.bit]
    · rw [Matrix.swap_mul_of_ne (fun e => h2 (congrArg Fin.val e)) (fun e => h1 (congrArg Fin.val e))]
      simp [h1, h2, Mat.bit]

theorem rowEquiv_clearColumn {W : Mat} {R C c : Nat} (h : Mat.HasShape W R C) (hc : c < R) :
    RowEquiv R C W (Mat.clearColumn W c) := by
  let v : Fin R → ZMod 2 := fun i => bitZ (decide (i.val ≠ c) && Mat.bit W i c)
  let c' : Fin R := ⟨c, hc⟩
  let E : Matrix (Fin R) (Fin R) (ZMod 2) := fun i j => (if i = j then 1 else 0) + (if j = c' then v i else 0)
  have hE : ∀ {k : Type} (M : Matrix (Fin R) k (ZMod 2)) (i : Fin R) (x : k),
      (E * M) i x = M i x + v i * M c' x := by
    intro k M i x
    rw [Matrix.mul_apply]
    simp [E, add_mul, Finset.sum_add_distrib]
  have hv : v c' = 0 := by simp [v, c']
  refine ⟨E, E, ?_, ?_⟩
  · ext i j
    rw [hE]
    have e1 : E c' j = if c' = j then 1 else 0 := by simp [E, hv]
    rw [e1, Matrix.one_apply]
    by_cases hj : j = c'
    · subst hj
      simp only [E, if_true, mul_one]
      rw [add_assoc, CharTwo.add_self_eq_zero, add_zero]
    · simp [E, hj, Ne.symm hj]
  · ext i k
    rw [hE, Mat.toZ_apply, Mat.bit_clearColumn h hc i.2, bitZ_xor, bitZ_and]
    rfl

/-- Adding a row into another one is a row operation (43_keygen.md R185). -/
theorem rowEquiv_addRow {A : Mat} {R C dst src : Nat} (h : Mat.HasShape A R C) (hd : dst < R) (hs : src < R)
    (hne : dst ≠ src) : RowEquiv R C A (Mat.addRow A dst src) := by
  have hne' : (⟨dst, hd⟩ : Fin R) ≠ ⟨src, hs⟩ := fun e => hne (congrArg Fin.val e)
  refine ⟨Matrix.transvection ⟨dst, hd⟩ ⟨src, hs⟩ 1, Matrix.transvection ⟨dst, hd⟩ ⟨src, hs⟩ 1, ?_, ?_⟩
  · rw [Matrix.transvection_mul_transvection_same (h := hne'), CharTwo.add_self_eq_zero]
    simp
  · ext i k
    rw [Mat.toZ_apply, Mat.bit, Mat.addRow, Mat.row_set (h.1.symm ▸ hd)]
    by_cases hi : dst = i.val
    · obtain rfl : i = ⟨dst, hd⟩ := Fin.ext hi.symm
      rw [if_pos rfl, Vec.bit_xor _ _ ((h.length_row hd).trans (h.length_row hs).symm), bitZ_xor,
        Matrix.transvection_mul_apply_same]
      simp [Mat.bit]
    · rw [if_neg hi, Matrix.transvection_mul_apply_of_ne]
      · simp [Mat.bit]
      · exact fun e => hi (congrArg Fin.val e).symm

/-! ## The pivot -/

theorem Mat.laterPivot_some {W : Mat} {c r : Nat} (h : Mat.laterPivot W c = some r) :
    r < Mat.nrows W ∧ c < r ∧ Mat.bit W r c = true := by
  have hm := List.mem_of_find?_eq_some h
  have hp := List.find?_some h
  simp only [Bool.and_eq_true, decide_eq_true_eq] at hp
  exact ⟨List.mem_range.mp hm, hp⟩

theorem Mat.laterPivot_none {W : Mat} {c : Nat} (h : Mat.laterPivot W c = none) {r : Nat}
    (hr : r < Mat.nrows W) (hc : c < r) : Mat.bit W r c = false := by
  have := List.find?_eq_none.mp h r (List.mem_range.mpr hr)
  simpa [hc] using this

/-- The columns before k are those of the identity. -/
def Mat.Cleared (n k : Nat) (W : Mat) : Prop := ∀ i j, i < n → j < k → Mat.bit W i j = decide (i = j)

/-- Bringing a pivot: a row operation that keeps the cleared columns and puts a 1 in place; or there is none in the
rest of the column. -/
theorem Mat.bringPivot_cases {W : Mat} {n m c : Nat} (h : Mat.HasShape W n m) (hc : c < n)
    (hk : Mat.Cleared n c W) :
    (∃ W', Mat.bringPivot W c = some W' ∧ Mat.HasShape W' n m ∧ RowEquiv n m W W' ∧ Mat.Cleared n c W' ∧
        Mat.bit W' c c = true) ∨
      (Mat.bringPivot W c = none ∧ ∀ r, c ≤ r → r < n → Mat.bit W r c = false) := by
  by_cases hp : Mat.bit W c c = true
  · exact .inl ⟨W, by simp [Mat.bringPivot, hp], h, .refl _ _ _, hk, hp⟩
  · have hp' : Mat.bit W c c = false := by simpa using hp
    cases hl : Mat.laterPivot W c with
    | none =>
      refine .inr ⟨by simp [Mat.bringPivot, hp', hl], fun r hcr hr => ?_⟩
      rcases Nat.eq_or_lt_of_le hcr with rfl | hlt
      · exact hp'
      · exact Mat.laterPivot_none hl (h.nrows ▸ hr) hlt
    | some r =>
      obtain ⟨hr, hcr, hb⟩ := Mat.laterPivot_some hl
      rw [h.nrows] at hr
      refine .inl ⟨Mat.swapRows W r c, by simp [Mat.bringPivot, hp', hl], Mat.shape_swapRows h hr hc,
        rowEquiv_swapRows h hr hc, fun i j hi hj => ?_, ?_⟩
      · have e1 := hk r j hr hj
        have e2 := hk c j hc hj
        have e3 := hk i j hi hj
        rw [Mat.bit, Mat.row_swapRows (h.1.symm ▸ hr) (h.1.symm ▸ hc)]
        split
        · rename_i hic
          rw [hic]
          simpa [Mat.bit, show ¬ r = j by omega, show ¬ c = j by omega] using e1
        · split
          · rename_i hir
            rw [hir]
            simpa [Mat.bit, show ¬ r = j by omega, show ¬ c = j by omega] using e2
          · exact e3
      · rw [Mat.bit, Mat.row_swapRows (h.1.symm ▸ hr) (h.1.symm ▸ hc), if_pos rfl]
        exact hb

/-- Clearing the pivot column adds it to the cleared ones. -/
theorem Mat.cleared_succ {W : Mat} {n m c : Nat} (h : Mat.HasShape W n m) (hc : c < n)
    (hk : Mat.Cleared n c W) (hp : Mat.bit W c c = true) : Mat.Cleared n (c + 1) (Mat.clearColumn W c) := by
  intro i j hi hj
  rw [Mat.bit_clearColumn h hc hi]
  rcases Nat.lt_or_ge j c with hlt | hge
  · rw [hk i j hi hlt, hk c j hc hlt]
    simp [show ¬ c = j by omega]
  · obtain rfl : j = c := by omega
    rw [hp]
    by_cases hij : i = j
    · simp [hij, hp]
    · simp [hij]

/-! ## The whole elimination -/

/-- Eliminating columns c, c + 1, ..., n - 1: the left half becomes the identity by row operations, or a row-equivalent
matrix has a column without pivot. -/
theorem Mat.eliminate_cases {n m : Nat} : ∀ (k c : Nat) (W : Mat), c + k = n → Mat.HasShape W n m →
    Mat.Cleared n c W →
    (∃ W', Mat.eliminate (List.range' c k) W = some W' ∧ Mat.HasShape W' n m ∧ RowEquiv n m W W' ∧
        Mat.Cleared n n W') ∨
      (Mat.eliminate (List.range' c k) W = none ∧ ∃ W' p, p < n ∧ Mat.HasShape W' n m ∧ RowEquiv n m W W' ∧
        Mat.Cleared n p W' ∧ ∀ r, p ≤ r → r < n → Mat.bit W' r p = false) := by
  intro k
  induction k with
  | zero =>
    intro c W hck h hk
    obtain rfl : c = n := by omega
    exact .inl ⟨W, rfl, h, .refl _ _ _, hk⟩
  | succ k ih =>
    intro c W hck h hk
    have hc : c < n := by omega
    rcases Mat.bringPivot_cases h hc hk with ⟨W1, e1, h1, q1, k1, p1⟩ | ⟨e1, hz⟩
    · have h2 := Mat.shape_clearColumn h1 hc
      have q2 := q1.trans (rowEquiv_clearColumn h1 hc)
      rcases ih (c + 1) _ (by omega) h2 (Mat.cleared_succ h1 hc k1 p1) with
        ⟨W3, e3, h3, q3, k3⟩ | ⟨e3, W3, p, hp, h3, q3, k3, z3⟩
      · exact .inl ⟨W3, by simp [List.range'_succ, Mat.eliminate, e1, e3], h3, q2.trans q3, k3⟩
      · exact .inr ⟨by simp [List.range'_succ, Mat.eliminate, e1, e3], W3, p, hp, h3, q2.trans q3, k3, z3⟩
    · exact .inr ⟨by simp [List.range'_succ, Mat.eliminate, e1], W, c, hc, h, .refl _ _ _, hk, hz⟩

theorem Mat.shape_augment {A : Mat} {n : Nat} (h : Mat.HasShape A n n) :
    Mat.HasShape (Mat.augment A) n (n + n) := by
  have hl : (Mat.augment A).length = n := by simp [Mat.augment, h.1, Mat.nrows, (Mat.shape_identity n).1]
  refine ⟨hl, fun row hrow => ?_⟩
  obtain ⟨i, hi, rfl⟩ := List.getElem_of_mem hrow
  have hi' : i < n := hl ▸ hi
  have hA : A[i]'(h.1.symm ▸ hi') ∈ A := List.getElem_mem _
  simp [Mat.augment, h.nrows, h.2 _ hA, Mat.identity]

theorem Mat.bit_augment {A : Mat} {n i j : Nat} (h : Mat.HasShape A n n) (hi : i < n) :
    Mat.bit (Mat.augment A) i j = if j < n then Mat.bit A i j else Mat.bit (Mat.identity n) i (j - n) := by
  have hiA : i < A.length := h.1.symm ▸ hi
  have hiI : i < (Mat.identity n).length := (Mat.shape_identity n).1.symm ▸ hi
  have e : Mat.row (Mat.augment A) i = Mat.row A i ++ Mat.row (Mat.identity n) i := by
    simp [Mat.row, Mat.augment, h.nrows, hiA, hiI]
  have hlA := h.length_row hi
  rw [Mat.bit, e]
  simp only [Vec.bit, List.getD_eq_getElem?_getD, List.getElem?_append, hlA, Mat.bit]
  split <;> rfl

/-- The left n columns. -/
def leftZ {n : Nat} (M : Matrix (Fin n) (Fin (n + n)) (ZMod 2)) : Matrix (Fin n) (Fin n) (ZMod 2) :=
  fun i j => M i (Fin.castAdd n j)

/-- The right n columns. -/
def rightZ {n : Nat} (M : Matrix (Fin n) (Fin (n + n)) (ZMod 2)) : Matrix (Fin n) (Fin n) (ZMod 2) :=
  fun i j => M i (Fin.natAdd n j)

theorem leftZ_mul {n : Nat} (E : Matrix (Fin n) (Fin n) (ZMod 2)) (M : Matrix (Fin n) (Fin (n + n)) (ZMod 2)) :
    leftZ (E * M) = E * leftZ M := rfl

theorem rightZ_mul {n : Nat} (E : Matrix (Fin n) (Fin n) (ZMod 2)) (M : Matrix (Fin n) (Fin (n + n)) (ZMod 2)) :
    rightZ (E * M) = E * rightZ M := rfl

theorem leftZ_augment {A : Mat} {n : Nat} (h : Mat.HasShape A n n) :
    leftZ (Mat.toZ n (n + n) (Mat.augment A)) = Mat.toZ n n A := by
  ext i j
  simp [leftZ, Mat.bit_augment h i.2]

theorem rightZ_augment {A : Mat} {n : Nat} (h : Mat.HasShape A n n) :
    rightZ (Mat.toZ n (n + n) (Mat.augment A)) = 1 := by
  rw [← Mat.toZ_identity n]
  ext i j
  simp [rightZ, Mat.bit_augment h i.2]

/-- A square bit matrix with a product that is the identity, read over ZMod 2. -/
theorem Mat.invertible_iff {A : Mat} {n : Nat} (h : Mat.HasShape A n n) (hn : 0 < n) :
    Mat.Invertible A n ↔ ∃ M : Matrix (Fin n) (Fin n) (ZMod 2), Mat.toZ n n A * M = 1 := by
  constructor
  · rintro ⟨B, hB, e⟩
    exact ⟨Mat.toZ n n B, by rw [← Mat.toZ_mul h hB hn, e, Mat.toZ_identity]⟩
  · rintro ⟨M, e⟩
    let B : Mat := (List.range n).map fun r => (List.range n).map fun c =>
      if hrc : r < n ∧ c < n then decide (M ⟨r, hrc.1⟩ ⟨c, hrc.2⟩ = 1) else false
    have hB : Mat.HasShape B n n := by
      refine ⟨by simp [B], fun row hrow => ?_⟩
      simp only [B, List.mem_map] at hrow
      obtain ⟨r, -, rfl⟩ := hrow
      simp
    have eB : Mat.toZ n n B = M := by
      ext i j
      have hb : Mat.bit B i j = decide (M i j = 1) := by
        simp [Mat.bit, Mat.row, Vec.bit, B]
      rw [Mat.toZ_apply, hb]
      have : ∀ z : ZMod 2, bitZ (decide (z = 1)) = z := by decide
      exact this _
    refine ⟨B, hB, Mat.toZ_inj ?_ (Mat.shape_identity n) ?_⟩
    · have := Mat.shape_mul A B
      rwa [h.nrows, hB.ncols hn] at this
    · rw [Mat.toZ_mul h hB hn, eB, e, Mat.toZ_identity]

/-- Row operations keep invertibility: every row-equivalent matrix of an invertible one is invertible. -/
theorem Mat.Invertible.of_rowEquiv {A B : Mat} {n : Nat} (hA : Mat.HasShape A n n) (hB : Mat.HasShape B n n)
    (hn : 0 < n) (q : RowEquiv n n A B) (h : Mat.Invertible A n) : Mat.Invertible B n := by
  obtain ⟨M, hM⟩ := (Mat.invertible_iff hA hn).mp h
  obtain ⟨E, F, hF, hE⟩ := q
  refine (Mat.invertible_iff hB hn).mpr ⟨M * F, ?_⟩
  rw [hE]
  have hEF : E * F = 1 := mul_eq_one_comm.mp hF
  calc E * Mat.toZ n n A * (M * F) = E * (Mat.toZ n n A * M) * F := by simp only [Matrix.mul_assoc]
    _ = 1 := by rw [hM, Matrix.mul_one, hEF]

theorem Mat.invertible_identity {n : Nat} (hn : 0 < n) : Mat.Invertible (Mat.identity n) n :=
  (Mat.invertible_iff (Mat.shape_identity n) hn).mpr ⟨1, by simp [Mat.toZ_identity]⟩

/-- Gauss-Jordan answers T with T·A = A·T = I, or nothing, and then A has no inverse (40_matrix.md R125, R126). -/
theorem Mat.gaussJordanInverse_cases {A : Mat} {n : Nat} (h : Mat.HasShape A n n) (hn : 0 < n) :
    (∃ T, Mat.gaussJordanInverse A = some T ∧ Mat.HasShape T n n ∧ Mat.mul A T = Mat.identity n ∧
        Mat.mul T A = Mat.identity n) ∨
      (Mat.gaussJordanInverse A = none ∧ ¬ Mat.Invertible A n) := by
  have hcl : Mat.Cleared n 0 (Mat.augment A) := fun i j _ hj => absurd hj (Nat.not_lt_zero j)
  rcases Mat.eliminate_cases n 0 (Mat.augment A) (by omega) (Mat.shape_augment h) hcl with
    ⟨W, e, hW, ⟨E, F, hF, hE⟩, hk⟩ | ⟨e, W, p, hp, hW, ⟨E, F, hF, hE⟩, hk, hz⟩
  · rw [← List.range_eq_range'] at e
    left
    let T : Mat := W.map fun row => row.drop n
    have hT : Mat.HasShape T n n := by
      refine ⟨by simp [T, hW.1], fun row hrow => ?_⟩
      simp only [T, List.mem_map] at hrow
      obtain ⟨r, hr, rfl⟩ := hrow
      simp [hW.2 r hr]
    have bT : ∀ i j, i < n → Mat.bit T i j = Mat.bit W i (n + j) := by
      intro i j hi
      have : i < W.length := hW.1.symm ▸ hi
      simp [Mat.bit, Mat.row, Vec.bit, T, this]
    have eR : rightZ (Mat.toZ n (n + n) W) = Mat.toZ n n T := by
      ext i j
      simp [rightZ, bT i j i.2, Nat.add_comm]
    have eL : leftZ (Mat.toZ n (n + n) W) = 1 := by
      rw [← Mat.toZ_identity n]
      ext i j
      simp [leftZ, hk i j i.2 j.2, Mat.bit_identity i.2 j.2]
    have hTE : Mat.toZ n n T = E := by
      rw [← eR, hE, rightZ_mul, rightZ_augment h, Matrix.mul_one]
    have hTA : Mat.toZ n n T * Mat.toZ n n A = 1 := by
      rw [hTE, ← leftZ_augment h, ← leftZ_mul, ← hE, eL]
    have sAT := Mat.shape_mul A T
    have sTA := Mat.shape_mul T A
    rw [h.nrows, hT.ncols hn] at sAT
    rw [hT.nrows, h.ncols hn] at sTA
    refine ⟨T, by simp [Mat.gaussJordanInverse, h.nrows, e, T], hT, ?_, ?_⟩
    · exact Mat.toZ_inj sAT (Mat.shape_identity n)
        (by rw [Mat.toZ_mul h hT hn, Mat.toZ_identity]; exact mul_eq_one_comm.mp hTA)
    · exact Mat.toZ_inj sTA (Mat.shape_identity n) (by rw [Mat.toZ_mul hT h hn, Mat.toZ_identity, hTA])
  · rw [← List.range_eq_range'] at e
    right
    refine ⟨by simp [Mat.gaussJordanInverse, h.nrows, e], fun hinv => ?_⟩
    obtain ⟨M, hM⟩ := (Mat.invertible_iff h hn).mp hinv
    -- the left half of W is invertible, yet it maps a nonzero vector to zero
    have hL : leftZ (Mat.toZ n (n + n) W) = E * Mat.toZ n n A := by rw [hE, leftZ_mul, leftZ_augment h]
    have hEF : E * F = 1 := mul_eq_one_comm.mp hF
    have hLinv : leftZ (Mat.toZ n (n + n) W) * (M * F) = 1 := by
      rw [hL]
      calc E * Mat.toZ n n A * (M * F) = E * (Mat.toZ n n A * M) * F := by simp only [Matrix.mul_assoc]
        _ = 1 := by rw [hM, Matrix.mul_one, hEF]
    have hinvL := mul_eq_one_comm.mp hLinv
    let x : Fin n → ZMod 2 := fun j =>
      if j.val = p then 1 else if j.val < p then bitZ (Mat.bit W j p) else 0
    have hx : (leftZ (Mat.toZ n (n + n) W)).mulVec x = 0 := by
      ext i
      simp only [Matrix.mulVec, dotProduct, leftZ, Mat.toZ_apply, Pi.zero_apply, Fin.val_castAdd]
      have split : ∀ j : Fin n, bitZ (Mat.bit W i j) * x j
          = (if j = ⟨p, hp⟩ then bitZ (Mat.bit W i p) else 0)
            + (if j = i then (if i.val < p then bitZ (Mat.bit W i p) else 0) else 0) := by
        intro j
        rcases Nat.lt_trichotomy j.val p with hlt | heq | hgt
        · have hne : j ≠ ⟨p, hp⟩ := fun e => by rw [e] at hlt; exact Nat.lt_irrefl _ hlt
          rw [hk i j i.2 hlt]
          by_cases hij : j = i
          · subst hij; simp [x, hne, hlt, show ¬ j.val = p by omega]
          · have : ¬ i.val = j.val := fun e => hij (Fin.ext e.symm)
            simp [hne, hij, this]
        · obtain rfl : j = ⟨p, hp⟩ := Fin.ext heq
          by_cases hij : (⟨p, hp⟩ : Fin n) = i
          · subst hij; simp [x]
          · simp [x, hij]
        · have hne : j ≠ ⟨p, hp⟩ := fun e => by rw [e] at hgt; exact Nat.lt_irrefl _ hgt
          have h0 : x j = 0 := by simp [x, show ¬ j.val = p by omega, show ¬ j.val < p by omega]
          by_cases hij : j = i
          · subst hij; simp [h0, hne, show ¬ j.val < p by omega]
          · simp [h0, hne, hij]
      rw [Finset.sum_congr rfl fun j _ => split j, Finset.sum_add_distrib]
      simp only [Finset.sum_ite_eq', Finset.mem_univ, if_true]
      rcases Nat.lt_or_ge i.val p with hlt | hge
      · simp [hlt, CharTwo.add_self_eq_zero]
      · simp [Nat.not_lt.mpr hge, hz i hge i.2]
    have hx0 : x = 0 := by
      have := congrArg (fun v => (M * F).mulVec v) hx
      simpa [Matrix.mulVec_mulVec, hinvL] using this
    have : x ⟨p, hp⟩ = 0 := congrFun hx0 ⟨p, hp⟩
    simp [x] at this

end Sys2Proof.Machine
end

