-- ==== Sys2Proof/Laws/PerInstr.lean ====
section
/-!
SUPPORT. The statements made once per command. OpcodeByte: the word of a well-formed command carries its opcode in
bits 7:0 and 0 in the reserved bits 11, 15 and 19 (30_encoding.md R91, R92).
-/

namespace Sys2Proof.Laws

/-- The word of a well-formed command has its OPC in bits 7:0 and its reserved bits 0. -/
def OpcodeByte.Statement (i : Instr) : Prop :=
  i.wf = true → field (encode i) 7 0 = i.opcode ∧ field (encode i) 11 11 = 0 ∧ field (encode i) 15 15 = 0 ∧
    field (encode i) 19 19 = 0

theorem opcode_lt (i : Instr) : i.opcode < 256 := by
  cases i <;> simp [Instr.opcode]

theorem familyCode_lt (fam : Family) : familyCode fam < 4096 := by
  cases fam <;> decide

theorem fits6_lt {n : Nat} (h : fitsImm6 n = true) : n < 4096 := by
  simp only [fitsImm6, decide_eq_true_eq] at h
  omega

theorem fits66_lt {n k : Nat} (h : (fitsImm6 n && fitsImm6 k) = true) : n * 64 + k < 4096 := by
  simp only [fitsImm6, Bool.and_eq_true, decide_eq_true_eq] at h
  omega

theorem opcodeByte_of_fits {i : Instr} {rd ra rb imm : Nat} (e : encode i = packWord i.opcode rd ra rb imm)
    (h : i.wf = true → PackFits i.opcode rd ra rb imm) : OpcodeByte.Statement i := by
  intro hw
  rw [e]
  exact ⟨(h hw).field_opc, (h hw).reserved⟩

theorem OpcodeByte.nop : OpcodeByte.Statement .nop :=
  opcodeByte_of_fits rfl fun _ => ⟨opcode_lt _, Nat.succ_pos 7, Nat.succ_pos 7, Nat.succ_pos 7, Nat.succ_pos 4095⟩

theorem OpcodeByte.midn (d : Reg) (n : Nat) : OpcodeByte.Statement (.midn d n) :=
  opcodeByte_of_fits rfl fun hw => ⟨opcode_lt _, d.isLt, Nat.succ_pos 7, Nat.succ_pos 7, of_decide_eq_true hw⟩

theorem OpcodeByte.mmov (d : Reg) (a : Reg) : OpcodeByte.Statement (.mmov d a) :=
  opcodeByte_of_fits rfl fun _ => ⟨opcode_lt _, d.isLt, a.isLt, Nat.succ_pos 7, Nat.succ_pos 4095⟩

theorem OpcodeByte.mtrn (d : Reg) (a : Reg) : OpcodeByte.Statement (.mtrn d a) :=
  opcodeByte_of_fits rfl fun _ => ⟨opcode_lt _, d.isLt, a.isLt, Nat.succ_pos 7, Nat.succ_pos 4095⟩

theorem OpcodeByte.mmul (d : Reg) (a : Reg) (b : Reg) : OpcodeByte.Statement (.mmul d a b) :=
  opcodeByte_of_fits rfl fun _ => ⟨opcode_lt _, d.isLt, a.isLt, b.isLt, Nat.succ_pos 4095⟩

theorem OpcodeByte.minv (d : Reg) (a : Reg) : OpcodeByte.Statement (.minv d a) :=
  opcodeByte_of_fits rfl fun _ => ⟨opcode_lt _, d.isLt, a.isLt, Nat.succ_pos 7, Nat.succ_pos 4095⟩

theorem OpcodeByte.xli (d : Reg) (imm : Nat) : OpcodeByte.Statement (.xli d imm) :=
  opcodeByte_of_fits rfl fun hw => ⟨opcode_lt _, d.isLt, Nat.succ_pos 7, Nat.succ_pos 7, of_decide_eq_true hw⟩

theorem OpcodeByte.gexp (d : Reg) (a : Reg) : OpcodeByte.Statement (.gexp d a) :=
  opcodeByte_of_fits rfl fun _ => ⟨opcode_lt _, d.isLt, a.isLt, Nat.succ_pos 7, Nat.succ_pos 4095⟩

theorem OpcodeByte.glog (d : Reg) (a : Reg) : OpcodeByte.Statement (.glog d a) :=
  opcodeByte_of_fits rfl fun _ => ⟨opcode_lt _, d.isLt, a.isLt, Nat.succ_pos 7, Nat.succ_pos 4095⟩

theorem OpcodeByte.gmul (d : Reg) (a : Reg) (b : Reg) : OpcodeByte.Statement (.gmul d a b) :=
  opcodeByte_of_fits rfl fun _ => ⟨opcode_lt _, d.isLt, a.isLt, b.isLt, Nat.succ_pos 4095⟩

theorem OpcodeByte.gdiv (d : Reg) (a : Reg) (b : Reg) : OpcodeByte.Statement (.gdiv d a b) :=
  opcodeByte_of_fits rfl fun _ => ⟨opcode_lt _, d.isLt, a.isLt, b.isLt, Nat.succ_pos 4095⟩

theorem OpcodeByte.gpow (d : Reg) (a : Reg) (b : Reg) : OpcodeByte.Statement (.gpow d a b) :=
  opcodeByte_of_fits rfl fun _ => ⟨opcode_lt _, d.isLt, a.isLt, b.isLt, Nat.succ_pos 4095⟩

theorem OpcodeByte.cgeng (d : Reg) (fam : Family) : OpcodeByte.Statement (.cgeng d fam) :=
  opcodeByte_of_fits rfl fun _ => ⟨opcode_lt _, d.isLt, Nat.succ_pos 7, Nat.succ_pos 7, familyCode_lt fam⟩

theorem OpcodeByte.cgenh (d : Reg) (fam : Family) : OpcodeByte.Statement (.cgenh d fam) :=
  opcodeByte_of_fits rfl fun _ => ⟨opcode_lt _, d.isLt, Nat.succ_pos 7, Nat.succ_pos 7, familyCode_lt fam⟩

theorem OpcodeByte.mblk (d : Reg) (a : Reg) (l : Nat) : OpcodeByte.Statement (.mblk d a l) :=
  opcodeByte_of_fits rfl fun hw => ⟨opcode_lt _, d.isLt, a.isLt, Nat.succ_pos 7, of_decide_eq_true hw⟩

theorem OpcodeByte.kinv (d : Reg) (n : Nat) : OpcodeByte.Statement (.kinv d n) :=
  opcodeByte_of_fits rfl fun hw => ⟨opcode_lt _, d.isLt, Nat.succ_pos 7, Nat.succ_pos 7, of_decide_eq_true hw⟩

theorem OpcodeByte.kperm (d : Reg) (n : Nat) : OpcodeByte.Statement (.kperm d n) :=
  opcodeByte_of_fits rfl fun hw => ⟨opcode_lt _, d.isLt, Nat.succ_pos 7, Nat.succ_pos 7, of_decide_eq_true hw⟩

theorem OpcodeByte.vmul (d : Reg) (a : Reg) (b : Reg) : OpcodeByte.Statement (.vmul d a b) :=
  opcodeByte_of_fits rfl fun _ => ⟨opcode_lt _, d.isLt, a.isLt, b.isLt, Nat.succ_pos 4095⟩

theorem OpcodeByte.vmov (d : Reg) (a : Reg) : OpcodeByte.Statement (.vmov d a) :=
  opcodeByte_of_fits rfl fun _ => ⟨opcode_lt _, d.isLt, a.isLt, Nat.succ_pos 7, Nat.succ_pos 4095⟩

theorem OpcodeByte.vxor (d : Reg) (a : Reg) (b : Reg) : OpcodeByte.Statement (.vxor d a b) :=
  opcodeByte_of_fits rfl fun _ => ⟨opcode_lt _, d.isLt, a.isLt, b.isLt, Nat.succ_pos 4095⟩

theorem OpcodeByte.vnoise (d : Reg) (a : Reg) (n : Nat) : OpcodeByte.Statement (.vnoise d a n) :=
  opcodeByte_of_fits rfl fun hw => ⟨opcode_lt _, d.isLt, a.isLt, Nat.succ_pos 7, fits6_lt hw⟩

theorem OpcodeByte.bsyn (d : Reg) (a : Reg) (blk : Nat) : OpcodeByte.Statement (.bsyn d a blk) :=
  opcodeByte_of_fits rfl fun hw => ⟨opcode_lt _, d.isLt, a.isLt, Nat.succ_pos 7, of_decide_eq_true hw⟩

theorem OpcodeByte.dham (d : Reg) (a : Reg) (b : Reg) : OpcodeByte.Statement (.dham d a b) :=
  opcodeByte_of_fits rfl fun _ => ⟨opcode_lt _, d.isLt, a.isLt, b.isLt, Nat.succ_pos 4095⟩

theorem OpcodeByte.dbch (d : Reg) (a : Reg) : OpcodeByte.Statement (.dbch d a) :=
  opcodeByte_of_fits rfl fun _ => ⟨opcode_lt _, d.isLt, a.isLt, Nat.succ_pos 7, Nat.succ_pos 4095⟩

theorem OpcodeByte.vmsg (d : Reg) (a : Reg) (n : Nat) (k : Nat) : OpcodeByte.Statement (.vmsg d a n k) :=
  opcodeByte_of_fits rfl fun hw => ⟨opcode_lt _, d.isLt, a.isLt, Nat.succ_pos 7, fits66_lt hw⟩

end Sys2Proof.Laws
end

