-- ==== Sys2Proof/Laws/Wf.lean ====
section
/-!
SUPPORT. Every shared operation keeps the invariant: the results of the matrix and vector operations are legal
registers, and every named update of the state keeps `State.Inv`.
-/

namespace Sys2Proof.Machine

/-! ## Legal matrices -/

theorem Mat.WF.pos {A : Mat} (h : Mat.WF A) (h0 : Mat.nrows A ≠ 0) : 0 < Mat.nrows A ∧ 0 < Mat.ncols A :=
  ⟨by omega, by have := h.2.2.2; omega⟩

theorem Mat.wf_identity {n : Nat} (h1 : 1 ≤ n) (h2 : n ≤ Config.dmax) : Mat.WF (Mat.identity n) :=
  (Mat.shape_identity n).wf h1 h1 h2 h2

theorem Mat.wf_zeros {R C : Nat} (hR : 0 < R) (hC : 0 < C) (hR' : R ≤ Config.dmax) (hC' : C ≤ Config.dmax) :
    Mat.WF (Mat.zeros R C) :=
  (Mat.shape_zeros R C).wf hR hC hR' hC'

theorem Mat.WF.transpose {A : Mat} (h : Mat.WF A) (h0 : Mat.nrows A ≠ 0) : Mat.WF (Mat.transpose A) :=
  (Mat.shape_transpose h.hasShape (h.pos h0).1).wf (h.pos h0).2 (h.pos h0).1 h.2.1 h.1

theorem Mat.WF.mul {A B : Mat} (hA : Mat.WF A) (hB : Mat.WF B) (hA0 : Mat.nrows A ≠ 0) (hB0 : Mat.nrows B ≠ 0) :
    Mat.WF (Mat.mul A B) :=
  (Mat.shape_mul A B).wf (hA.pos hA0).1 (hB.pos hB0).2 hA.1 hB.2.1

theorem Mat.WF.blockDiagonal {A : Mat} (h : Mat.WF A) (h0 : Mat.nrows A ≠ 0) {L : Nat} (hL : 1 ≤ L)
    (hr : L * Mat.nrows A ≤ Config.dmax) (hc : L * Mat.ncols A ≤ Config.dmax) : Mat.WF (Mat.blockDiagonal A L) :=
  (Mat.shape_blockDiagonal h.hasShape (h.pos h0).1 L).wf (Nat.mul_pos hL (h.pos h0).1)
    (Nat.mul_pos hL (h.pos h0).2) hr hc

/-- A square legal matrix that Gauss-Jordan inverts has a legal inverse. -/
theorem Mat.WF.gaussJordanInverse {A T : Mat} (h : Mat.WF A) (h0 : Mat.nrows A ≠ 0)
    (hsq : Mat.nrows A = Mat.ncols A) (hT : Mat.gaussJordanInverse A = some T) : Mat.WF T := by
  have hA : Mat.HasShape A (Mat.nrows A) (Mat.nrows A) := by
    have := h.hasShape
    rwa [← hsq] at this
  rcases Mat.gaussJordanInverse_cases hA (h.pos h0).1 with ⟨T', e, hT', -⟩ | ⟨e, -⟩
  · obtain rfl : T' = T := by simpa [e] using hT
    exact hT'.wf (h.pos h0).1 (h.pos h0).1 h.1 h.1
  · simp [e] at hT

/-! ## The code matrices (42_code.md R163 to R166) -/

theorem shape_genHamming : Mat.HasShape genHamming 11 15 := by decide

theorem shape_parHamming : Mat.HasShape parHamming 4 15 := by decide

theorem shape_genBch : Mat.HasShape genBch 7 15 := by decide

theorem shape_parBch : Mat.HasShape parBch 8 15 := by decide

theorem wf_generatorMatrix (fam : Family) : Mat.WF (generatorMatrix fam) := by
  cases fam
  · exact shape_genHamming.wf (by decide) (by decide) (by decide) (by decide)
  · exact shape_genBch.wf (by decide) (by decide) (by decide) (by decide)

theorem wf_parityMatrix (fam : Family) : Mat.WF (parityMatrix fam) := by
  cases fam
  · exact shape_parHamming.wf (by decide) (by decide) (by decide) (by decide)
  · exact shape_parBch.wf (by decide) (by decide) (by decide) (by decide)

/-! ## KINV and KPERM -/

/-- The two row numbers a round draws are rows of the matrix and distinct (43_keygen.md R184). -/
theorem kinvRound_rows {n : Nat} (hn : 2 ≤ n) (T : Mat) (g : Word) :
    ∃ dst src, dst < n ∧ src < n ∧ dst ≠ src ∧
      kinvRound n T g = (Mat.addRow T dst src, xorshift32 (xorshift32 g)) := by
  have h1 : (xorshift32 g).toNat % n < n := Nat.mod_lt _ (by omega)
  have h2 : (xorshift32 (xorshift32 g)).toNat % (n - 1) < n - 1 := Nat.mod_lt _ (by omega)
  refine ⟨(xorshift32 g).toNat % n,
    if (xorshift32 g).toNat % n ≤ (xorshift32 (xorshift32 g)).toNat % (n - 1)
      then (xorshift32 (xorshift32 g)).toNat % (n - 1) + 1 else (xorshift32 (xorshift32 g)).toNat % (n - 1),
    h1, ?_, ?_, rfl⟩
  · split <;> omega
  · split <;> omega

/-- The rounds keep the shape, are row operations, and draw twice each. -/
theorem kinvRounds_spec {n : Nat} (hn : 2 ≤ n) : ∀ (k : Nat) (T : Mat) (g : Word), Mat.HasShape T n n →
    Mat.HasShape (kinvRounds n k T g).1 n n ∧ RowEquiv n n T (kinvRounds n k T g).1 ∧
      (kinvRounds n k T g).2 = rngAfter (2 * k) g := by
  intro k
  induction k with
  | zero => exact fun T g h => ⟨h, .refl _ _ _, rfl⟩
  | succ k ih =>
    intro T g h
    obtain ⟨dst, src, hd, hs, hne, e⟩ := kinvRound_rows hn T g
    have h1 := Mat.shape_addRow h hd hs
    obtain ⟨a, b, c⟩ := ih _ (xorshift32 (xorshift32 g)) h1
    simp only [kinvRounds, e]
    exact ⟨a, (rowEquiv_addRow h hd hs hne).trans b, c⟩

/-- Every candidate of KINV is an invertible square matrix (43_keygen.md R185). -/
theorem kinvCandidate_spec {n : Nat} (hn : 1 ≤ n) (rounds : Nat) (g : Word) :
    Mat.HasShape (kinvCandidate n rounds g).1 n n ∧ Mat.Invertible (kinvCandidate n rounds g).1 n ∧
      (kinvCandidate n rounds g).2 = if 2 ≤ n then rngAfter (2 * rounds) g else g := by
  unfold kinvCandidate
  split
  · rename_i h2
    obtain ⟨a, b, c⟩ := kinvRounds_spec h2 rounds (Mat.identity n) g (Mat.shape_identity n)
    exact ⟨a, (Mat.invertible_identity hn).of_rowEquiv (Mat.shape_identity n) a hn b, c⟩
  · exact ⟨Mat.shape_identity n, Mat.invertible_identity hn, rfl⟩

/-- The first attempt of KINV succeeds (43_keygen.md R185). -/
theorem kinvAttempts_succ {n : Nat} (hn : 1 ≤ n) (rounds k : Nat) (g : Word) :
    kinvAttempts n rounds (k + 1) g
      = (some (kinvCandidate n rounds g).1, (kinvCandidate n rounds g).2) := by
  obtain ⟨a, b, -⟩ := kinvCandidate_spec hn rounds g
  rcases Mat.gaussJordanInverse_cases a hn with ⟨T, e, -⟩ | ⟨-, h⟩
  · simp [kinvAttempts, e]
  · exact absurd b h

theorem swapEntries_perm {p : List Nat} {i j : Nat} (hi : i < p.length) (hj : j < p.length) :
    (swapEntries p i j).Perm p := by
  have e : swapEntries p i j = (p.set i p[j]).set j p[i] := by simp [swapEntries, hi, hj]
  rw [e]
  exact List.set_set_perm hi hj

/-- The shuffle permutes the indices and draws once per step (43_keygen.md R187). -/
theorem fisherYates_spec : ∀ (i : Nat) (p : List Nat) (g : Word), i < p.length →
    (fisherYates i p g).1.Perm p ∧ (fisherYates i p g).2 = rngAfter i g := by
  intro i
  induction i with
  | zero => exact fun p g _ => ⟨.refl _, rfl⟩
  | succ i ih =>
    intro p g hi
    have hj : (xorshift32 g).toNat % (i + 2) < p.length :=
      lt_of_lt_of_le (Nat.mod_lt _ (by omega)) (by omega)
    have hp := swapEntries_perm hi hj
    have hl := hp.length_eq
    obtain ⟨a, b⟩ := ih (swapEntries p (i + 1) ((xorshift32 g).toNat % (i + 2))) (xorshift32 g) (by omega)
    exact ⟨a.trans hp, b⟩

theorem kpermShuffle_spec {n : Nat} (hn : 1 ≤ n) (g : Word) :
    (kpermShuffle n g).1.Perm (List.range n) ∧ (kpermShuffle n g).2 = rngAfter (n - 1) g :=
  fisherYates_spec (n - 1) (List.range n) g (by simp; omega)

theorem shape_permutationMatrix (p : List Nat) : Mat.HasShape (permutationMatrix p) p.length p.length := by
  refine ⟨by simp [permutationMatrix], fun row hrow => ?_⟩
  simp only [permutationMatrix, List.mem_map] at hrow
  obtain ⟨r, -, rfl⟩ := hrow
  simp

theorem wf_permutationMatrix_kperm {n : Nat} (h1 : 1 ≤ n) (h2 : n ≤ Config.dmax) (g : Word) :
    Mat.WF (permutationMatrix (kpermShuffle n g).1) := by
  have hl : (kpermShuffle n g).1.length = n := by simpa using (kpermShuffle_spec h1 g).1.length_eq
  have := shape_permutationMatrix (kpermShuffle n g).1
  rw [hl] at this
  exact this.wf h1 h1 h2 h2

/-! ## Lengths of the vector commands' results -/

theorem length_noiseBlock (noiseP n : Nat) (block : Vec) (g : Word) :
    (noiseBlock noiseP n block g).1.length = block.length := by
  simp only [noiseBlock]
  split <;> simp

theorem length_noiseBlocks (noiseP n : Nat) (blocks : List Vec) (g : Word) :
    (noiseBlocks noiseP n blocks g).1.length = blocks.flatten.length := by
  induction blocks generalizing g with
  | nil => rfl
  | cons block rest ih =>
    simp only [noiseBlocks, List.flatten_cons, List.length_append, length_noiseBlock]
    rw [ih]

theorem length_foldl_flip (ps : List Nat) (r : Vec) : (ps.foldl Vec.flip r).length = r.length := by
  induction ps generalizing r with
  | nil => rfl
  | cons p ps ih => simp [ih]

@[simp] theorem length_bchCorrect (r : Vec) : (bchCorrect r).length = r.length := by
  simp only [bchCorrect]
  repeat' split
  · rfl
  · simp
  · exact length_foldl_flip _ _

@[simp] theorem length_hammingCorrect (H : Mat) (block : Vec) : (hammingCorrect H block).length = block.length := by
  simp only [hammingCorrect]
  repeat' split
  all_goals simp

@[simp] theorem length_writeData (bits : Vec) (w : Nat) (v : Word) : (writeData bits w v).length = bits.length := by
  simp [writeData]

/-- A data write keeps the shape of the selected matrix (10_state.md R55). -/
theorem Mat.WF.modify_writeData {A : Mat} (h : Mat.WF A) (r w : Nat) (v : Word) :
    Mat.WF (A.modify r fun bits => writeData bits w v) := by
  have hrow : ∀ row ∈ A.modify r (fun bits => writeData bits w v), row.length = Mat.ncols A := by
    intro row hrow
    obtain ⟨i, hi, rfl⟩ := List.getElem_of_mem hrow
    have hi' : i < A.length := by simpa using hi
    rw [List.getElem_modify]
    split
    · rw [length_writeData]; exact h.2.2.1 _ (List.getElem_mem hi')
    · exact h.2.2.1 _ (List.getElem_mem hi')
  have hl : Mat.nrows (A.modify r fun bits => writeData bits w v) = Mat.nrows A := by simp [Mat.nrows]
  rcases Nat.eq_zero_or_pos (Mat.nrows A) with h0 | h0
  · obtain rfl := Mat.nrows_eq_zero.mp h0
    rw [List.modify_nil]
    exact Mat.wf_nil
  · exact Mat.HasShape.wf (R := Mat.nrows A) ⟨hl, hrow⟩ h0 (h.pos (by omega)).2 h.1 h.2.1

/-! ## The named updates of the state -/

theorem State.Inv.setM {s : State} (h : s.Inv) (d : Reg) {A : Mat} (hA : Mat.WF A) : (s.setM d A).Inv where
  matrices j := by
    rw [State.getM_setM]
    split
    · exact hA
    · exact h.matrices j
  vectors := h.vectors
  noise := h.noise
  code := h.code
  errIff := h.errIff
  cmdClear := h.cmdClear
  notBoth := h.notBoth

theorem State.Inv.setV {s : State} (h : s.Inv) (d : Reg) {v : Vec} (hv : Vec.WF v) : (s.setV d v).Inv where
  matrices := h.matrices
  vectors j := by
    rw [State.getV_setV]
    split
    · exact hv
    · exact h.vectors j
  noise := h.noise
  code := h.code
  errIff := h.errIff
  cmdClear := h.cmdClear
  notBoth := h.notBoth

theorem State.Inv.setX {s : State} (h : s.Inv) (d : Reg) (x : Scalar) : (s.setX d x).Inv :=
  ⟨h.matrices, h.vectors, h.noise, h.code, h.errIff, h.cmdClear, h.notBoth⟩

theorem State.Inv.setRng {s : State} (h : s.Inv) (g : Word) : (s.setRng g).Inv :=
  ⟨h.matrices, h.vectors, h.noise, h.code, h.errIff, h.cmdClear, h.notBoth⟩

theorem State.Inv.finish {s : State} (h : s.Inv) : s.finish.Inv :=
  ⟨h.matrices, h.vectors, h.noise, h.code, h.errIff, h.cmdClear, by simp⟩

theorem FaultCause.code_range (c : FaultCause) : c.code ≠ 0 ∧ c.code.toNat ≤ 6 := by cases c <;> decide

theorem State.Inv.takeFault {s : State} (h : s.Inv) (c : FaultCause) : (s.takeFault c).Inv where
  matrices := h.matrices
  vectors := h.vectors
  noise := h.noise
  code := by
    rw [State.takeFault_errcode]
    split
    · exact h.code
    · exact c.code_range.2
  errIff := by
    rw [State.takeFault_errcode, State.takeFault_err]
    cases he : s.err
    · simpa using c.code_range.1
    · simpa using h.errIff.mp he
  cmdClear := by simp
  notBoth := by simp

theorem State.Inv.acceptCommand {s : State} (h : s.Inv) (w : Word) : (acceptCommand w s).Inv :=
  ⟨h.matrices, h.vectors, h.noise, h.code, h.errIff, h.cmdClear, by simp⟩

theorem State.Inv.clearFault {s : State} (h : s.Inv) : s.clearFault.Inv :=
  ⟨h.matrices, h.vectors, h.noise, by simp, by simp, by simp, h.notBoth⟩

theorem State.Inv.noteOverrun {s : State} (h : s.Inv) : s.noteOverrun.Inv :=
  ⟨h.matrices, h.vectors, h.noise, h.code, h.errIff, h.cmdClear, h.notBoth⟩

theorem State.Inv.resetCore (s : State) : s.resetCore.Inv where
  matrices j := by rw [State.resetCore_getM]; exact Mat.wf_nil
  vectors j := by rw [State.resetCore_getV]; exact Nat.zero_le _
  noise := (by decide : State.reset.noiseP.toNat ≤ 65536)
  code := (by decide : State.reset.errcode.toNat ≤ 6)
  errIff := (by decide : State.reset.err = true ↔ State.reset.errcode ≠ 0)
  cmdClear _ := rfl
  notBoth := (by decide : State.reset.busy = true → State.reset.done = false)

theorem State.Inv.writeStatus {s : State} (h : s.Inv) (v : Word) : (s.writeStatus v).Inv := by
  have h1 : ({ s with done := s.done && !v.getLsbD 1, ovr := s.ovr && !v.getLsbD 3 } : State).Inv :=
    ⟨h.matrices, h.vectors, h.noise, h.code, h.errIff, h.cmdClear, fun hb => by simp [h.notBoth hb]⟩
  simp only [State.writeStatus]
  split
  · exact h1.clearFault
  · exact h1

theorem State.Inv.writeCtrl {s : State} (h : s.Inv) (v : Word) : (s.writeCtrl v).Inv := by
  simp only [State.writeCtrl]
  split
  · exact .resetCore s
  · exact ⟨h.matrices, h.vectors, h.noise, h.code, h.errIff, h.cmdClear, h.notBoth⟩

theorem State.Inv.writeSel {s : State} (h : s.Inv) (v : Word) : (s.writeSel v).Inv :=
  ⟨h.matrices, h.vectors, h.noise, h.code, h.errIff, h.cmdClear, h.notBoth⟩

theorem State.Inv.writeRow {s : State} (h : s.Inv) (v : Word) : (s.writeRow v).Inv :=
  ⟨h.matrices, h.vectors, h.noise, h.code, h.errIff, h.cmdClear, h.notBoth⟩

theorem State.Inv.writeKgRounds {s : State} (h : s.Inv) (v : Word) : (s.writeKgRounds v).Inv :=
  ⟨h.matrices, h.vectors, h.noise, h.code, h.errIff, h.cmdClear, h.notBoth⟩

theorem State.Inv.writeNoiseP {s : State} (h : s.Inv) (v : Word) : (s.writeNoiseP v).Inv :=
  ⟨h.matrices, h.vectors, by simp [State.writeNoiseP]; omega, h.code, h.errIff, h.cmdClear, h.notBoth⟩

theorem State.Inv.writeDim {s : State} (h : s.Inv) (v : Word) : (s.writeDim v).Inv := by
  simp only [State.writeDim]
  repeat' split
  all_goals first
    | exact h
    | exact h.setM _ Mat.wf_nil
    | skip
  · exact h.setM _ (Mat.wf_zeros (by omega) (by omega) (by omega) (by omega))
  · exact h.setV _ (by simp only [Vec.WF, Vec.length_zero]; omega)

theorem State.Inv.writeDataWord {s : State} (h : s.Inv) (w : Nat) (v : Word) : (s.writeDataWord w v).Inv := by
  simp only [State.writeDataWord]
  repeat' split
  · exact h.setM _ ((h.matrices _).modify_writeData _ _ _)
  · exact h.setV _ (by simpa only [Vec.WF, length_writeData] using h.vectors s.selIndex)
  · exact h.setX _ _
  · exact h
  · exact h

/-- A write to any register keeps the invariant. -/
theorem State.Inv.writeReg {s : State} (h : s.Inv) (r : MmioReg) (v : Word) : (s.writeReg r v).Inv := by
  cases r
  case ctrl => exact h.writeCtrl v
  case status => exact h.writeStatus v
  case cmd => exact h.acceptCommand v
  case noiseP => exact h.writeNoiseP v
  case kgRounds => exact h.writeKgRounds v
  case rngState => exact h.setRng v
  case sel => exact h.writeSel v
  case row => exact h.writeRow v
  case dim => exact h.writeDim v
  case data w => exact h.writeDataWord w v
  all_goals exact h

end Sys2Proof.Machine
end

