-- ==== Sys2Proof/Tests/Slice0.lean ====
section
/-!
SUPPORT. Tests: ill-formed terms, decoding by words of 95_test_vectors.md section 2.1, one-step tests whose expected
results are the spec's examples, and a witness for the hypotheses of every statement. A witness only shows that
hypotheses can be met; it takes no expected result from the model.
-/

namespace Sys2Proof.Tests

open Sys2Proof Sys2Proof.Machine

/-- A bit vector written as the spec writes it, coordinate 0 first. -/
def bits (text : String) : Vec := text.toList.map fun ch => ch == '1'

/-- Matrix registers M1..M5, M7, vector registers V0..V5, V7 and the scalars of the tests; M6 and V6 stay empty. -/
def tst : State :=
  { State.reset with
    mreg := #v[[bits "1"], [bits "101", bits "011"], [bits "10", bits "01", bits "11"], [bits "11", bits "01"],
      [bits "11", bits "11"], parHamming, [], [bits "11"]]
    vreg := #v[bits "100001000001100", bits "101000011001000", bits "1100", bits "1010", Vec.zero 30,
      bits "10000000000", [], bits "101"]
    xreg := #v[0, 2, 9, 15, 16, 29, 30, 0xFFFF] }

/-- tst with the command word w in flight. -/
def running (w : Word) : State := acceptCommand w tst

/-- The outcome is a next state with property p. -/
def ok (o : Host.Outcome State Fault Refusal) (p : State → Bool) : Bool :=
  match o with
  | .next t => p t
  | .fault _ => false
  | .refused _ => false

/-- The completion is a fault with cause code c. -/
def faults (c : BitVec 4) (o : Host.Outcome State Fault Refusal) : Bool :=
  ok o fun t => t.err && t.errcode == c && t.done && !t.busy

/-! ## Ill-formed commands (30_encoding.md R102): each check refuses one -/

theorem test_wf_midn : (Instr.midn 0 4096).wf = false := by decide
theorem test_wf_xli : (Instr.xli 0 4096).wf = false := by decide
theorem test_wf_mblk : (Instr.mblk 0 0 4096).wf = false := by decide
theorem test_wf_kinv : (Instr.kinv 0 4096).wf = false := by decide
theorem test_wf_kperm : (Instr.kperm 0 4096).wf = false := by decide
theorem test_wf_vnoise : (Instr.vnoise 0 0 64).wf = false := by decide
theorem test_wf_bsyn : (Instr.bsyn 0 0 4096).wf = false := by decide
theorem test_wf_vmsg_n : (Instr.vmsg 0 0 64 63).wf = false := by decide
theorem test_wf_vmsg_k : (Instr.vmsg 0 0 63 64).wf = false := by decide

/-! ## Decoding: E1 to E25 of 95_test_vectors.md section 2.1 -/

theorem test_decode_system_matrix :
    decodeTableWord 32 0x00000000 = some .nop ∧ decodeTableWord 32 0x01600201 = some (.midn 2 22) ∧
    decodeTableWord 32 0x00001402 = some (.mmov 4 1) ∧ decodeTableWord 32 0x00005703 = some (.mtrn 7 5) ∧
    decodeTableWord 32 0x00042604 = some (.mmul 6 2 4) ∧ decodeTableWord 32 0x00002305 = some (.minv 3 2) := by
  decide

theorem test_decode_galois :
    decodeTableWord 32 0xFFF00110 = some (.xli 1 4095) ∧ decodeTableWord 32 0x00001211 = some (.gexp 2 1) ∧
    decodeTableWord 32 0x00001212 = some (.glog 2 1) ∧ decodeTableWord 32 0x00010213 = some (.gmul 2 0 1) ∧
    decodeTableWord 32 0x00021314 = some (.gdiv 3 1 2) ∧ decodeTableWord 32 0x00021315 = some (.gpow 3 1 2) := by
  decide

theorem test_decode_code_keygen :
    decodeTableWord 32 0x00000020 = some (.cgeng 0 .ham) ∧ decodeTableWord 32 0x00100121 = some (.cgenh 1 .bch) ∧
    decodeTableWord 32 0x01100422 = some (.mblk 4 0 17) ∧ decodeTableWord 32 0x10000330 = some (.kinv 3 256) ∧
    decodeTableWord 32 0x01E00531 = some (.kperm 5 30) := by
  decide

theorem test_decode_encoder :
    decodeTableWord 32 0x00060140 = some (.vmul 1 0 6) ∧ decodeTableWord 32 0x00000541 = some (.vmov 5 0) ∧
    decodeTableWord 32 0x00003442 = some (.vxor 4 3 0) ∧ decodeTableWord 32 0x00F01143 = some (.vnoise 1 1 15) := by
  decide

theorem test_decode_decoder :
    decodeTableWord 32 0x01002050 = some (.bsyn 0 2 16) ∧ decodeTableWord 32 0x00012251 = some (.dham 2 2 1) ∧
    decodeTableWord 32 0x00001252 = some (.dbch 2 1) ∧ decodeTableWord 32 0x3C702353 = some (.vmsg 3 2 15 7) := by
  decide

/-- The same words, assembled from the lines of that table. -/
theorem test_assemble_words :
    (assembleWords "vmsg v3, V2, #0xF, #7 ; a comment".toList).toOption = some [0x3C702353] ∧
    (assembleWords "CGENH M1, #BCH".toList).toOption = some [0x00100121] ∧
    (assembleWords "PKEY M6, M3, M2, M5".toList).toOption = some [0x00023604, 0x00056604] := by
  decide

/-- What the assembler refuses (30_encoding.md R102, R104). -/
theorem test_assemble_refuses :
    (assembleLine "MIDN M8, #1".toList).toOption = none ∧ (assembleLine "MIDN V1, #1".toList).toOption = none ∧
    (assembleLine "XLI X1, #4096".toList).toOption = none ∧ (assembleLine "CGENG M0, #2".toList).toOption = none ∧
    (assembleLine "VNOISE V1, V1, #64".toList).toOption = none ∧
    (assembleLine "PKEY M5, M3, M2, M5".toList).toOption = none := by
  decide

/-- Illegal words of 95_test_vectors.md section 2.1, clauses (a), (b), (c), (d), (e) of 30_encoding.md R94. -/
theorem test_decode_illegal :
    decodeTableWord 32 0x00000006 = none ∧ decodeTableWord 32 0x00000054 = none ∧
    decodeTableWord 32 0x00100901 = none ∧ decodeTableWord 32 0x00009002 = none ∧
    decodeTableWord 32 0x00080004 = none ∧ decodeTableWord 32 0x80000000 = none ∧
    decodeTableWord 32 0x00110101 = none ∧ decodeTableWord 32 0x00102302 = none ∧
    decodeTableWord 32 0x00143204 = none ∧ decodeTableWord 32 0x3CB12353 = none ∧
    decodeTableWord 32 0x00200020 = none ∧ decodeTableWord 32 0x04F01143 = none := by
  decide

theorem test_encode_words :
    encode (.vmsg 3 2 15 7) = 0x3C702353 ∧ encode (.kinv 3 256) = 0x10000330 ∧ encode (.cgenh 1 .bch) = 0x00100121 := by
  decide

/-! ## One step: the examples of the command rules -/

theorem test_nop : ok (exec .nop tst) (fun t => t.done && t == { tst with done := true }) = true := by decide

theorem test_midn : ok (exec (.midn 0 3) tst)
    (fun t => t.getM 0 == [bits "100", bits "010", bits "001"]) = true := by decide
theorem test_midn_zero : faults 2 (exec (.midn 0 0) tst) = true := by decide

theorem test_mmov : ok (exec (.mmov 4 7) tst) (fun t => t.getM 4 == [bits "11"]) = true := by decide
theorem test_mmov_empty : faults 2 (exec (.mmov 4 6) tst) = true := by decide

theorem test_mtrn : ok (exec (.mtrn 2 1) tst) (fun t => t.getM 2 == [bits "10", bits "01", bits "11"]) = true := by
  decide
theorem test_mtrn_in_place : ok (exec (.mtrn 7 7) tst) (fun t => t.getM 7 == [bits "1", bits "1"]) = true := by
  decide

theorem test_mmul : ok (exec (.mmul 0 1 2) tst) (fun t => t.getM 0 == [bits "01", bits "10"]) = true := by decide
theorem test_mmul_mismatch : faults 2 (exec (.mmul 0 1 1) tst) = true := by decide

theorem test_minv : ok (exec (.minv 0 3) tst) (fun t => t.getM 0 == [bits "11", bits "01"]) = true := by decide
theorem test_minv_singular : ok (exec (.minv 0 4) tst)
    (fun t => t.errcode == 3 && t.getM 0 == tst.getM 0) = true := by decide

theorem test_xli : ok (exec (.xli 1 9) tst) (fun t => t.getX 1 == 9) = true := by decide

theorem test_gexp : ok (exec (.gexp 2 1) (tst.setX 1 7)) (fun t => t.getX 2 == 11) = true := by decide
theorem test_gexp_range : ok (exec (.gexp 2 5) tst) (fun t => t.getX 2 == 9) && faults 5 (exec (.gexp 2 6) tst) = true := by
  decide

theorem test_glog : ok (exec (.glog 1 2) tst) (fun t => t.getX 1 == 14) = true := by decide
theorem test_glog_zero : faults 5 (exec (.glog 2 0) tst) = true := by decide

theorem test_gmul : ok (exec (.gmul 0 1 2) tst) (fun t => t.getX 0 == 1) = true := by decide
theorem test_gmul_domain : faults 5 (exec (.gmul 0 1 4) tst) = true := by decide

theorem test_gdiv : ok (exec (.gdiv 3 0 1) (tst.setX 0 1)) (fun t => t.getX 3 == 9) = true := by decide
theorem test_gdiv_zero : faults 4 (exec (.gdiv 3 1 0) tst) && ok (exec (.gdiv 3 0 0) tst)
    (fun t => t.getX 3 == 0 && !t.err) = true := by decide

theorem test_gpow : ok (exec (.gpow 3 1 7) tst) (fun t => t.getX 3 == 9) = true := by decide
theorem test_gpow_zero : faults 5 (exec (.gpow 3 0 7) tst) && ok (exec (.gpow 3 0 0) tst)
    (fun t => t.getX 3 == 1) = true := by decide

theorem test_cgeng : ok (exec (.cgeng 0 .ham) tst)
    (fun t => (t.getM 0).length == 11 && Mat.row (t.getM 0) 0 == bits "100000000001100") = true := by decide
theorem test_cgeng_bch : ok (exec (.cgeng 0 .bch) tst)
    (fun t => (t.getM 0).length == 7 && Mat.row (t.getM 0) 6 == bits "000000111010001") = true := by decide
theorem test_cgenh : ok (exec (.cgenh 1 .bch) tst)
    (fun t => (t.getM 1).length == 8 && Mat.row (t.getM 1) 0 == bits "100010110000000") = true := by decide

theorem test_mblk : ok (exec (.mblk 2 7 2) tst) (fun t => t.getM 2 == [bits "1100", bits "0011"]) = true := by decide
theorem test_mblk_zero : faults 2 (exec (.mblk 2 7 0) tst) = true := by decide

theorem test_kinv : ok (exec (.kinv 0 3) { tst with kgRounds := 1 })
    (fun t => t.getM 0 == [bits "101", bits "010", bits "001"] && t.rng == 0x04080601) = true := by decide

theorem test_kperm : ok (exec (.kperm 0 4) tst)
    (fun t => t.getM 0 == [bits "1000", bits "0010", bits "0001", bits "0100"] && t.rng == 0x9DCCA8C5) = true := by
  decide

theorem test_vmul : ok (exec (.vmul 1 5 0) (tst.setM 0 genHamming))
    (fun t => t.getV 1 == bits "100000000001100") = true := by decide
theorem test_vmul_mismatch : faults 2 (exec (.vmul 1 0 0) tst) = true := by decide

theorem test_vmov : ok (exec (.vmov 5 7) tst) (fun t => t.getV 5 == bits "101") = true := by decide

theorem test_vxor : ok (exec (.vxor 2 2 3) tst) (fun t => t.getV 2 == bits "0110") = true := by decide
theorem test_vxor_length : faults 2 (exec (.vxor 2 2 7) tst) = true := by decide

theorem test_vnoise : ok (exec (.vnoise 2 4 15) tst)
    (fun t => t.getV 2 == bits "000010000000000000000000000000" && t.rng == 0x9DCCA8C5) = true := by decide
theorem test_vnoise_shape : faults 2 (exec (.vnoise 2 4 0) tst) && faults 2 (exec (.vnoise 2 4 7) tst) = true := by
  decide

theorem test_bsyn : ok (exec (.bsyn 0 1 0) tst) (fun t => t.getX 0 == 0x00D9) = true := by decide
theorem test_bsyn_range : faults 2 (exec (.bsyn 0 1 1) tst) = true := by decide

theorem test_dham : ok (exec (.dham 2 0 5) tst) (fun t => t.getV 2 == bits "100000000001100") = true := by decide

theorem test_dbch : ok (exec (.dbch 2 1) tst) (fun t => t.getV 2 == bits "100000011101000") = true := by decide
theorem test_dbch_length : faults 2 (exec (.dbch 2 2) tst) = true := by decide

theorem test_vmsg : ok (exec (.vmsg 3 2 15 11) (tst.setV 2 (bits "100000000001100")))
    (fun t => t.getV 3 == bits "10000000000") = true := by decide

/-! ## The window and the step: S3, S5, S8 to S13 of 95_test_vectors.md section 2.8, access by access -/

theorem test_dropped_command : (mmioWrite 0x10 0 (running 0x00300001)).statusWord = 0x00000009 ∧
    (mmioWrite 0x10 0 (running 0x00300001)).cmd = 0x00300001 := by decide

theorem test_busy_read : (mmioRead 0x80 (running 0x00001241)).1 = 0 ∧
    (mmioRead 0x10 (running 0x00001241)).1 = 0x00001241 := by decide

theorem test_dim_ignored : (mmioWrite 0x48 257 (mmioWrite 0x40 0x10 State.reset)) = mmioWrite 0x40 0x10 State.reset := by
  decide

theorem test_matrix_data : (mmioRead 0x80 (mmioWrite 0x80 0xFFFFFFFF (mmioWrite 0x44 1 (mmioWrite 0x48 0x00030005
    State.reset)))).1 = 0x0000001F := by decide

theorem test_scalar_data : (mmioWrite 0x80 0x00012345 (mmioWrite 0x40 0x25 State.reset)).getX 5 = 0x2345 := by decide

theorem test_sel_reserved_bits : (mmioRead 0x40 (mmioWrite 0x40 0xFFFFFFFF State.reset)).1 = 0x00000037 := by decide

theorem test_soft_reset : mmioWrite 0x08 0x80000003 (running 0x0C800330) = State.reset := by decide

theorem test_fault_irq : ok (runCommand (acceptCommand 0x00000001 { State.reset with ieErr := true }))
    (fun t => t.irq && t.errcode == 2 && t.errcmd == 0x00000001 && !(mmioWrite 0x0C 4 t).irq &&
      (mmioWrite 0x0C 4 t).statusWord == 2) = true := by decide

theorem test_step_completes : ok (step (running 0x00300001)) (fun t => t.statusWord == 2 && (t.getM 0).length == 3) = true := by
  decide

theorem test_fetch_word : ok (step (State.reset.withFetchWord 32 0x00900110)) (fun t => t.getX 1 == 9 && t.bus == []) = true := by
  decide

/-! ## Witnesses: concrete states and operands that meet the hypotheses of the statements, at their boundaries -/

/-- tst meets the invariant. -/
theorem test_witness_inv : tst.Inv := ⟨by decide, by decide, by decide, by decide, by decide, by decide, by decide⟩

/-- So does tst while a command runs, with a fault recorded. -/
theorem test_witness_inv_busy : ({ running 0 with err := true, errcode := 6, errcmd := 1 } : State).Inv :=
  ⟨by decide, by decide, by decide, by decide, by decide, by decide, by decide⟩

theorem test_witness_DecodeOfEncode : (Instr.vmsg 7 7 63 63).wf = true ∧ (Instr.midn 7 4095).wf = true := by decide

theorem test_witness_EncodeOfDecode : decode 0xFFF00710 = .ok (.xli 7 4095) := rfl

theorem test_witness_IllegalWordsAreThoseOfR94 : decode 0xFFFFFFFF = .error .unassignedOpcode ∧
    decode 0x00000800 = .error .reservedBitSet ∧ decode 0x00001002 = .ok (.mmov 0 1) ∧
    decode 0x00000100 = .error .unusedFieldNonzero ∧ decode 0x00200021 = .error .familyOutOfRange ∧
    decode 0x04000043 = .error .blockLengthTooWide := ⟨rfl, rfl, rfl, rfl, rfl, rfl⟩

theorem test_witness_AssembledLinesDecode :
    assembleLine "UNPERM V2, V1, M5, M7".toList = .ok [.mtrn 7 5, .vmul 2 1 7] := rfl

theorem test_witness_StepRunsDecodedCommand : (running 0x00300001).busy = true ∧ (running 0x00300001).bus = [] ∧
    decodeTableWord 32 (running 0x00300001).cmd.toNat = some (.midn 0 3) ∧
    ({ running 0x00300001 with bus := [.completion] } : State).bus = .completion :: [] ∧
    (running 6).busy = true ∧ decodeTableWord 32 (running 6).cmd.toNat = none ∧
    tst.busy = false ∧ tst.bus = [] := by decide

/-- The events of the step: a write (to SEL), a read (of ID), a reset, and a completion while idle. -/
theorem test_witness_StepRunsDecodedCommand_events :
    ok (step { tst with bus := [.write 0x40 0x25, .read 0] }) (fun t =>
      t.selIndex == 5 && t.selKind == .scalar && t.bus == [.read 0]) = true ∧
    ok (step { tst with bus := [.read 0] }) (fun t => t.lastRead == some 0x47460104 && t.bus == []) = true ∧
    ok (step { running 0 with bus := [.hardReset] }) (fun t => t == State.reset) = true ∧
    ok (step { tst with bus := [.completion] }) (fun t => t == tst) = true := by decide

theorem test_witness_AcceptanceOfACommand : 0x10 / 4 % 64 = 4 ∧ 0x13 / 4 % 64 = 4 ∧ 0x110 / 4 % 64 = 4 ∧
    tst.busy = false ∧ (running 0).busy = true ∧ decodeTableWord 32 6 = none ∧ decodeTableWord 32 0 = some .nop := by
  decide

/-- The ways to complete are met: an illegal word, a command, and a command that faults (KINV of size 0). -/
theorem test_witness_CompletionOfAcceptedCommand : (running 0xFFFFFFFF).busy = true ∧
    faults 1 (runCommand (running 0xFFFFFFFF)) = true ∧ (running 0).busy = true ∧
    ok (runCommand (running 0)) (fun t => !t.err) = true ∧ (running 0x30).busy = true ∧
    faults 2 (runCommand (running 0x30)) = true := by decide

theorem test_witness_StepStopsOnlyOnNarrowAccess : (running 0).FullAccessNext ∧
    ({ tst with bus := [.narrow 3] } : State).bus = .narrow 3 :: [] :=
  ⟨fun _ _ h => (nomatch h), rfl⟩

theorem test_witness_FirstFaultCapture :
    ok (runCommand { running 0xFFFFFFFF with err := true, errcode := 5 }) (fun t => t.errcode == 5) = true ∧
    ok (runCommand (running 0xFFFFFFFF)) (fun t => t.err && t.errcmd == 0xFFFFFFFF) = true ∧
    ok (runCommand (running 0)) (fun t => !t.err) = true := by decide

theorem test_witness_CausesOfEachCommand : tst.err = false ∧ faults 3 (exec (.minv 0 4) tst) = true ∧
    faults 4 (exec (.gdiv 0 1 0) tst) = true ∧ faults 2 (exec (.kinv 0 257) tst) = true := by decide

theorem test_witness_StatusWriteOneToClear : 0x0C / 4 % 64 = 3 ∧ 0x0F / 4 % 64 = 3 ∧
    (4 : Word).getLsbD 2 = true ∧ (running 0x06).busy = true ∧ decodeTableWord 32 (running 0x06).cmd.toNat = none := by
  decide

/-- The three ways ERR is cleared. -/
theorem test_witness_StatusWriteOneToClear_steps :
    ok (step { running 0 with err := true, bus := [.write 0x0F 4] }) (fun t => !t.err) = true ∧
    ok (step { running 0 with err := true, bus := [.write 0x08 0x80000000] }) (fun t => !t.err) = true ∧
    ok (step { running 0 with err := true, bus := [.hardReset] }) (fun t => !t.err) = true := by decide

theorem test_witness_NopCompletes : field (running 0x100).cmd 7 0 = 0 ∧ field (running 0x100).cmd 31 8 ≠ 0 ∧
    field (running 0x80000000).cmd 31 8 ≠ 0 := by decide

theorem test_witness_RegisterFilesReadAfterWrite : (0 : Reg) ≠ 7 := by decide

theorem test_witness_MatrixCommandsFrame : Instr.dest (.kinv 7 3) = .m 7 ∧ Instr.dest (.minv 0 4) = .m 0 ∧
    ok (exec (.kinv 7 3) { tst with kgRounds := 1 }) (fun t => !t.err) = true ∧ faults 3 (exec (.minv 0 4) tst) = true := by
  decide

theorem test_witness_ScalarCommandsFrame : Instr.dest (.gmul 7 1 2) = .x 7 ∧ Instr.dest (.bsyn 0 1 1) = .x 0 ∧
    ok (exec (.gmul 7 1 2) tst) (fun t => !t.err) = true ∧ faults 2 (exec (.bsyn 0 1 1) tst) = true := by decide

theorem test_witness_VectorCommandsFrame : Instr.dest (.vnoise 7 4 15) = .v 7 ∧ Instr.dest (.dbch 0 2) = .v 0 ∧
    ok (exec (.vnoise 7 4 15) tst) (fun t => !t.err) = true ∧ faults 2 (exec (.dbch 0 2) tst) = true := by decide

theorem test_witness_Midn : (1 ≤ 1 ∧ 1 ≤ 256) ∧ (1 ≤ 256 ∧ 256 ≤ 256) ∧ (0 = 0 ∨ 256 < 0) ∧ (257 = 0 ∨ 256 < 257) := by
  decide

theorem test_witness_MmovVmov : Mat.nrows (tst.getM 0) ≠ 0 ∧ Mat.nrows (tst.getM 6) = 0 ∧
    (tst.getV 7).length ≠ 0 ∧ (tst.getV 6).length = 0 := by decide

theorem test_witness_Mtrn : Mat.nrows (tst.getM 1) ≠ 0 ∧ Mat.nrows (tst.getM 6) = 0 := by decide

theorem test_witness_Mmul : Mat.nrows (tst.getM 1) ≠ 0 ∧ Mat.nrows (tst.getM 2) ≠ 0 ∧
    Mat.ncols (tst.getM 1) = Mat.nrows (tst.getM 2) ∧ Mat.nrows (tst.getM 6) = 0 ∧
    Mat.ncols (tst.getM 1) ≠ Mat.nrows (tst.getM 1) := by decide

theorem test_witness_Minv_invertible : Mat.nrows (tst.getM 3) = 2 ∧ Mat.ncols (tst.getM 3) = 2 ∧
    Mat.Invertible (tst.getM 3) 2 := ⟨by decide, by decide, [bits "11", bits "01"], by decide, by decide⟩

theorem test_witness_Minv_singular : Mat.nrows (tst.getM 4) = 2 ∧ Mat.ncols (tst.getM 4) = 2 ∧
    ¬ Mat.Invertible (tst.getM 4) 2 := by
  refine ⟨by decide, by decide, fun ⟨B, hB, e⟩ => ?_⟩
  have h : Mat.row (Mat.mul (tst.getM 4) B) 0 = Mat.row (Mat.mul (tst.getM 4) B) 1 := rfl
  rw [e] at h
  exact absurd h (by decide)

theorem test_witness_Minv_shape : Mat.nrows (tst.getM 6) = 0 ∧ Mat.nrows (tst.getM 1) ≠ Mat.ncols (tst.getM 1) := by
  decide

theorem test_witness_XliLoadsImmediate : 0 ≤ 4095 ∧ 4095 ≤ 4095 := by decide

theorem test_witness_Gexp : (tst.getX 5).toNat ≤ 29 ∧ 30 ≤ (tst.getX 6).toNat := by decide

theorem test_witness_Glog : 1 ≤ (tst.getX 3).toNat ∧ (tst.getX 3).toNat ≤ 15 ∧ (tst.getX 0).toNat = 0 ∧
    15 < (tst.getX 4).toNat := by decide

theorem test_witness_Gmul_Gdiv_Gpow : (tst.getX 3).toNat ≤ 15 ∧ (tst.getX 0).toNat ≤ 15 ∧
    ((tst.getX 3).setWidth 4 : Gf) ≠ 0 ∧ ((tst.getX 0).setWidth 4 : Gf) = 0 ∧ 15 < (tst.getX 4).toNat ∧
    (tst.getX 0).toInt = 0 ∧ 0 < (tst.getX 4).toInt ∧ (tst.getX 7).toInt < 0 := by decide

theorem test_witness_Mblk : Mat.nrows (tst.getM 0) ≠ 0 ∧ 256 * Mat.nrows (tst.getM 0) ≤ 256 ∧
    256 * Mat.ncols (tst.getM 0) ≤ 256 ∧ Mat.nrows (tst.getM 6) = 0 ∧ 256 < 257 * Mat.nrows (tst.getM 0) ∧
    256 < 129 * Mat.ncols (tst.getM 7) := by decide

theorem test_witness_Kinv : (1 ≤ 256 ∧ 256 ≤ 256) ∧ (2 ≤ 2 ∧ 2 ≤ 256) ∧ 256 < 257 ∧
    ({ tst with kgRounds := 0 } : State).kgRounds = 0 ∧ ok (exec (.kinv 0 2) { tst with kgRounds := 2 }) (fun _ => true) = true := by
  decide

theorem test_witness_Draw : (1 : Nat) ≤ 1 ∧ (1 : Nat) ≤ 2 ^ 32 ∧ xorshift32 0 = 0 := by decide

theorem test_witness_Vmul : (tst.getV 7).length ≠ 0 ∧ Mat.nrows (tst.getM 2) ≠ 0 ∧
    (tst.getV 7).length = Mat.nrows (tst.getM 2) ∧ (tst.getV 6).length = 0 ∧ Mat.nrows (tst.getM 6) = 0 ∧
    (tst.getV 2).length ≠ Mat.nrows (tst.getM 2) := by decide

theorem test_witness_Vxor : (tst.getV 2).length ≠ 0 ∧ (tst.getV 2).length = (tst.getV 3).length ∧
    (tst.getV 6).length = 0 ∧ (tst.getV 2).length ≠ (tst.getV 7).length := by decide

theorem test_witness_Vnoise : (tst.getV 4).length ≠ 0 ∧ (tst.getV 4).length % 15 = 0 ∧
    (tst.getV 4).length % 1 = 0 ∧ (tst.getV 4).length % 30 = 0 ∧ (tst.getV 6).length = 0 ∧
    (tst.getV 4).length % 7 ≠ 0 ∧ field (running 0x04F01143).cmd 7 0 = 0x43 ∧
    field (running 0x04F01143).cmd 31 26 ≠ 0 := by decide

theorem test_witness_Bsyn : 15 * (1 + 1) ≤ (tst.getV 4).length ∧ (tst.getV 4).length < 15 * (2 + 1) ∧
    (tst.getV 6).length < 15 * (0 + 1) := by decide

/-- V0 is one block with a nonzero syndrome, V4 two blocks of syndrome 0, V5 no whole number of blocks. -/
theorem test_witness_Dham : (tst.getV 0).length ≠ 0 ∧ Mat.nrows (tst.getM 5) ≠ 0 ∧
    (tst.getV 0).length % Mat.ncols (tst.getM 5) = 0 ∧ (tst.getV 4).length % Mat.ncols (tst.getM 5) = 0 ∧
    xorSum 15 (fun j => Vec.bit (tst.getV 0) j && Mat.bit (tst.getM 5) 1 j) = true ∧
    (tst.getV 6).length = 0 ∧ Mat.nrows (tst.getM 6) = 0 ∧ (tst.getV 5).length % Mat.ncols (tst.getM 5) ≠ 0 := by
  decide

/-- By 45_decoder.md R224: with H = rows 10, 01 the syndrome of 11 is no column, and the block stays; with H = row 11
the syndrome of 01 is both columns, and the smallest is flipped. -/
theorem test_witness_Dham_columns :
    ok (exec (.dham 0 2 0) ((tst.setM 0 [bits "10", bits "01"]).setV 2 (bits "11"))) (fun t => t.getV 0 == bits "11") = true ∧
    ok (exec (.dham 0 2 0) ((tst.setM 0 [bits "11"]).setV 2 (bits "01"))) (fun t => t.getV 0 == bits "11") = true := by
  decide

theorem test_witness_Dbch : (tst.getV 1).length ≠ 0 ∧ (tst.getV 1).length % 15 = 0 ∧ (bchSyn (tst.getV 1)).1 ≠ 0 ∧
    (bchSyn (tst.getV 4)).1 = 0 ∧ (bchSyn (bits "000000000000001")) = (1, 1) ∧ (tst.getV 6).length = 0 ∧
    (tst.getV 5).length % 15 ≠ 0 := by decide

theorem test_witness_Vmsg : (tst.getV 4).length ≠ 0 ∧ (1 ≤ 15 ∧ 15 ≤ 15 ∧ (tst.getV 4).length % 15 = 0) ∧
    (1 ≤ 1 ∧ 1 ≤ 30 ∧ (tst.getV 4).length % 30 = 0) ∧ (tst.getV 6).length = 0 ∧ (11 < 12) ∧
    (tst.getV 4).length % 11 ≠ 0 := by decide

/-- V0 is row 0 of G_HAM with coordinate 5 flipped, M5 is H_HAM. -/
theorem test_witness_DhamCorrects : tst.getM 5 = parHamming ∧ (tst.getV 0).length = 15 ∧
    Vec.block 15 0 (bits "100000000001100") = Vec.mulMat (bits "10000000000") genHamming ∧
    Vec.distance (Vec.block 15 0 (tst.getV 0)) (Vec.block 15 0 (bits "100000000001100")) = 1 := by decide

/-- V1 is row 0 of G_BCH with coordinates 2 and 9 flipped. -/
theorem test_witness_DbchCorrects : (tst.getV 1).length = 15 ∧
    Vec.block 15 0 (bits "100000011101000") = Vec.mulMat (bits "1000000") genBch ∧
    Vec.distance (Vec.block 15 0 (tst.getV 1)) (Vec.block 15 0 (bits "100000011101000")) = 2 := by decide

theorem test_witness_DecodingInvertsEncoding : Mat.HasShape (Mat.identity 7) (1 * 7) (1 * 7) ∧
    Mat.nrows (generatorMatrix .bch) = 7 ∧ Mat.mul (Mat.identity 7) (Mat.identity 7) = Mat.identity (1 * 7) ∧
    Mat.HasShape (permutationMatrix (kpermShuffle 15 1).1) (1 * 15) (1 * 15) ∧
    Mat.mul (permutationMatrix (kpermShuffle 15 1).1) (Mat.transpose (permutationMatrix (kpermShuffle 15 1).1)) =
      Mat.identity (1 * 15) ∧ (bits "1011001").length = 1 * 7 := by decide

theorem test_witness_ConstantAndReservedRegisters : 0x03 / 4 % 64 = 0 ∧ 0x04 / 4 % 64 = 1 ∧ 0x20 / 4 % 64 = 8 ∧
    0x27 / 4 % 64 = 9 ∧ tst.err = false ∧ 0x28 / 4 % 64 = 10 ∧
    0x3C / 4 % 64 = 15 ∧ 0x4C / 4 % 64 = 19 ∧ 0x7C / 4 % 64 = 31 ∧ 0xA0 / 4 % 64 = 40 ∧ 0xFC / 4 % 64 = 63 := by decide

theorem test_witness_AccessesWhileBusy : (running 0).busy = true ∧ 0x10 / 4 % 64 = 4 ∧ 0x14 / 4 % 64 = 5 ∧
    0x1C / 4 % 64 = 7 ∧ 0x48 / 4 % 64 = 18 ∧ 0x80 / 4 % 64 = 32 ∧ 0x9C / 4 % 64 = 39 ∧ 0x0C / 4 % 64 = 3 ∧
    0x20 / 4 % 64 = 8 ∧ 0xA0 / 4 % 64 = 40 := by decide

theorem test_witness_ResetValues : 0x08 / 4 % 64 = 2 ∧ 0x0B / 4 % 64 = 2 ∧ (0x80000000 : Word).getLsbD 31 = true := by
  decide

theorem test_witness_ParameterRegistersReadBack : tst.busy = false ∧ (0x7FFFFFFF : Word).getLsbD 31 = false := by decide

/-- ERRCODE and ERRCMD through the window, a fault recorded. -/
theorem test_fault_record_read : (mmioRead 0x20 { tst with err := true, errcode := 6, errcmd := 0x30 }).1 = 6 ∧
    (mmioRead 0x24 { tst with err := true, errcode := 6, errcmd := 0x30 }).1 = 0x30 := by decide

/-- The DIM clauses: 257 rows, 0 rows, 256 by 256, and the four kinds. -/
theorem test_witness_Dim : tst.busy = false ∧ tst.selKind = .matrix ∧
    (256 < (0x01010001 : Word).toNat / 2 ^ 16 % 512) ∧ ((0x00000007 : Word).toNat / 2 ^ 16 % 512 = 0) ∧
    ((0x01000100 : Word).toNat / 2 ^ 16 % 512 = 256 ∧ (0x01000100 : Word).toNat % 512 = 256) ∧
    (256 < (257 : Word).toNat % 512) ∧ ({ tst with selKind := .vector } : State).selKind = .vector ∧
    ({ tst with selKind := .scalar } : State).selKind = .scalar ∧
    ({ tst with selKind := .unselected } : State).selKind = .unselected := by decide

theorem test_witness_DataWindowOfAMatrix : tst.busy = false ∧ tst.selKind = .matrix ∧ 7 < 8 ∧
    tst.row.toNat < Mat.nrows (tst.getM tst.selIndex) ∧
    Mat.nrows (({ tst with row := 511 } : State).getM 0) ≤ ({ tst with row := 511 } : State).row.toNat := by decide

theorem test_witness_DataWindowOfAVectorOrScalar :
    ({ tst with selKind := .vector } : State).busy = false ∧ 0 < (({ tst with selKind := .vector } : State).getV 0).length ∧
    ({ tst with selKind := .scalar } : State).selKind = .scalar ∧
    ({ tst with selKind := .unselected } : State).selKind = .unselected := by decide

theorem test_witness_HostCannotDisturbACommand : (running 0x00001241).busy = true ∧
    ∀ e ∈ [Event.read 0x80, .write 0x10 0, .write 0x08 1, .write 0x0C 0xFFFFFFFF, .write 0x40 0x13], e.hostAccess := by
  refine ⟨by decide, fun e he => ?_⟩
  simp only [List.mem_cons, List.not_mem_nil, or_false] at he
  rcases he with rfl | rfl | rfl | rfl | rfl
  · exact trivial
  all_goals
    unfold Event.hostAccess
    decide

theorem test_witness_StepKeepsInvariant : ok (step (running 0x00300001)) (fun _ => true) = true := by decide

/-- M1 times M2 is 2 x 2, so M3 can follow; V7 is as long as M1 is wide. -/
theorem test_witness_PseudoCommandsExpand : (0 : Reg) ≠ 3 ∧ Mat.ncols (tst.getM 1) = Mat.nrows (tst.getM 2) ∧
    Mat.ncols (tst.getM 2) = Mat.nrows (tst.getM 3) ∧ (tst.getV 7).length = Mat.ncols (tst.getM 1) ∧
    Mat.nrows (tst.getM 1) ≠ 0 ∧ Mat.nrows (tst.getM 2) ≠ 0 ∧ Mat.nrows (tst.getM 3) ≠ 0 := by decide

end Sys2Proof.Tests
end

/-! # The proofs of the family 10_state

## The invariant along a step (O58, O59)

A command's result is built from checks and one write, so its legality follows from a rule per check; the accesses of
the host keep the invariant by the lemmas about the named updates. -/

namespace Sys2Proof.Machine

/-- A result a command may complete with: when it writes a state, that state meets the invariant. -/
def LegalResult (r : Except FaultCause State) : Prop := ∀ u, r = .ok u → u.Inv

theorem LegalResult.ok {u : State} (h : u.Inv) : LegalResult (.ok u) := by
  intro u' e
  cases e
  exact h

theorem LegalResult.error (c : FaultCause) : LegalResult (.error c) := fun _ e => nomatch e

theorem LegalResult.require {c : FaultCause} {p : Prop} [Decidable p] {f : Unit → Except FaultCause State}
    (hf : p → LegalResult (f ())) : LegalResult (require c p >>= f) := by
  rw [require_bind]
  split
  · exact hf ‹p›
  · exact .error c

theorem LegalResult.sizeImm {n : Nat} {f : Unit → Except FaultCause State}
    (hf : 1 ≤ n → n ≤ Config.dmax → LegalResult (f ())) : LegalResult (sizeImm n >>= f) :=
  .require fun hn => hf hn.1 hn.2

theorem LegalResult.matOperand {s : State} {a : Reg} {f : Mat → Except FaultCause State} (h : s.Inv)
    (hf : ∀ A, Mat.WF A → Mat.nrows A ≠ 0 → LegalResult (f A)) : LegalResult (matOperand s a >>= f) := by
  rw [matOperand_bind]
  split
  · exact .error .shape
  · exact hf _ (h.matrices a) ‹_›

theorem LegalResult.vecOperand {s : State} {a : Reg} {f : Vec → Except FaultCause State} (h : s.Inv)
    (hf : ∀ v, Vec.WF v → LegalResult (f v)) : LegalResult (vecOperand s a >>= f) := by
  rw [vecOperand_bind]
  split
  · exact .error .shape
  · exact hf _ (h.vectors a)

/-- The completion of a command with a legal result, normal or faulting, keeps the invariant. -/
theorem LegalResult.complete_inv {s t : State} {r : Except FaultCause State} (hr : LegalResult r) (h : s.Inv)
    (ht : complete s r = .next t) : t.Inv := by
  cases r with
  | ok u =>
    cases ht
    exact (hr u rfl).finish
  | error c =>
    cases ht
    exact h.takeFault c

/-! ### Lengths of the block-by-block results -/

/-- A block-by-block map that keeps the length of a block keeps the length of a vector made of whole blocks. -/
theorem Vec.length_flatMap_blocks_of_keeps {n : Nat} {v : Vec} {f : Vec → Vec} (hmod : v.length % n = 0)
    (hf : ∀ block, (f block).length = block.length) :
    ((Vec.blocks n (v.length / n) v).flatMap f).length = v.length := by
  have hl : v.length = v.length / n * n := (Nat.div_mul_cancel (Nat.dvd_of_mod_eq_zero hmod)).symm
  rw [Vec.length_flatMap_blocks hl fun block hb => (hf block).trans hb, ← hl]

/-- Taking k of every n coordinates does not lengthen a vector made of whole blocks. -/
theorem Vec.length_flatMap_take_le {n k : Nat} {v : Vec} (hk : k ≤ n) (hmod : v.length % n = 0) :
    ((Vec.blocks n (v.length / n) v).flatMap (List.take k)).length ≤ v.length := by
  have hl : v.length = v.length / n * n := (Nat.div_mul_cancel (Nat.dvd_of_mod_eq_zero hmod)).symm
  rw [Vec.length_flatMap_blocks hl fun block hb => by rw [List.length_take, hb, Nat.min_eq_left hk]]
  calc v.length / n * k ≤ v.length / n * n := Nat.mul_le_mul_left _ hk
    _ = v.length := hl.symm

/-- Noise keeps the length of a vector made of whole blocks (44_encoder.md R206). -/
theorem Vec.length_noiseBlocks_blocks {n : Nat} {v : Vec} (hmod : v.length % n = 0) (noiseP : Nat) (g : Word) :
    (noiseBlocks noiseP n (Vec.blocks n (v.length / n) v) g).1.length = v.length := by
  rw [length_noiseBlocks, Vec.flatten_blocks (Nat.div_mul_cancel (Nat.dvd_of_mod_eq_zero hmod)).symm]

/-! ### The commands -/

/-- A command that writes no matrix and no vector keeps the invariant, whatever it computes. -/
theorem exec_inv_of_scalar {i : Instr} {s t : State} (h : s.Inv) (hd : i.dest = .none ∨ ∃ d, i.dest = .x d)
    (ht : exec i s = .next t) : t.Inv := by
  rcases exec_outcome i s with ⟨g, u, -, hw, e⟩ | ⟨g, c, -, -, e⟩
  · have hu : u.Inv := by
      rcases hd with hd | ⟨d, hd⟩
      · rw [hd] at hw
        rwa [show u = s from hw]
      · rw [hd] at hw
        obtain ⟨x, rfl⟩ := hw
        exact h.setX d x
    cases e.symm.trans ht
    exact (hu.setRng g).finish
  · cases e.symm.trans ht
    exact (h.setRng g).takeFault c

/-- KINV keeps the invariant: its first candidate has the size asked for (43_keygen.md R184, R185). -/
theorem execKinv_inv {d : Reg} {n : Nat} {s t : State} (h : s.Inv) (ht : execKinv d n s = .next t) : t.Inv := by
  unfold execKinv at ht
  split at ht
  · rename_i hn
    have hT := (kinvCandidate_spec hn.1 s.kgRounds.toNat s.rng).1
    rw [show Config.kgMaxAttempts = 255 + 1 from rfl, kinvAttempts_succ hn.1] at ht
    refine LegalResult.complete_inv (.ok ?_) (h.setRng _) ht
    exact (h.setRng _).setM d (hT.wf hn.1 hn.1 hn.2 hn.2)
  · exact (LegalResult.error .shape).complete_inv h ht

/-- Every command keeps the invariant (10_state.md R31 to R33). -/
theorem exec_inv {i : Instr} {s t : State} (h : s.Inv) (ht : exec i s = .next t) : t.Inv := by
  cases i with
  | midn d n =>
    refine LegalResult.complete_inv (.sizeImm fun h1 h2 => ?_) h ht
    exact .ok (h.setM d (Mat.wf_identity h1 h2))
  | mmov d a =>
    refine LegalResult.complete_inv (.matOperand h fun A hA _ => ?_) h ht
    exact .ok (h.setM d hA)
  | mtrn d a =>
    refine LegalResult.complete_inv (.matOperand h fun A hA hA0 => ?_) h ht
    exact .ok (h.setM d (hA.transpose hA0))
  | mmul d a b =>
    refine LegalResult.complete_inv
      (.matOperand h fun A hA hA0 => .matOperand h fun B hB hB0 => .require fun _ => ?_) h ht
    exact .ok (h.setM d (hA.mul hB hA0 hB0))
  | minv d a =>
    refine LegalResult.complete_inv (.matOperand h fun A hA hA0 => .require fun hsq => ?_) h ht
    cases hT : Mat.gaussJordanInverse A with
    | none => exact .error .singular
    | some T => exact .ok (h.setM d (hA.gaussJordanInverse hA0 hsq hT))
  | cgeng d fam => exact LegalResult.complete_inv (.ok (h.setM d (wf_generatorMatrix fam))) h ht
  | cgenh d fam => exact LegalResult.complete_inv (.ok (h.setM d (wf_parityMatrix fam))) h ht
  | mblk d a l =>
    refine LegalResult.complete_inv (.matOperand h fun A hA hA0 => .require fun hl => ?_) h ht
    exact .ok (h.setM d (hA.blockDiagonal hA0 hl.1 hl.2.1 hl.2.2))
  | kinv d n => exact execKinv_inv h ht
  | kperm d n =>
    refine LegalResult.complete_inv (.sizeImm fun h1 h2 => ?_) h ht
    exact .ok ((h.setM d (wf_permutationMatrix_kperm h1 h2 s.rng)).setRng _)
  | vmul d a b =>
    refine LegalResult.complete_inv
      (.vecOperand h fun v _ => .matOperand h fun B hB _ => .require fun _ => ?_) h ht
    exact .ok (h.setV d ((Vec.length_mulMat v B).trans_le hB.2.1))
  | vmov d a =>
    refine LegalResult.complete_inv (.vecOperand h fun v hv => ?_) h ht
    exact .ok (h.setV d hv)
  | vxor d a b =>
    refine LegalResult.complete_inv
      (.vecOperand h fun u hu => .vecOperand h fun w _ => .require fun _ => ?_) h ht
    exact .ok (h.setV d ((Vec.length_xor u w).trans_le ((Nat.min_le_left _ _).trans hu)))
  | vnoise d a n =>
    refine LegalResult.complete_inv (.vecOperand h fun c hc => .require fun hn => ?_) h ht
    exact .ok ((h.setV d ((Vec.length_noiseBlocks_blocks hn.2 _ _).trans_le hc)).setRng _)
  | dham d a b =>
    refine LegalResult.complete_inv
      (.vecOperand h fun c hc => .matOperand h fun H _ _ => .require fun hn => ?_) h ht
    exact .ok (h.setV d ((Vec.length_flatMap_blocks_of_keeps hn (length_hammingCorrect H)).trans_le hc))
  | dbch d a =>
    refine LegalResult.complete_inv (.vecOperand h fun c hc => .require fun hn => ?_) h ht
    exact .ok (h.setV d ((Vec.length_flatMap_blocks_of_keeps hn length_bchCorrect).trans_le hc))
  | vmsg d a n k =>
    refine LegalResult.complete_inv (.vecOperand h fun c hc => .require fun hn => ?_) h ht
    exact .ok (h.setV d ((Vec.length_flatMap_take_le hn.2.1 hn.2.2).trans hc))
  | nop => exact exec_inv_of_scalar h (.inl rfl) ht
  | _ => exact exec_inv_of_scalar h (.inr ⟨_, rfl⟩) ht

/-! ### The events -/

theorem runCommand_inv {s t : State} (h : s.Inv) (ht : runCommand s = .next t) : t.Inv := by
  unfold runCommand at ht
  split at ht
  · exact exec_inv h ht
  · exact (LegalResult.error .illegalCmd).complete_inv h ht

theorem engineCompletes_inv {s t : State} (h : s.Inv) (ht : engineCompletes s = .next t) : t.Inv := by
  unfold engineCompletes at ht
  split at ht
  · exact runCommand_inv h ht
  · cases ht
    exact h

theorem State.Inv.mmioWrite {s : State} (h : s.Inv) (off : Nat) (v : Word) : (mmioWrite off v s).Inv := by
  unfold Machine.mmioWrite
  split
  · exact h.noteOverrun
  · exact h.writeReg _ v

theorem State.Inv.mmioRead {s : State} (h : s.Inv) (off : Nat) : (mmioRead off s).2.Inv := by
  unfold Machine.mmioRead
  split
  · exact h.noteOverrun
  · exact h

/-- The word the latest read returned is no part of the invariant. -/
theorem State.Inv.hostRead {s : State} (h : s.Inv) (off : Nat) : (hostRead off s).Inv :=
  have h' := h.mmioRead off
  ⟨h'.matrices, h'.vectors, h'.noise, h'.code, h'.errIff, h'.cmdClear, h'.notBoth⟩

theorem handleEvent_inv {e : Event} {s t : State} (h : s.Inv) (ht : handleEvent e s = .next t) : t.Inv := by
  cases e with
  | read off =>
    cases ht
    exact h.hostRead off
  | write off v =>
    cases ht
    exact h.mmioWrite off v
  | narrow off => cases ht
  | hardReset =>
    cases ht
    exact .resetCore s
  | completion => exact engineCompletes_inv h ht

/-- What the outside world still has to send is no part of the invariant. -/
theorem State.Inv.setBus {s : State} (h : s.Inv) (rest : List Event) : ({ s with bus := rest } : State).Inv :=
  ⟨h.matrices, h.vectors, h.noise, h.code, h.errIff, h.cmdClear, h.notBoth⟩

/-- Settles O58: a step is an event or a completion, and each keeps the invariant. -/
theorem stepKeepsInvariant : Obligations.StepKeepsInvariant := by
  intro s t h ht
  unfold step at ht
  split at ht
  · exact engineCompletes_inv h ht
  · exact handleEvent_inv (h.setBus _) ht

/-- Settles O59: the reset state is the state a reset of it leads to. -/
theorem resetMeetsInvariant : Obligations.ResetMeetsInvariant := State.Inv.resetCore State.reset

end Sys2Proof.Machine

/-! ## The frame of a command (O16, O17, O18), the register files (O14) -/

namespace Sys2Proof.Machine

/-- Writing the destination touches the register files only. -/
theorem WritesDest.onlyRegisters {dst : Dest} {s u : State} (h : WritesDest dst s u) :
    u = { s with mreg := u.mreg, vreg := u.vreg, xreg := u.xreg } := by
  cases dst with
  | none => cases h; rfl
  | m d => obtain ⟨A, rfl⟩ := h; rfl
  | v d => obtain ⟨v, rfl⟩ := h; rfl
  | x d => obtain ⟨x, rfl⟩ := h; rfl

/-- A normal completion leaves every register of the window alone but BUSY, DONE and RNG_STATE (46_system.md R251). -/
theorem WritesDest.commandFrame {dst : Dest} {s u : State} (h : WritesDest dst s u) (g : Word) :
    CommandFrame s (u.setRng g).finish := by
  rw [h.onlyRegisters]
  constructor <;> rfl

theorem WritesDest.noFaultRecorded {dst : Dest} {s u : State} (h : WritesDest dst s u) (g : Word) :
    NoFaultRecorded s (u.setRng g).finish := by
  rw [h.onlyRegisters]
  constructor <;> rfl

theorem WritesDest.sameRegistersBut {dst : Dest} {s u : State} (h : WritesDest dst s u) (g : Word) :
    SameRegistersBut dst s (u.setRng g).finish := by
  cases dst with
  | none => cases h; exact ⟨fun _ _ => rfl, fun _ _ => rfl, fun _ _ => rfl⟩
  | m d =>
    obtain ⟨A, rfl⟩ := h
    exact ⟨fun j hj => s.getM_setM_ne d j A fun e => hj (e ▸ rfl), fun _ _ => rfl, fun _ _ => rfl⟩
  | v d =>
    obtain ⟨v, rfl⟩ := h
    exact ⟨fun _ _ => rfl, fun j hj => s.getV_setV_ne d j v fun e => hj (e ▸ rfl), fun _ _ => rfl⟩
  | x d =>
    obtain ⟨x, rfl⟩ := h
    exact ⟨fun _ _ => rfl, fun _ _ => rfl, fun j hj => s.getX_setX_ne d j x fun e => hj (e ▸ rfl)⟩

/-- A fault leaves every register of the window alone but its own record, BUSY, DONE and RNG_STATE
(60_exceptions.md R260). -/
theorem takeFault_commandFrame (s : State) (g : Word) (c : FaultCause) :
    CommandFrame s ((s.setRng g).takeFault c) := by
  constructor <;> rfl

theorem takeFault_faultRecorded (s : State) (g : Word) (c : FaultCause) :
    FaultRecorded c s ((s.setRng g).takeFault c) where
  err := rfl
  first he := by simp [he]
  later he := by simp [he]

theorem takeFault_sameRegisters (s : State) (g : Word) (c : FaultCause) :
    SameRegisters s ((s.setRng g).takeFault c) :=
  ⟨fun _ => rfl, fun _ => rfl, fun _ => rfl⟩

/-- Only a command that draws can exhaust its attempts (43_keygen.md R186). -/
theorem draws_of_keygenExhausted {i : Instr} (h : .keygenExhausted ∈ possibleCauses i) : i.draws = true := by
  cases i with
  | kinv d n => rfl
  | _ => simp [possibleCauses] at h

/-- Whatever a command does, its completion has the frame of its destination, and RNG_STATE stays unless it draws
(10_state.md R60; 46_system.md R251; 60_exceptions.md R260). -/
theorem exec_completionOf {i : Instr} {s t : State} (ht : exec i s = .next t) :
    CompletionOf i.dest s t ∧ (i.draws = false → t.rng = s.rng) := by
  rcases exec_outcome i s with ⟨g, u, hg, hw, e⟩ | ⟨g, c, hc, hg, e⟩
  · cases e.symm.trans ht
    exact ⟨⟨hw.commandFrame g, .inl ⟨hw.noFaultRecorded g, hw.sameRegistersBut g⟩⟩, hg⟩
  · cases e.symm.trans ht
    refine ⟨⟨takeFault_commandFrame s g c,
      .inr ⟨c, takeFault_faultRecorded s g c, takeFault_sameRegisters s g c⟩⟩, fun hd => hg ?_⟩
    rintro rfl
    simp [draws_of_keygenExhausted hc] at hd

/-- No command with a scalar destination draws (43_keygen.md R183). -/
theorem draws_of_dest_x {i : Instr} {d : Reg} (h : i.dest = .x d) : i.draws = false := by
  cases i with
  | kinv d n => cases h
  | kperm d n => cases h
  | vnoise d a n => cases h
  | _ => rfl

/-- Settles O16: the frame every command has, at a matrix destination. -/
theorem matrixCommandsFrame : Obligations.MatrixCommandsFrame :=
  fun _ _ _ _ hd ht => hd ▸ exec_completionOf ht

/-- Settles O17: the frame every command has, at a scalar destination, with no draw. -/
theorem scalarCommandsFrame : Obligations.ScalarCommandsFrame := by
  intro i d s t hd ht
  obtain ⟨hframe, hrng⟩ := exec_completionOf ht
  exact ⟨hd ▸ hframe, hrng (draws_of_dest_x hd)⟩

/-- Settles O18: the frame every command has, at a vector destination. -/
theorem vectorCommandsFrame : Obligations.VectorCommandsFrame :=
  fun _ _ _ _ hd ht => hd ▸ exec_completionOf ht

/-- Settles O14: the read-after-write lemmas of the three files; a write to one file leaves the others as they are. -/
theorem registerFilesReadAfterWrite : Obligations.RegisterFilesReadAfterWrite := fun s i j A v x =>
  ⟨s.getM_setM_self i A, s.getM_setM_ne i j A, s.getV_setV_self i v, s.getV_setV_ne i j v,
    s.getX_setX_self i x, s.getX_setX_ne i j x, rfl, rfl, rfl, rfl, rfl, rfl⟩

end Sys2Proof.Machine

/-! ## The register window (O49, O53, O54, O55, O56) -/

namespace Sys2Proof.Machine

/-! ### An access the engine does not refuse (20_memory.md R76, 70_reset_and_hazards.md R310) -/

theorem mmioRead_idle {s : State} (hb : s.busy = false) (off : Nat) :
    mmioRead off s = (s.regValue (regAt off), s) := by
  simp [mmioRead, hb]

theorem mmioWrite_idle {s : State} (hb : s.busy = false) (off : Nat) (v : Word) :
    mmioWrite off v s = s.writeReg (regAt off) v := by
  simp [mmioWrite, hb]

/-- A register the engine does not own is read at any time. -/
theorem mmioRead_not_owned {off : Nat} {r : MmioReg} (hr : regAt off = r) (ho : r.engineOwned = false) (s : State) :
    mmioRead off s = (s.regValue r, s) := by
  simp [mmioRead, hr, ho]

/-- A register the engine does not own, but CMD, is written at any time. -/
theorem mmioWrite_not_owned {off : Nat} {r : MmioReg} (hr : regAt off = r) (ho : r.engineOwned = false)
    (hc : r ≠ .cmd) (s : State) (v : Word) : mmioWrite off v s = s.writeReg r v := by
  simp [mmioWrite, hr, ho, hc]

/-! ### Constants and reserved registers -/

/-- Only off[7:2] selects a register (20_memory.md R70). -/
theorem regAt_congr {off off' : Nat} (h : off / 4 % 64 = off' / 4 % 64) : regAt off = regAt off' := by
  rw [regAt, regAt, h]

/-- The register numbers between the named registers are reserved (10_state.md R58). -/
theorem regAt_reserved {off : Nat}
    (h : (10 ≤ off / 4 % 64 ∧ off / 4 % 64 ≤ 15) ∨ (19 ≤ off / 4 % 64 ∧ off / 4 % 64 ≤ 31) ∨ 40 ≤ off / 4 % 64) :
    regAt off = .reserved := by
  unfold regAt
  split
  case h_22 => rfl
  all_goals omega

/-- A register the engine does not own and a write leaves alone reads its value and ignores writes, idle or busy. -/
theorem mmio_readOnly {off : Nat} {r : MmioReg} (hr : regAt off = r) (ho : r.engineOwned = false) (hc : r ≠ .cmd)
    {s : State} {v : Word} (hw : s.writeReg r v = s) :
    mmioRead off s = (s.regValue r, s) ∧ mmioWrite off v s = s :=
  ⟨mmioRead_not_owned hr ho s, (mmioWrite_not_owned hr ho hc s v).trans hw⟩

/-- ERRCODE as the window shows it (10_state.md R49). -/
theorem regValue_errcode (s : State) : s.regValue .errcode = BitVec.ofNat 32 s.errcode.toNat :=
  (BitVec.ofNat_toNat 32 s.errcode).symm

/-- While ERR = 0 both capture registers read 0 (10_state.md R49, R50). -/
theorem State.Inv.capture_clear {s : State} (h : s.Inv) (he : s.err = false) :
    s.regValue .errcode = 0 ∧ s.regValue .errcmd = 0 := by
  have hcode : s.errcode = 0 := by
    by_contra hne
    simp [h.errIff.mpr hne] at he
  exact ⟨by simp [State.regValue, hcode], h.cmdClear he⟩

/-- Settles O49: the engine owns none of these registers, and a write to one of them is the identity. -/
theorem constantAndReservedRegisters : Obligations.ConstantAndReservedRegisters := by
  intro s v off r
  have at_errcode (hr : r = 8) : regAt off = .errcode := regAt_congr (off' := 0x20) hr
  have at_errcmd (hr : r = 9) : regAt off = .errcmd := regAt_congr (off' := 0x24) hr
  refine ⟨fun hr => ?_, fun hr => ?_, fun hr => ?_, fun hr => ?_, fun hr h he => ?_, fun hr => ?_⟩
  · exact mmio_readOnly (r := .id) (regAt_congr (off' := 0x00) hr) rfl nofun rfl
  · exact mmio_readOnly (r := .param) (regAt_congr (off' := 0x04) hr) rfl nofun rfl
  · rw [← regValue_errcode]
    exact mmio_readOnly (at_errcode hr) rfl nofun rfl
  · exact mmio_readOnly (at_errcmd hr) rfl nofun rfl
  · obtain ⟨hcode, hcmd⟩ := h.capture_clear he
    rcases hr with hr | hr
    · rw [mmioRead_not_owned (at_errcode hr) rfl, hcode]
    · rw [mmioRead_not_owned (at_errcmd hr) rfl, hcmd]
  · exact mmio_readOnly (regAt_reserved hr) rfl nofun rfl

/-! ### The parameter and selection registers -/

/-- A field that starts at bit 0 is a remainder. -/
theorem field_low (w : Word) (hi : Nat) : field w hi 0 = w.toNat % 2 ^ (hi + 1) := by simp [field]

/-- A number that fits its register reads back as it is. -/
theorem toNat_setWidth_ofNat {n x : Nat} (hn : n ≤ 32) (hx : x < 2 ^ n) :
    ((BitVec.ofNat n x).setWidth 32).toNat = x := by
  rw [BitVec.toNat_setWidth_of_le hn, BitVec.toNat_ofNat, Nat.mod_eq_of_lt hx]

theorem noiseP_write {s : State} (hb : s.busy = false) (v : Word) :
    mmioWrite 0x14 v s = { s with noiseP := BitVec.ofNat 17 (min (v.toNat % 2 ^ 17) 65536) } := by
  rw [mmioWrite_idle hb, ← field_low v 16]
  rfl

theorem kgRounds_write {s : State} (hb : s.busy = false) (v : Word) :
    mmioWrite 0x18 v s = { s with kgRounds := BitVec.ofNat 16 (v.toNat % 2 ^ 16) } := by
  rw [mmioWrite_idle hb, ← field_low v 15]
  rfl

theorem rngState_write {s : State} (hb : s.busy = false) (v : Word) :
    mmioWrite 0x1C v s = { s with rng := v } := by
  rw [mmioWrite_idle hb]
  rfl

theorem ctrl_write (s : State) {v : Word} (hv : v.getLsbD 31 = false) :
    mmioWrite 0x08 v s = { s with ieDone := v.getLsbD 0, ieErr := v.getLsbD 1 } := by
  rw [mmioWrite_not_owned (r := .ctrl) rfl rfl (by decide)]
  exact if_neg (ne_true_of_eq_false hv)

theorem row_write (s : State) (v : Word) :
    mmioWrite 0x44 v s = { s with row := BitVec.ofNat 9 (v.toNat % 512) } := by
  rw [mmioWrite_not_owned (r := .row) rfl rfl (by decide), show v.toNat % 512 = field v 8 0 from (field_low v 8).symm]
  rfl

/-- KIND 0, 1, 2, 3 selects a matrix, a vector, a scalar, nothing (10_state.md R51). -/
theorem selKindOf_eq (k : Nat) : selKindOf k =
    if k = 0 then .matrix else if k = 1 then .vector else if k = 2 then .scalar else .unselected := by
  match k with
  | 0 => rfl
  | 1 => rfl
  | 2 => rfl
  | _ + 3 => simp [selKindOf]

theorem code_selKindOf {k : Nat} (hk : k < 4) : (selKindOf k).code = k := by
  interval_cases k <;> rfl

theorem sel_write (s : State) (v : Word) :
    mmioWrite 0x40 v s =
      { s with selIndex := Fin.ofNat 8 (v.toNat % 8), selKind := selKindOf (v.toNat / 16 % 4) } := by
  rw [mmioWrite_not_owned (r := .sel) rfl rfl (by decide), show v.toNat % 8 = field v 2 0 from (field_low v 2).symm]
  rfl

/-- CTRL reads its two enables (10_state.md R43). -/
theorem ctrlWord_toNat (s : State) : s.ctrlWord.toNat = s.ieDone.toNat + 2 * s.ieErr.toNat := by
  cases h : s.ieDone <;> cases h' : s.ieErr <;> simp [State.ctrlWord, h, h']

/-- The two lowest bits of a word, as a number. -/
theorem low_two_bits (v : Word) : (v.getLsbD 0).toNat + 2 * (v.getLsbD 1).toNat = v.toNat % 4 := by
  simp only [BitVec.getLsbD, Nat.toNat_testBit]
  omega

/-- SEL reads its two fields (10_state.md R51). -/
theorem selWord_toNat {s : State} {k x : Nat} (hk : k < 4) (hkind : s.selKind = selKindOf k)
    (hindex : s.selIndex = Fin.ofNat 8 (x % 8)) : s.selWord.toNat = x % 8 + k * 16 := by
  rw [State.selWord, hkind, hindex, code_selKindOf hk, BitVec.toNat_ofNat, Fin.val_ofNat]
  omega

/-- Settles O53: each write as a record update, and the read of the field it left. -/
theorem parameterRegistersReadBack : Obligations.ParameterRegistersReadBack := by
  intro s v kind
  have hkind : kind < 4 := Nat.mod_lt _ (by omega)
  refine ⟨fun hb => ⟨?_, noiseP_write hb v, ?_, kgRounds_write hb v, ?_, rngState_write hb v⟩,
    fun hv => ⟨?_, ctrl_write s hv⟩, ?_, ?_, ?_, row_write s v⟩
  · rw [noiseP_write hb, mmioRead_idle]
    · exact toNat_setWidth_ofNat (by omega) (by omega)
    · exact hb
  · rw [kgRounds_write hb, mmioRead_idle]
    · exact toNat_setWidth_ofNat (by omega) (by omega)
    · exact hb
  · rw [rngState_write hb, mmioRead_idle]
    · rfl
    · exact hb
  · rw [ctrl_write s hv, mmioRead_not_owned (r := .ctrl) rfl rfl]
    exact (ctrlWord_toNat _).trans (low_two_bits v)
  · rw [sel_write, mmioRead_not_owned (r := .sel) rfl rfl]
    exact selWord_toNat hkind rfl rfl
  · rw [sel_write, selKindOf_eq]
  · rw [row_write, mmioRead_not_owned (r := .row) rfl rfl]
    exact toNat_setWidth_ofNat (by omega) (by omega)

/-! ### DIM -/

/-- DIM of a legal matrix holds both dimensions: neither reaches the other's field (10_state.md R53). -/
theorem dimWord_matrix {s : State} (h : s.Inv) (hk : s.selKind = .matrix) :
    s.dimWord.toNat = Mat.nrows (s.getM s.selIndex) * 2 ^ 16 + Mat.ncols (s.getM s.selIndex) := by
  obtain ⟨hr, hc, -, -⟩ := h.matrices s.selIndex
  simp only [Config.dmax] at hr hc
  simp only [State.dimWord, hk, BitVec.toNat_ofNat]
  omega

theorem dimWord_vector {s : State} (h : s.Inv) (hk : s.selKind = .vector) :
    s.dimWord.toNat = (s.getV s.selIndex).length := by
  have hl := h.vectors s.selIndex
  simp only [Vec.WF, Config.dmax] at hl
  simp only [State.dimWord, hk, BitVec.toNat_ofNat]
  omega

/-- A DIM write to a matrix, by the two fields of the word (10_state.md R53). -/
theorem writeDim_matrix {s : State} (hk : s.selKind = .matrix) (v : Word) :
    s.writeDim v =
      if v.toNat / 2 ^ 16 % 512 > 256 ∨ v.toNat % 512 > 256 then s
      else if v.toNat / 2 ^ 16 % 512 = 0 ∨ v.toNat % 512 = 0 then s.setM s.selIndex []
      else s.setM s.selIndex (Mat.zeros (v.toNat / 2 ^ 16 % 512) (v.toNat % 512)) := by
  rw [show v.toNat % 512 = field v 8 0 from (field_low v 8).symm, State.writeDim, hk]
  rfl

/-- A DIM write to a vector (10_state.md R53). -/
theorem writeDim_vector {s : State} (hk : s.selKind = .vector) (v : Word) :
    s.writeDim v = if v.toNat % 512 > 256 then s else s.setV s.selIndex (Vec.zero (v.toNat % 512)) := by
  rw [show v.toNat % 512 = field v 8 0 from (field_low v 8).symm, State.writeDim, hk]
  rfl

/-- Settles O54: the branches of a DIM write, by the file that is selected. -/
theorem dimReadsAndSetsTheShape : Obligations.DimReadsAndSetsTheShape := by
  intro s v hb hinv i R C
  have hread : (mmioRead 0x48 s).1 = s.dimWord := by rw [mmioRead_idle hb]; rfl
  have hwrite : mmioWrite 0x48 v s = s.writeDim v := by rw [mmioWrite_idle hb]; rfl
  rw [hread, hwrite]
  refine ⟨fun hk => ⟨dimWord_matrix hinv hk, fun h => ?_, fun hR hC h => ?_, fun hR hR' hC hC' => ?_⟩,
    fun hk => ⟨dimWord_vector hinv hk, fun h => ?_, fun hC => ?_⟩, fun hk => ?_⟩
  · rw [writeDim_matrix hk, if_pos h]
  · rw [writeDim_matrix hk, if_neg (by omega), if_pos h]
  · refine ⟨Mat.zeros R C, ?_, Mat.shape_zeros R C, Mat.bit_zeros R C⟩
    rw [writeDim_matrix hk, if_neg (by omega), if_neg (by omega)]
  · rw [writeDim_vector hk, if_pos h]
  · refine ⟨Vec.zero C, ?_, Vec.length_zero C, Vec.bit_zero C⟩
    rw [writeDim_vector hk, if_neg (by omega)]
  · rcases hk with hk | hk <;> simp [State.dimWord, State.writeDim, hk]

/-! ### DATA0..DATA7 -/

theorem testBit_bitsToNat (bits : Vec) (j : Nat) : (bitsToNat bits).testBit j = Vec.bit bits j := by
  induction bits generalizing j with
  | nil => simp [bitsToNat, Vec.bit]
  | cons b rest ih =>
    have e : bitsToNat (b :: rest) = Nat.bit b (bitsToNat rest) := by rw [Nat.bit_val, bitsToNat, Nat.add_comm]
    rw [e]
    cases j with
    | zero => rw [Nat.testBit_bit_zero]; rfl
    | succ j => rw [Nat.testBit_bit_succ, ih]; rfl

theorem Vec.bit_take_drop (v : Vec) (n : Nat) {m j : Nat} (h : j < m) :
    Vec.bit ((v.drop n).take m) j = Vec.bit v (n + j) := by
  simp [Vec.bit, h]

/-- Bit b of DATAw is element 32w + b (10_state.md R54). -/
theorem getLsbD_dataOf (bits : Vec) (w : Nat) {b : Nat} (hb : b < 32) :
    (dataOf bits w).getLsbD b = Vec.bit bits (32 * w + b) := by
  rw [dataOf, BitVec.getLsbD_ofNat, testBit_bitsToNat, Vec.bit_take_drop bits (32 * w) hb]
  simp [hb]

/-- A write to DATAw sets the elements of that word and no others. -/
theorem Vec.bit_writeData {bits : Vec} (w : Nat) (v : Word) {e : Nat} (he : e < bits.length) :
    Vec.bit (writeData bits w v) e = if e / 32 = w then v.getLsbD (e % 32) else Vec.bit bits e := by
  rw [Vec.bit_of_lt _ _ (by simpa using he), Vec.bit_of_lt _ _ he]
  simp [writeData]

/-- A bit outside the vector reads 0 (00_scope.md R13). -/
theorem Vec.bit_eq_guarded (v : Vec) (j : Nat) : Vec.bit v j = (decide (j < v.length) && Vec.bit v j) := by
  rcases Nat.lt_or_ge j v.length with h | h
  · simp [h]
  · simp [Vec.bit_of_le v j h]

theorem Mat.row_of_le {A : Mat} {r : Nat} (h : Mat.nrows A ≤ r) : Mat.row A r = [] := by
  rw [Mat.nrows] at h
  simp [Mat.row, h]

/-- A bit outside the shape reads 0 (00_scope.md R13). -/
theorem Mat.HasShape.bit_eq_guarded {A : Mat} {R C : Nat} (h : Mat.HasShape A R C) (r c : Nat) :
    Mat.bit A r c = (decide (r < R) && decide (c < C) && Mat.bit A r c) := by
  rcases Nat.lt_or_ge r R with hr | hr
  · rw [Mat.bit, Vec.bit_eq_guarded, h.length_row hr]
    simp [hr]
  · rw [Mat.bit, Mat.row_of_le (h.nrows.trans_le hr)]
    simp [Vec.bit]

theorem Mat.row_modify {A : Mat} {f : Vec → Vec} {r i : Nat} (hi : i < A.length) :
    Mat.row (A.modify r f) i = if r = i then f (Mat.row A i) else Mat.row A i := by
  simp [Mat.row, hi, List.getElem_modify]

/-- Changing one row by a function that keeps its length keeps the shape. -/
theorem Mat.shape_modify {A : Mat} {R C : Nat} (h : Mat.HasShape A R C) (r : Nat) {f : Vec → Vec}
    (hf : ∀ row, (f row).length = row.length) : Mat.HasShape (A.modify r f) R C := by
  refine ⟨by simpa using h.1, fun row hrow => ?_⟩
  obtain ⟨i, hi, rfl⟩ := List.getElem_of_mem hrow
  have hi' : i < A.length := by simpa using hi
  rw [List.getElem_modify]
  split
  · rw [hf]
    exact h.2 _ (List.getElem_mem hi')
  · exact h.2 _ (List.getElem_mem hi')

/-- A write to DATAw of one row sets the bits of that word of that row and no others (10_state.md R55). -/
theorem Mat.HasShape.bit_modify_writeData {A : Mat} {R C : Nat} (h : Mat.HasShape A R C) (row w : Nat) (v : Word)
    {r c : Nat} (hr : r < R) (hc : c < C) :
    Mat.bit (A.modify row fun bits => writeData bits w v) r c =
      if r = row ∧ c / 32 = w then v.getLsbD (c % 32) else Mat.bit A r c := by
  rw [Mat.bit, Mat.row_modify (hr.trans_eq h.nrows.symm)]
  by_cases hrow : row = r
  · rw [if_pos hrow, Vec.bit_writeData w v (hc.trans_eq (h.length_row hr).symm)]
    simp [hrow, Mat.bit]
  · rw [if_neg hrow, if_neg fun e => hrow e.1.symm]
    rfl

theorem State.setM_getM_self (s : State) (i : Reg) : s.setM i (s.getM i) = s := by
  simp [State.setM, State.getM]

theorem regAt_data {w : Nat} (hw : w < 8) : regAt (0x80 + 4 * w) = .data ⟨w, hw⟩ := by
  interval_cases w <;> rfl

theorem data_read {s : State} (hb : s.busy = false) {w : Nat} (hw : w < 8) :
    (mmioRead (0x80 + 4 * w) s).1 = s.dataWord w := by
  rw [mmioRead_idle hb, regAt_data hw]
  rfl

theorem data_write {s : State} (hb : s.busy = false) {w : Nat} (hw : w < 8) (v : Word) :
    mmioWrite (0x80 + 4 * w) v s = s.writeDataWord w v := by
  rw [mmioWrite_idle hb, regAt_data hw]
  rfl

/-! What DATAw is of the selected register (10_state.md R54 to R57). -/

theorem dataWord_matrix {s : State} (hk : s.selKind = .matrix) (w : Nat) :
    s.dataWord w = dataOf (Mat.row (s.getM s.selIndex) s.row.toNat) w := by
  simp only [State.dataWord, hk]

theorem writeDataWord_matrix {s : State} (hk : s.selKind = .matrix) (w : Nat) (v : Word) :
    s.writeDataWord w v =
      s.setM s.selIndex ((s.getM s.selIndex).modify s.row.toNat fun bits => writeData bits w v) := by
  simp only [State.writeDataWord, hk]

theorem dataWord_vector {s : State} (hk : s.selKind = .vector) (w : Nat) :
    s.dataWord w = dataOf (s.getV s.selIndex) w := by
  simp only [State.dataWord, hk]

theorem writeDataWord_vector {s : State} (hk : s.selKind = .vector) (w : Nat) (v : Word) :
    s.writeDataWord w v = s.setV s.selIndex (writeData (s.getV s.selIndex) w v) := by
  simp only [State.writeDataWord, hk]

theorem dataWord_scalar {s : State} (hk : s.selKind = .scalar) (w : Nat) :
    s.dataWord w = if w = 0 then (s.getX s.selIndex).setWidth 32 else 0 := by
  simp only [State.dataWord, hk]

theorem writeDataWord_scalar {s : State} (hk : s.selKind = .scalar) (w : Nat) (v : Word) :
    s.writeDataWord w v = if w = 0 then s.setX s.selIndex (v.setWidth 16) else s := by
  simp only [State.writeDataWord, hk]

/-- The low half of a word, cut to 16 bits. -/
theorem setWidth_low_half (v : Word) : v.setWidth 16 = BitVec.ofNat 16 (v.toNat % 2 ^ 16) :=
  BitVec.eq_of_toNat_eq (by simp)

/-- Settles O55: DATAw is a word of the row ROW, and a write changes that word of that row. -/
theorem dataWindowOfAMatrix : Obligations.DataWindowOfAMatrix := by
  intro s v w hb hinv hk hw i M row
  have hshape : Mat.HasShape M (Mat.nrows M) (Mat.ncols M) := (hinv.matrices i).hasShape
  rw [data_read hb hw, data_write hb hw, dataWord_matrix hk, writeDataWord_matrix hk]
  refine ⟨fun b hb32 => ?_, ⟨_, rfl, Mat.shape_modify hshape row fun bits => length_writeData bits w v,
    fun r c hr hc => hshape.bit_modify_writeData row w v hr hc⟩, fun hrow => ?_⟩
  · rw [getLsbD_dataOf _ _ hb32]
    exact hshape.bit_eq_guarded row (32 * w + b)
  · rw [List.modify_eq_self hrow]
    exact s.setM_getM_self i

/-- Settles O56: the same two functions on the selected vector, the scalar in DATA0 alone, nothing otherwise. -/
theorem dataWindowOfAVectorOrScalar : Obligations.DataWindowOfAVectorOrScalar := by
  intro s v w hb hw i
  rw [data_read hb hw, data_write hb hw]
  refine ⟨fun hk => ?_, fun hk => ⟨?_, fun hw0 => ?_⟩, fun hk => ?_⟩
  · rw [dataWord_vector hk, writeDataWord_vector hk]
    refine ⟨fun b hb32 => ?_, _, rfl, length_writeData _ w v, fun e he => Vec.bit_writeData w v he⟩
    rw [getLsbD_dataOf _ _ hb32]
    exact Vec.bit_eq_guarded _ _
  · rintro rfl
    have hread : (mmioRead 0x80 s).1 = s.dataWord 0 := data_read hb hw
    have hwrite : mmioWrite 0x80 v s = s.writeDataWord 0 v := data_write hb hw v
    rw [hread, hwrite, dataWord_scalar hk, writeDataWord_scalar hk, if_pos rfl, if_pos rfl, setWidth_low_half]
    exact ⟨BitVec.toNat_setWidth_of_le (by omega), rfl⟩
  · rw [dataWord_scalar hk, writeDataWord_scalar hk, if_neg hw0, if_neg hw0]
    exact ⟨rfl, rfl⟩
  · simp [State.dataWord, State.writeDataWord, hk]

end Sys2Proof.Machine

/-! ## The Galois ROM and the field (O31) -/

namespace Sys2Proof.Machine

/-- EXP inverts LOG on the nonzero elements (10_state.md R38). -/
theorem expOf_logOf : ∀ e : Gf, e ≠ 0 → expOf (logOf e) = e := by decide

/-- LOG inverts EXP modulo 15 (10_state.md R38). -/
theorem logOf_expOf : ∀ i, i < 30 → logOf (expOf i) = i % 15 := by decide

/-- `gf_mul` is the product of polynomials modulo x^4 + x + 1 (00_scope.md R15, 41_gf.md R147). -/
theorem gfMul_eq_polyMul : ∀ a b : Gf, gfMul a b = polyMul a b := by decide

/-- A quotient times its divisor is the dividend (41_gf.md R145). -/
theorem gfMul_gfQuot : ∀ a b : Gf, b ≠ 0 → gfMul (gfQuot a b) b = a := by decide

/-- The third power is the repeated product (41_gf.md R146). -/
theorem gfPow_three : ∀ a : Gf, gfPow a 3 = .ok (gfMul (gfMul a a) a) := by decide

/-- Settles O31: the two tables by evaluation, and the laws of the field over its 16 elements. -/
theorem galoisRomAndFieldLaws : Obligations.GaloisRomAndFieldLaws :=
  ⟨by decide, by decide, expOf_logOf, logOf_expOf, gfMul_eq_polyMul, gfMul_gfQuot, gfPow_three⟩

end Sys2Proof.Machine

/-! # The proofs of the family 20_memory

## An access of the host while a command runs (O57)

`SameCommand s t` says that s and t agree on all a command in flight can read. An access short of a reset keeps it, and
the completions from two such states agree, command by command, by a rule per check of the command. -/

namespace Sys2Proof.Machine

/-- s and t agree on whether a command runs, on its word and on everything it reads (46_system.md R253). -/
structure SameCommand (s t : State) : Prop where
  mreg : t.mreg = s.mreg
  vreg : t.vreg = s.vreg
  xreg : t.xreg = s.xreg
  busy : t.busy = s.busy
  cmd : t.cmd = s.cmd
  noiseP : t.noiseP = s.noiseP
  kgRounds : t.kgRounds = s.kgRounds
  rng : t.rng = s.rng

namespace SameCommand

theorem refl (s : State) : SameCommand s s := ⟨rfl, rfl, rfl, rfl, rfl, rfl, rfl, rfl⟩

theorem trans {s t u : State} (h : SameCommand s t) (h' : SameCommand t u) : SameCommand s u where
  mreg := h'.mreg.trans h.mreg
  vreg := h'.vreg.trans h.vreg
  xreg := h'.xreg.trans h.xreg
  busy := h'.busy.trans h.busy
  cmd := h'.cmd.trans h.cmd
  noiseP := h'.noiseP.trans h.noiseP
  kgRounds := h'.kgRounds.trans h.kgRounds
  rng := h'.rng.trans h.rng

variable {s t : State} (h : SameCommand s t)
include h

theorem getM (j : Reg) : t.getM j = s.getM j := by rw [State.getM, State.getM, h.mreg]

theorem getV (j : Reg) : t.getV j = s.getV j := by rw [State.getV, State.getV, h.vreg]

theorem getX (j : Reg) : t.getX j = s.getX j := by rw [State.getX, State.getX, h.xreg]

theorem sameRegisters : SameRegisters s t := ⟨h.getM, h.getV, h.getX⟩

theorem setM (d : Reg) (A : Mat) : SameCommand (s.setM d A) (t.setM d A) :=
  { h with mreg := congrArg (·.set d A) h.mreg }

theorem setV (d : Reg) (v : Vec) : SameCommand (s.setV d v) (t.setV d v) :=
  { h with vreg := congrArg (·.set d v) h.vreg }

theorem setX (d : Reg) (x : Scalar) : SameCommand (s.setX d x) (t.setX d x) :=
  { h with xreg := congrArg (·.set d x) h.xreg }

theorem setRng (g : Word) : SameCommand (s.setRng g) (t.setRng g) := { h with rng := rfl }

end SameCommand

/-! ### Two runs of one command -/

/-- Two results of one command: the same fault, or two states that still agree. -/
inductive SameResult : Except FaultCause State → Except FaultCause State → Prop
  | ok {u v : State} (h : SameCommand u v) : SameResult (.ok u) (.ok v)
  | error (c : FaultCause) : SameResult (.error c) (.error c)

/-- Two outcomes of one command: both complete, with the same registers and the same RNG_STATE. -/
def SameCompletion (o o' : Host.Outcome State Fault Refusal) : Prop :=
  ∃ u v, o = .next u ∧ o' = .next v ∧ SameRegisters u v ∧ v.rng = u.rng

/-- A check both runs make on the same value. -/
theorem SameResult.bind {α : Type} (x : Except FaultCause α) {f g : α → Except FaultCause State}
    (h : ∀ a, SameResult (f a) (g a)) : SameResult (x >>= f) (x >>= g) := by
  cases x with
  | ok a => exact h a
  | error c => exact .error c

namespace SameCommand

variable {s t : State} (h : SameCommand s t)
include h

theorem complete {r r' : Except FaultCause State} (hr : SameResult r r') :
    SameCompletion (complete s r) (complete t r') := by
  cases hr with
  | ok hu => exact ⟨_, _, rfl, rfl, ⟨hu.getM, hu.getV, hu.getX⟩, hu.rng⟩
  | error c => exact ⟨_, _, rfl, rfl, ⟨h.getM, h.getV, h.getX⟩, h.rng⟩

theorem matOperand (a : Reg) {f g : Mat → Except FaultCause State} (hf : ∀ A, SameResult (f A) (g A)) :
    SameResult (matOperand s a >>= f) (matOperand t a >>= g) := by
  rw [show Machine.matOperand t a = Machine.matOperand s a by simp only [Machine.matOperand, h.getM]]
  exact .bind _ hf

theorem vecOperand (a : Reg) {f g : Vec → Except FaultCause State} (hf : ∀ v, SameResult (f v) (g v)) :
    SameResult (vecOperand s a >>= f) (vecOperand t a >>= g) := by
  rw [show Machine.vecOperand t a = Machine.vecOperand s a by simp only [Machine.vecOperand, h.getV]]
  exact .bind _ hf

theorem gfOperand (a : Reg) {f g : Gf → Except FaultCause State} (hf : ∀ e, SameResult (f e) (g e)) :
    SameResult (gfOperand s a >>= f) (gfOperand t a >>= g) := by
  rw [show Machine.gfOperand t a = Machine.gfOperand s a by simp only [Machine.gfOperand, h.getX]]
  exact .bind _ hf

theorem natOperand (a : Reg) : natOperand t a = natOperand s a := by rw [Machine.natOperand, h.getX, Machine.natOperand]

theorem intOperand (a : Reg) : intOperand t a = intOperand s a := by rw [Machine.intOperand, h.getX, Machine.intOperand]

/-- A command computes from what the states agree on alone (46_system.md R253). -/
theorem exec (i : Instr) : SameCompletion (exec i s) (exec i t) := by
  cases i with
  | nop => exact h.complete (.ok h)
  | midn d n => exact h.complete (.bind _ fun _ => .ok (h.setM d _))
  | mmov d a => exact h.complete (h.matOperand a fun A => .ok (h.setM d A))
  | mtrn d a => exact h.complete (h.matOperand a fun _ => .ok (h.setM d _))
  | mmul d a b =>
    exact h.complete (h.matOperand a fun _ => h.matOperand b fun _ => .bind _ fun _ => .ok (h.setM d _))
  | minv d a =>
    refine h.complete (h.matOperand a fun A => .bind _ fun _ => ?_)
    cases Mat.gaussJordanInverse A with
    | some T => exact .ok (h.setM d T)
    | none => exact .error .singular
  | xli d imm => exact h.complete (.ok (h.setX d _))
  | gexp d a =>
    simp only [Machine.exec, execGexp, h.natOperand]
    exact h.complete (.bind _ fun _ => .ok (h.setX d _))
  | glog d a => exact h.complete (h.gfOperand a fun _ => .bind _ fun _ => .ok (h.setX d _))
  | gmul d a b => exact h.complete (h.gfOperand a fun _ => h.gfOperand b fun _ => .ok (h.setX d _))
  | gdiv d a b =>
    exact h.complete (h.gfOperand a fun _ => h.gfOperand b fun _ => .bind _ fun _ => .ok (h.setX d _))
  | gpow d a b =>
    simp only [Machine.exec, execGpow, h.intOperand]
    exact h.complete (h.gfOperand a fun _ => .bind _ fun _ => .ok (h.setX d _))
  | cgeng d fam => exact h.complete (.ok (h.setM d _))
  | cgenh d fam => exact h.complete (.ok (h.setM d _))
  | mblk d a l => exact h.complete (h.matOperand a fun _ => .bind _ fun _ => .ok (h.setM d _))
  | kinv d n =>
    simp only [Machine.exec, execKinv, h.kgRounds, h.rng]
    split
    · refine (h.setRng _).complete ?_
      cases (kinvAttempts n s.kgRounds.toNat Config.kgMaxAttempts s.rng).1 with
      | some T => exact .ok ((h.setRng _).setM d T)
      | none => exact .error .keygenExhausted
    · exact h.complete (.error .shape)
  | kperm d n =>
    simp only [Machine.exec, execKperm, h.rng]
    exact h.complete (.bind _ fun _ => .ok ((h.setM d _).setRng _))
  | vmul d a b =>
    exact h.complete (h.vecOperand a fun _ => h.matOperand b fun _ => .bind _ fun _ => .ok (h.setV d _))
  | vmov d a => exact h.complete (h.vecOperand a fun v => .ok (h.setV d v))
  | vxor d a b =>
    exact h.complete (h.vecOperand a fun _ => h.vecOperand b fun _ => .bind _ fun _ => .ok (h.setV d _))
  | vnoise d a n =>
    simp only [Machine.exec, execVnoise, h.noiseP, h.rng]
    exact h.complete (h.vecOperand a fun _ => .bind _ fun _ => .ok ((h.setV d _).setRng _))
  | bsyn d a blk => exact h.complete (h.vecOperand a fun _ => .bind _ fun _ => .ok (h.setX d _))
  | dham d a b =>
    exact h.complete (h.vecOperand a fun _ => h.matOperand b fun _ => .bind _ fun _ => .ok (h.setV d _))
  | dbch d a => exact h.complete (h.vecOperand a fun _ => .bind _ fun _ => .ok (h.setV d _))
  | vmsg d a n k => exact h.complete (h.vecOperand a fun _ => .bind _ fun _ => .ok (h.setV d _))

/-- The word in flight is the same, so both runs decode it alike. -/
theorem runCommand : SameCompletion (runCommand s) (runCommand t) := by
  rw [Machine.runCommand, Machine.runCommand, h.cmd]
  cases decode s.cmd with
  | ok i => exact h.exec i
  | error e => exact h.complete (.error .illegalCmd)

theorem engineCompletes (hb : s.busy = true) : SameCompletion (engineCompletes s) (engineCompletes t) := by
  rw [Machine.engineCompletes, Machine.engineCompletes, if_pos hb, if_pos (h.busy.trans hb)]
  exact h.runCommand

end SameCommand

/-! ### The accesses of the host -/

theorem sameCommand_noteOverrun (s : State) : SameCommand s s.noteOverrun := by constructor <;> rfl

theorem sameCommand_writeStatus (s : State) (v : Word) : SameCommand s (s.writeStatus v) := by
  unfold State.writeStatus
  dsimp only
  split <;> constructor <;> rfl

theorem sameCommand_writeCtrl (s : State) {v : Word} (hv : v.getLsbD 31 = false) : SameCommand s (s.writeCtrl v) := by
  rw [State.writeCtrl, if_neg (ne_true_of_eq_false hv)]
  constructor <;> rfl

/-- A write to a register the engine does not refuse while busy, short of a soft reset, reaches nothing a command
reads (70_reset_and_hazards.md R311). -/
theorem sameCommand_writeReg {s : State} {r : MmioReg} {v : Word} (ho : r.engineOwned = false) (hc : r ≠ .cmd)
    (hv : ¬ (r = .ctrl ∧ v.getLsbD 31 = true)) : SameCommand s (s.writeReg r v) := by
  cases r with
  | id | param | errcode | errcmd | reserved => exact .refl s
  | ctrl => exact sameCommand_writeCtrl s (eq_false_of_ne_true fun h => hv ⟨rfl, h⟩)
  | status => exact sameCommand_writeStatus s v
  | cmd => exact absurd rfl hc
  | sel | row => constructor <;> rfl
  | noiseP | kgRounds | rngState | dim | data => cases ho

theorem sameCommand_mmioWrite {s : State} (hb : s.busy = true) {off : Nat} {v : Word}
    (hv : ¬ (regAt off = .ctrl ∧ v.getLsbD 31 = true)) : SameCommand s (mmioWrite off v s) := by
  unfold mmioWrite
  split
  · exact sameCommand_noteOverrun s
  next hr =>
    simp only [hb, Bool.true_and, Bool.or_eq_true, beq_iff_eq, not_or, Bool.not_eq_true] at hr
    obtain ⟨ho, hc⟩ := hr
    exact sameCommand_writeReg ho hc hv

/-- The two things a read can do: 0 and OVR when refused, else the register's value and nothing (20_memory.md R76). -/
theorem mmioRead_cases (off : Nat) (s : State) :
    (s.busy = true ∧ (regAt off).engineOwned = true ∧ mmioRead off s = (0, s.noteOverrun)) ∨
      mmioRead off s = (s.regValue (regAt off), s) := by
  unfold mmioRead
  split
  next h => exact .inl ⟨(Bool.and_eq_true_iff.mp h).1, (Bool.and_eq_true_iff.mp h).2, rfl⟩
  · exact .inr rfl

theorem sameCommand_mmioRead (s : State) (off : Nat) : SameCommand s (mmioRead off s).2 := by
  rcases mmioRead_cases off s with ⟨-, -, h⟩ | h
  · rw [h]
    exact sameCommand_noteOverrun s
  · rw [h]
    exact .refl s

/-- No host access short of a reset reaches the command in flight (20_memory.md R79). -/
theorem handleEvent_hostAccess {e : Event} {s : State} (he : e.hostAccess) (hb : s.busy = true) :
    ∃ t, handleEvent e s = .next t ∧ SameCommand s t := by
  cases e with
  | read off => exact ⟨_, rfl, { sameCommand_mmioRead s off with }⟩
  | write off v => exact ⟨_, rfl, sameCommand_mmioWrite hb he⟩
  | narrow off => exact he.elim
  | hardReset => exact he.elim
  | completion => exact he.elim

theorem runEvents_cons {e : Event} {s t : State} (h : handleEvent e s = .next t) (rest : List Event) :
    runEvents (e :: rest) s = runEvents rest t := by
  rw [runEvents, h]

theorem runEvents_hostAccess {events : List Event} {s : State} (he : ∀ e ∈ events, e.hostAccess)
    (hb : s.busy = true) : ∃ t, runEvents events s = some t ∧ SameCommand s t := by
  induction events generalizing s with
  | nil => exact ⟨s, rfl, .refl s⟩
  | cons e rest ih =>
    obtain ⟨hfirst, hrest⟩ := List.forall_mem_cons.mp he
    obtain ⟨t, ht, hst⟩ := handleEvent_hostAccess hfirst hb
    obtain ⟨u, hu, htu⟩ := ih hrest (hst.busy.trans hb)
    exact ⟨u, (runEvents_cons ht rest).trans hu, hst.trans htu⟩

/-- Settles O57: the accesses keep all the command reads, and so its completion. -/
theorem hostCannotDisturbACommand : Obligations.HostCannotDisturbACommand := by
  intro events s hb he
  obtain ⟨t, ht, h⟩ := runEvents_hostAccess he hb
  exact ⟨t, ht, h.busy.trans hb, h.cmd, h.noiseP, h.kgRounds, h.rng, h.sameRegisters, h.engineCompletes hb⟩

end Sys2Proof.Machine

/-! ## What a step stops on (O9), the address of an access (O51) -/

namespace Sys2Proof.Machine

theorem engineCompletes_next (s : State) : ∃ t, engineCompletes s = .next t := by
  unfold engineCompletes
  split
  · exact runCommand_next s
  · exact ⟨s, rfl⟩

/-- No event but a narrow access is refused (20_memory.md R75). -/
theorem handleEvent_next {e : Event} (he : ∀ off, e ≠ .narrow off) (s : State) : ∃ t, handleEvent e s = .next t := by
  cases e with
  | read off => exact ⟨_, rfl⟩
  | write off v => exact ⟨_, rfl⟩
  | narrow off => exact absurd rfl (he off)
  | hardReset => exact ⟨_, rfl⟩
  | completion => exact engineCompletes_next s

theorem step_nil {s : State} (hs : s.bus = []) : step s = engineCompletes s := by rw [step, hs]

theorem step_cons {s : State} {e : Event} {rest : List Event} (hs : s.bus = e :: rest) :
    step s = handleEvent e { s with bus := rest } := by rw [step, hs]

/-- Settles O9: the completion of a command and every event but a narrow access answer a next state. -/
theorem stepStopsOnlyOnNarrowAccess : Obligations.StepStopsOnlyOnNarrowAccess := by
  refine ⟨fun s hfull => ?_, fun s off rest hs => step_cons hs⟩
  cases hs : s.bus with
  | nil =>
    rw [step_nil hs]
    exact engineCompletes_next s
  | cons e rest =>
    rw [step_cons hs]
    exact handleEvent_next (fun off he => hfull off rest (he ▸ hs)) _

theorem mmioRead_congr {off off' : Nat} (h : regAt off = regAt off') (s : State) : mmioRead off s = mmioRead off' s := by
  rw [mmioRead, mmioRead, h]

theorem mmioWrite_congr {off off' : Nat} (h : regAt off = regAt off') (v : Word) (s : State) :
    mmioWrite off v s = mmioWrite off' v s := by
  rw [mmioWrite, mmioWrite, h]

/-- A read changes at most OVR (20_memory.md R76, 70_reset_and_hazards.md R310). -/
theorem mmioRead_state (off : Nat) (s : State) : (mmioRead off s).2 = { s with ovr := (mmioRead off s).2.ovr } := by
  rcases mmioRead_cases off s with ⟨-, -, h⟩ | h
  · rw [h]
    rfl
  · rw [h]

/-- A repeated read is refused again, or read again from the same state. -/
theorem mmioRead_again (off : Nat) (s : State) : mmioRead off (mmioRead off s).2 = mmioRead off s := by
  rcases mmioRead_cases off s with ⟨hb, ho, h⟩ | h
  · rw [h, mmioRead, s.noteOverrun_busy, hb, ho]
    rfl
  · rw [h]
    exact h

/-- Settles O51: the two offsets name one register, and a read does one of two things. -/
theorem hostAccessAddressing : Obligations.HostAccessAddressing := by
  intro s v off
  have hreg : regAt off = regAt (4 * (off / 4 % 64)) := regAt_congr (by omega)
  exact ⟨mmioRead_congr hreg s, mmioWrite_congr hreg v s, mmioRead_state off s,
    fun hb => by rw [mmioRead_idle hb], mmioRead_again off s⟩

end Sys2Proof.Machine

/-! # The proofs of the family 30_encoding

## A command word, field by field

A word with bits 11, 15 and 19 clear is its OPC and its four operand fields, and a row of the table reads the fields
as a command exactly when they are the fields of that command. Both directions of the coding follow from this. -/

namespace Sys2Proof

/-- The operand fields of a command's word, 0 where the command has no operand (30_encoding.md R92, R102). -/
def Instr.operands : Instr → Fields
  | .nop => ⟨0, 0, 0, 0⟩
  | .midn d n => ⟨d, 0, 0, n⟩
  | .mmov d a => ⟨d, a, 0, 0⟩
  | .mtrn d a => ⟨d, a, 0, 0⟩
  | .mmul d a b => ⟨d, a, b, 0⟩
  | .minv d a => ⟨d, a, 0, 0⟩
  | .xli d imm => ⟨d, 0, 0, imm⟩
  | .gexp d a => ⟨d, a, 0, 0⟩
  | .glog d a => ⟨d, a, 0, 0⟩
  | .gmul d a b => ⟨d, a, b, 0⟩
  | .gdiv d a b => ⟨d, a, b, 0⟩
  | .gpow d a b => ⟨d, a, b, 0⟩
  | .cgeng d fam => ⟨d, 0, 0, familyCode fam⟩
  | .cgenh d fam => ⟨d, 0, 0, familyCode fam⟩
  | .mblk d a l => ⟨d, a, 0, l⟩
  | .kinv d n => ⟨d, 0, 0, n⟩
  | .kperm d n => ⟨d, 0, 0, n⟩
  | .vmul d a b => ⟨d, a, b, 0⟩
  | .vmov d a => ⟨d, a, 0, 0⟩
  | .vxor d a b => ⟨d, a, b, 0⟩
  | .vnoise d a n => ⟨d, a, 0, n⟩
  | .bsyn d a blk => ⟨d, a, 0, blk⟩
  | .dham d a b => ⟨d, a, b, 0⟩
  | .dbch d a => ⟨d, a, 0, 0⟩
  | .vmsg d a n k => ⟨d, a, 0, n * 64 + k⟩

/-- The word with OPC `opc` and operand fields `f` (30_encoding.md R91). -/
def Fields.word (f : Fields) (opc : Nat) : Word := packWord opc f.rd f.ra f.rb f.imm

/-- Bits 11, 15 and 19 are 0 (30_encoding.md R94 (b)). -/
def ReservedZero (w : Word) : Prop := field w 11 11 = 0 ∧ field w 15 15 = 0 ∧ field w 19 19 = 0

/-- The fields a form does not use are 0 (30_encoding.md R94 (c)). -/
def Form.UnusedZero (f : Fields) : Form → Prop
  | .n => f = ⟨0, 0, 0, 0⟩
  | .di => f.ra = 0 ∧ f.rb = 0
  | .da => f.rb = 0 ∧ f.imm = 0
  | .dab => f.imm = 0
  | .dai => f.rb = 0

/-- The immediate passes the test of its kind (30_encoding.md R94 (d), (e)). -/
def ImmKind.Allows (imm : Nat) : ImmKind → Prop
  | .any => True
  | .fam => imm ≤ 1
  | .n6 => imm < 64

/-- The table reads the operand fields `f` under the opcode `opc` as the command `i` (30_encoding.md R92, R94). -/
def ReadsAs (opc : Nat) (f : Fields) (i : Instr) : Prop :=
  ∃ form kind command, opcodeRow opc = some (form, kind, command) ∧ form.UnusedZero f ∧ kind.Allows f.imm ∧
    command f = i

/-! ### A word and its fields -/

theorem encode_eq_word (i : Instr) : encode i = i.operands.word i.opcode := by
  cases i <;> rfl

theorem packFits_word {f : Fields} {opc : Nat} (ho : opc < 256) (hi : f.imm < 4096) :
    PackFits opc f.rd f.ra f.rb f.imm :=
  ⟨ho, f.rd.isLt, f.ra.isLt, f.rb.isLt, hi⟩

theorem fieldsOf_word {f : Fields} {opc : Nat} (ho : opc < 256) (hi : f.imm < 4096) : fieldsOf (f.word opc) = f := by
  have h := packFits_word ho hi
  simp only [fieldsOf, regField, Fields.word, h.field_rd, h.field_ra, h.field_rb, h.field_imm, Fin.ofNat_val_eq_self]

theorem imm_fieldsOf_lt (w : Word) : (fieldsOf w).imm < 4096 := Nat.mod_lt _ (by decide)

/-- A word with its reserved bits 0 is put together again from its fields. -/
theorem word_fieldsOf {w : Word} (h : ReservedZero w) : (fieldsOf w).word (field w 7 0) = w := by
  obtain ⟨h11, h15, h19⟩ := h
  have hw := w.isLt
  apply BitVec.eq_of_toNat_eq
  simp only [Fields.word, packWord, fieldsOf, regField, Fin.val_ofNat, field, BitVec.toNat_ofNat] at *
  omega

theorem reservedZero_iff (w : Word) :
    ReservedZero w ↔ ¬ (field w 11 11 = 1 ∨ field w 15 15 = 1 ∨ field w 19 19 = 1) := by
  simp only [ReservedZero, field]
  omega

theorem regField_eq_zero (w : Word) {hi lo : Nat} (h : hi = lo + 2) : regField w hi lo = 0 ↔ field w hi lo = 0 := by
  subst h
  rw [regField, Fin.ext_iff, Fin.val_ofNat, Fin.val_zero, field, show lo + 2 + 1 - lo = 3 by omega]
  omega

/-- The decoder's test of the unused fields, whose ranges run over the reserved bits between them. -/
theorem unusedFieldSet_iff {w : Word} (h : ReservedZero w) (form : Form) :
    unusedFieldSet form w = true ↔ ¬ form.UnusedZero (fieldsOf w) := by
  obtain ⟨h11, h15, h19⟩ := h
  cases form <;>
    simp only [unusedFieldSet, Form.UnusedZero, fieldsOf, Fields.mk.injEq, regField_eq_zero, bne_iff_ne, ne_eq,
      Bool.or_eq_true, field] at * <;>
    omega

/-- IMM is at least 64 exactly when IMM[11:6] is nonzero. -/
theorem le_imm_iff (w : Word) : 64 ≤ field w 31 20 ↔ field w 31 26 ≠ 0 := by
  simp only [field]
  omega

/-- The decoder's tests of the immediate. -/
theorem illegalImm_iff (w : Word) (kind : ImmKind) :
    (kind = .fam ∧ field w 31 20 > 1) ∨ (kind = .n6 ∧ field w 31 26 ≠ 0) ↔ ¬ kind.Allows (fieldsOf w).imm := by
  rw [← le_imm_iff]
  cases kind <;> simp [ImmKind.Allows, fieldsOf]

/-! ### The decoder and the table -/

theorem ite_error_eq_ok_iff {p : Prop} [Decidable p] {e : IllegalWord} {r : Except IllegalWord Instr} {i : Instr} :
    (if p then .error e else r) = .ok i ↔ ¬ p ∧ r = .ok i := by
  by_cases h : p <;> simp [h]

/-- The decoder accepts a word exactly when its reserved bits are 0 and the table reads its fields
(30_encoding.md R94, R97). -/
theorem decode_eq_ok_iff (w : Word) (i : Instr) :
    decode w = .ok i ↔ ReservedZero w ∧ ReadsAs (field w 7 0) (fieldsOf w) i := by
  unfold decode
  split
  next hrow => simp [ReadsAs, hrow]
  next form kind command hrow =>
    simp only [ite_error_eq_ok_iff, ← reservedZero_iff, Except.ok.injEq]
    refine and_congr_right fun hr => ?_
    rw [unusedFieldSet_iff hr, not_not, ← and_assoc (c := _ = i), ← not_or, illegalImm_iff, not_not]
    simp [ReadsAs, hrow]

theorem familyOf_familyCode (fam : Family) : familyOf (familyCode fam) = fam := by
  cases fam <;> rfl

theorem familyCode_le (fam : Family) : familyCode fam ≤ 1 := by
  cases fam <;> decide

theorem familyCode_familyOf {n : Nat} (h : n ≤ 1) : familyCode (familyOf n) = n := by
  interval_cases n <;> rfl

theorem imm_operands_lt {i : Instr} (hwf : i.wf = true) : i.operands.imm < 4096 := by
  cases i with
  | cgeng d fam => exact Laws.familyCode_lt fam
  | cgenh d fam => exact Laws.familyCode_lt fam
  | vnoise d a n => exact Laws.fits6_lt hwf
  | vmsg d a n k => exact Laws.fits66_lt hwf
  | _ => simp_all [Instr.wf, fitsImm12, Instr.operands]

/-- The table reads the fields of a well-formed command as that command. -/
theorem readsAs_operands {i : Instr} (hwf : i.wf = true) : ReadsAs i.opcode i.operands i := by
  cases i with
  | nop => exact ⟨_, _, _, rfl, rfl, trivial, rfl⟩
  | cgeng d fam => exact ⟨_, _, _, rfl, ⟨rfl, rfl⟩, familyCode_le fam, by rw [Instr.operands, familyOf_familyCode]⟩
  | cgenh d fam => exact ⟨_, _, _, rfl, ⟨rfl, rfl⟩, familyCode_le fam, by rw [Instr.operands, familyOf_familyCode]⟩
  | vnoise d a n =>
    have hn : n < 64 := of_decide_eq_true hwf
    exact ⟨_, _, _, rfl, rfl, hn, by rw [Instr.operands, Nat.mod_eq_of_lt hn]⟩
  | vmsg d a n k =>
    obtain ⟨hn, hk⟩ : n < 64 ∧ k < 64 := by simpa [Instr.wf, fitsImm6] using hwf
    refine ⟨_, _, _, rfl, rfl, trivial, ?_⟩
    simp only [Instr.operands, Instr.vmsg.injEq, true_and]
    omega
  | _ => exact ⟨_, _, _, rfl, by simp [Form.UnusedZero, Instr.operands], trivial, rfl⟩

/-- What the table reads as a command are the fields of that command, and it is well-formed. The proof goes row by
row; an immediate that is not the whole field (FAM, N6, NK) is put together again. -/
theorem ReadsAs.eq_operands {opc : Nat} {f : Fields} {i : Instr} (h : ReadsAs opc f i) (himm : f.imm < 4096) :
    i.wf = true ∧ i.opcode = opc ∧ i.operands = f := by
  obtain ⟨form, kind, command, hrow, hform, hkind, rfl⟩ := h
  obtain ⟨rd, ra, rb, imm⟩ := f
  unfold opcodeRow at hrow
  split at hrow <;> cases hrow <;>
    simp_all [Form.UnusedZero, ImmKind.Allows, Instr.wf, Instr.opcode, Instr.operands, fitsImm12, fitsImm6,
      familyCode_familyOf]
  case h_21 => omega  -- VNOISE: imm % 64
  case h_25 => omega  -- VMSG: imm / 64 and imm % 64

/-- Settles O1: the decoder reads back the fields the encoder packed, and the table reads them as the command. -/
theorem decodeOfEncode : Obligations.DecodeOfEncode := by
  intro i hwf
  have hopc : i.opcode < 256 := Laws.opcode_lt i
  have himm : i.operands.imm < 4096 := imm_operands_lt hwf
  have hfits := packFits_word hopc himm
  rw [decode_eq_ok_iff, encode_eq_word, fieldsOf_word hopc himm]
  refine ⟨hfits.reserved, ?_⟩
  rw [Fields.word, hfits.field_opc]
  exact readsAs_operands hwf

/-- Settles O2: the fields of an accepted word are those of its command, and the word is put together from them. -/
theorem encodeOfDecode : Obligations.EncodeOfDecode := by
  intro w i hdec
  obtain ⟨hreserved, hreads⟩ := (decode_eq_ok_iff w i).mp hdec
  obtain ⟨hwf, hopc, hf⟩ := hreads.eq_operands (imm_fieldsOf_lt w)
  exact ⟨hwf, by rw [encode_eq_word, hf, hopc, word_fieldsOf hreserved]⟩

/-! ## Illegal words (O3) -/

/-- The form of an opcode, nothing when the table has no row for it (30_encoding.md R92). -/
def formOf (opc : Nat) : Option Form := (opcodeRow opc).map fun row => row.1

/-- The immediate test of an opcode. -/
def kindOf (opc : Nat) : Option ImmKind := (opcodeRow opc).map fun row => row.2.1

/-- The opcodes of each form, and those with an immediate test, as 30_encoding.md R92 lists them. -/
theorem opcodes_of_form : ∀ opc : BitVec 8,
    (opc ∈ [(0x00 : BitVec 8)] ↔ formOf opc.toNat = some .n) ∧
    (opc ∈ [(0x01 : BitVec 8), 0x10, 0x20, 0x21, 0x30, 0x31] ↔ formOf opc.toNat = some .di) ∧
    (opc ∈ [(0x02 : BitVec 8), 0x03, 0x05, 0x11, 0x12, 0x41, 0x52] ↔ formOf opc.toNat = some .da) ∧
    (opc ∈ [(0x04 : BitVec 8), 0x13, 0x14, 0x15, 0x40, 0x42, 0x51] ↔ formOf opc.toNat = some .dab) ∧
    (opc ∈ [(0x22 : BitVec 8), 0x43, 0x50, 0x53] ↔ formOf opc.toNat = some .dai) ∧
    (opc = 0x20 ∨ opc = 0x21 ↔ kindOf opc.toNat = some .fam) ∧
    (opc = 0x43 ↔ kindOf opc.toNat = some .n6) := by decide

theorem toNat_extractLsb' (w : Word) {hi lo n : Nat} (h : hi + 1 - lo = n) :
    (w.extractLsb' lo n).toNat = field w hi lo := by
  rw [BitVec.extractLsb'_toNat, Nat.shiftRight_eq_div_pow, field, h]

theorem extractLsb'_ne_zero (w : Word) {hi lo n : Nat} (h : hi + 1 - lo = n) :
    w.extractLsb' lo n ≠ 0 ↔ field w hi lo ≠ 0 := by
  rw [← toNat_extractLsb' w h]
  exact BitVec.toNat_ne

theorem getLsbD_iff_field (w : Word) (j : Nat) : w.getLsbD j = true ↔ field w j j = 1 := by
  rw [BitVec.getLsbD, Nat.testBit_eq_decide_div_mod_eq, decide_eq_true_eq, field, Nat.add_sub_cancel_left, pow_one]

/-- The bits above OPC, in a word whose reserved bits are 0, are the operand fields. -/
theorem fieldsOf_ne_zero {w : Word} (h : ReservedZero w) : fieldsOf w ≠ ⟨0, 0, 0, 0⟩ ↔ field w 31 8 ≠ 0 := by
  have hn := unusedFieldSet_iff h .n
  simpa [unusedFieldSet, Form.UnusedZero] using hn.symm

/-- A word is illegal when its opcode has no row, a reserved bit is 1, or a test of its row fails
(30_encoding.md R94). -/
theorem decode_isError_iff (w : Word) : (∃ e, decode w = .error e) ↔
    formOf (field w 7 0) = none ∨ ¬ ReservedZero w ∨
      (∃ form, formOf (field w 7 0) = some form ∧ ¬ form.UnusedZero (fieldsOf w)) ∨
      ∃ kind, kindOf (field w 7 0) = some kind ∧ ¬ kind.Allows (fieldsOf w).imm := by
  have hok : (∃ e, decode w = .error e) ↔ ¬ ∃ i, decode w = .ok i := by
    cases decode w <;> simp
  rw [hok]
  simp only [decode_eq_ok_iff, ReadsAs, formOf, kindOf]
  rcases opcodeRow (field w 7 0) with _ | ⟨form, kind, command⟩
  · simp
  · simp only [↓existsAndEq, Option.some.injEq, Prod.mk.injEq, and_true, exists_and_left, true_and, not_and,
      Option.map_some, reduceCtorEq, exists_eq_left', false_or]
    tauto

theorem formOf_eq_none_iff (opc : Nat) : formOf opc = none ↔ ¬ (formOf opc = some .n ∨ formOf opc = some .di ∨
    formOf opc = some .da ∨ formOf opc = some .dab ∨ formOf opc = some .dai) := by
  rcases formOf opc with _ | form
  · simp
  · cases form <;> simp

/-- Clause (c) of 30_encoding.md R94, form by form. -/
theorem unusedNonzero_iff (opc : Nat) (f : Fields) : (∃ form, formOf opc = some form ∧ ¬ form.UnusedZero f) ↔
    (formOf opc = some .n ∧ f ≠ ⟨0, 0, 0, 0⟩) ∨ (formOf opc = some .di ∧ (f.ra ≠ 0 ∨ f.rb ≠ 0)) ∨
      (formOf opc = some .da ∧ (f.rb ≠ 0 ∨ f.imm ≠ 0)) ∨ (formOf opc = some .dab ∧ f.imm ≠ 0) ∨
      (formOf opc = some .dai ∧ f.rb ≠ 0) := by
  rcases formOf opc with _ | form
  · simp
  · cases form <;> simp [Form.UnusedZero, imp_iff_not_or]

/-- Clauses (d) and (e) of 30_encoding.md R94. -/
theorem illegalImmediate_iff (opc imm : Nat) : (∃ kind, kindOf opc = some kind ∧ ¬ kind.Allows imm) ↔
    (kindOf opc = some .fam ∧ 1 < imm) ∨ (kindOf opc = some .n6 ∧ 64 ≤ imm) := by
  rcases kindOf opc with _ | kind
  · simp
  · cases kind <;> simp [ImmKind.Allows]

/-- Settles O3: the clauses, read off the bits as the fields the decoder tests. A reserved bit that is 1 makes both
sides true; when none is, the bits above OPC are the operand fields. -/
theorem illegalWordsAreThoseOfR94 : Obligations.IllegalWordsAreThoseOfR94 := by
  intro w
  refine ⟨?_, fun s ⟨e, he⟩ => ⟨?_, ⟨fun _ => rfl, fun _ => rfl, fun _ => rfl⟩, rfl⟩⟩
  · obtain ⟨hn, hdi, hda, hdab, hdai, hfam, hn6⟩ := opcodes_of_form (w.extractLsb' 0 8)
    rw [toNat_extractLsb' w (hi := 7) rfl] at hn hdi hda hdab hdai hfam hn6
    simp only [List.mem_append, hn, hdi, hda, hdab, hdai, hfam, hn6, getLsbD_iff_field,
      toNat_extractLsb' w (hi := 31) rfl, extractLsb'_ne_zero w (hi := 31) rfl, extractLsb'_ne_zero w (hi := 14) rfl,
      extractLsb'_ne_zero w (hi := 18) rfl]
    rw [decode_isError_iff, reservedZero_iff, not_not]
    by_cases hr : ReservedZero w
    · rw [unusedNonzero_iff, illegalImmediate_iff, formOf_eq_none_iff, fieldsOf_ne_zero hr]
      simp only [fieldsOf, ne_eq, regField_eq_zero, le_imm_iff, or_assoc]
    · rw [reservedZero_iff, not_not] at hr
      rcases hr with h | h | h <;> simp [h]
  · simp [Machine.runCommand, he, Machine.illegalCommand]

end Sys2Proof

/-! ## The assembler's lines (O5, O4) -/

namespace Sys2Proof.Machine

/-- A result of the assembler that, when it is no refusal, holds well-formed commands only. -/
def AsmLegal (r : Except AsmError (List Instr)) : Prop := ∀ commands, r = .ok commands → ∀ i ∈ commands, i.wf = true

namespace AsmLegal

theorem error (e : AsmError) : AsmLegal (.error e) := nofun

theorem ok {commands : List Instr} (h : ∀ i ∈ commands, i.wf = true) : AsmLegal (.ok commands) := by
  rintro _ ⟨⟩
  exact h

theorem bind {α : Type} (x : Except AsmError α) {f : α → Except AsmError (List Instr)} (hf : ∀ a, AsmLegal (f a)) :
    AsmLegal (x >>= f) := by
  cases x with
  | error e => exact .error e
  | ok a => exact hf a

theorem whenFits (i : Instr) : AsmLegal (whenFits i) := by
  unfold Machine.whenFits
  split
  · exact .ok (by simpa)
  · exact .error _

variable (ops : List Operand)

theorem asmMF (k : Reg → Family → Instr) : AsmLegal (asmMF k ops) := by
  unfold Machine.asmMF
  split
  · exact bind _ fun fam => whenFits _
  · exact error _

theorem asmPkey : AsmLegal (asmPkey ops) := by
  unfold Machine.asmPkey
  repeat' split
  · exact error _
  · exact ok (by simp [Instr.wf])
  · exact error _

theorem asmMulTransposed : AsmLegal (asmMulTransposed ops) := by
  unfold Machine.asmMulTransposed
  repeat' split
  · exact error _
  · exact ok (by simp [Instr.wf])
  · exact error _

/-- Mnemonic by mnemonic. NOP and the unknown mnemonic stand alone, CGENG and CGENH read a family, PKEY, UNPERM and
HSYN expand; for every other mnemonic the operands match its files, and the command passes `whenFits`, or are
refused. -/
theorem assembleCommand (mnemonic : String) : AsmLegal (assembleCommand mnemonic ops) := by
  unfold Machine.assembleCommand
  split
  case h_1 =>
    split
    · exact ok (by simp [Instr.wf])
    · exact error _
  case h_13 | h_14 => exact asmMF ops _
  case h_26 => exact asmPkey ops
  case h_28 | h_29 => exact asmMulTransposed ops
  case h_31 => exact error _
  all_goals
    simp only [asmMI.eq_def, asmXI.eq_def, asmMM.eq_def, asmXX.eq_def, asmVV.eq_def, asmMMM.eq_def, asmXXX.eq_def,
      asmVVV.eq_def, asmVVM.eq_def, asmMMI.eq_def, asmVVI.eq_def, asmXVI.eq_def, asmVVII.eq_def]
    split
    · exact whenFits _
    · exact error _

end AsmLegal

theorem assembleLine_legal (line : List Char) : AsmLegal (assembleLine line) := by
  unfold assembleLine
  dsimp only
  split
  · exact .ok nofun
  · split <;> exact .bind _ fun ops => .assembleCommand ops _

/-- Settles O5: the assembler lets only well-formed commands through, and those the decoder reads back (O1). -/
theorem assembledLinesDecode : Obligations.AssembledLinesDecode := by
  intro line commands h
  exact ⟨by rw [assembleWords, h]; rfl, fun i hi => decodeOfEncode i (assembleLine_legal line commands h i hi)⟩

/-- A line that assembles to one command makes its word, which decodes to it. -/
theorem word_of_assembleLine {line : List Char} {i : Instr} {w : Word} (h : assembleLine line = .ok [i])
    (hw : encode i = w) : assembleWords line = .ok [w] ∧ decode w = .ok i := by
  obtain ⟨hwords, hdec⟩ := assembledLinesDecode line [i] h
  exact ⟨by rw [hwords, List.map_singleton, hw], hw ▸ hdec i (List.mem_singleton.mpr rfl)⟩

/-- Settles O4: each line assembles to its command, whose word is the listed one. -/
theorem exampleWordsDecode : Obligations.ExampleWordsDecode := by
  refine ⟨?_, ?_, ?_, ?_, ?_, ?_, ?_, ?_, ?_, ?_, ?_, ?_, ?_, ?_, ?_, ?_⟩ <;> exact word_of_assembleLine rfl rfl

/-! ## The pseudo-commands (O60) -/

/-- MMUL of nonempty operands of matching shapes (40_matrix.md R124). -/
theorem exec_mmul {s : State} {d a b : Reg} (ha : Mat.nrows (s.getM a) ≠ 0) (hb : Mat.nrows (s.getM b) ≠ 0)
    (hab : Mat.ncols (s.getM a) = Mat.nrows (s.getM b)) :
    exec (.mmul d a b) s = .next (s.setM d (Mat.mul (s.getM a) (s.getM b))).finish := by
  simp [exec, execMmul, ha, hb, hab]

/-- MTRN of a nonempty operand (40_matrix.md R123). -/
theorem exec_mtrn {s : State} {d a : Reg} (ha : Mat.nrows (s.getM a) ≠ 0) :
    exec (.mtrn d a) s = .next (s.setM d (Mat.transpose (s.getM a))).finish := by
  simp [exec, execMtrn, ha]

/-- VMUL of nonempty operands of matching shapes (44_encoder.md R201). -/
theorem exec_vmul {s : State} {d a b : Reg} (ha : (s.getV a).length ≠ 0)
    (hab : (s.getV a).length = Mat.nrows (s.getM b)) :
    exec (.vmul d a b) s = .next (s.setV d (Vec.mulMat (s.getV a) (s.getM b))).finish := by
  simp [exec, execVmul, hab, hab ▸ ha]

/-- The two commands of PKEY: the second reads the product the first left, and the permutation it did not touch. -/
theorem exec_pkey {s : State} {d x g p : Reg} (hdp : d ≠ p) (hx : Mat.nrows (s.getM x) ≠ 0)
    (hg : Mat.nrows (s.getM g) ≠ 0) (hp : Mat.nrows (s.getM p) ≠ 0)
    (hxg : Mat.ncols (s.getM x) = Mat.nrows (s.getM g)) (hgp : Mat.ncols (s.getM g) = Mat.nrows (s.getM p)) :
    ∃ t u, exec (.mmul d x g) s = .next t ∧ exec (.mmul d d p) t = .next u ∧
      u.getM d = Mat.mul (Mat.mul (s.getM x) (s.getM g)) (s.getM p) ∧ u.err = s.err := by
  have hshape := Mat.shape_mul (s.getM x) (s.getM g)
  have hp' : (s.setM d (Mat.mul (s.getM x) (s.getM g))).finish.getM p = s.getM p := by
    simp [State.getM_setM_ne _ _ _ _ hdp]
  refine ⟨_, _, exec_mmul hx hg hxg, exec_mmul ?_ ?_ ?_, ?_, by simp⟩
  · simpa [hshape.nrows] using hx
  · rwa [hp']
  · rw [hp']
    simpa [hshape.ncols (Nat.pos_of_ne_zero hx)] using hgp
  · rw [hp']
    simp

/-- The two commands of UNPERM: the second reads the transpose the first left, which has a row for each of the
vector's coordinates. -/
theorem exec_mulTransposed {s : State} (hs : s.Inv) {d a p t : Reg} (hp : Mat.nrows (s.getM p) ≠ 0)
    (hap : (s.getV a).length = Mat.ncols (s.getM p)) :
    ∃ u w, exec (.mtrn t p) s = .next u ∧ exec (.vmul d a t) u = .next w ∧
      w.getV d = Vec.mulMat (s.getV a) (Mat.transpose (s.getM p)) ∧ w.err = s.err := by
  have hwf := hs.matrices p
  obtain ⟨hrows, hcols⟩ := hwf.pos hp
  have hshape := Mat.shape_transpose hwf.hasShape hrows
  refine ⟨_, _, exec_mtrn hp, exec_vmul ?_ ?_, ?_, by simp⟩
  · simpa [hap] using hcols.ne'
  · simpa [hshape.nrows] using hap
  · simp

/-- Settles O60: the expansions by evaluation, the products by the two commands of each. -/
theorem pseudoCommandsExpand : Obligations.PseudoCommandsExpand :=
  ⟨fun _ _ _ _ => rfl, fun _ _ _ => rfl, fun _ _ _ _ => rfl, fun _ _ _ _ hth => if_neg hth, fun _ _ _ => rfl,
    fun _ _ _ _ _ _ hdp hx hg hp hxg hgp => exec_pkey hdp hx hg hp hxg hgp,
    fun _ _ _ _ _ hs _ hp hap => exec_mulTransposed hs hp hap⟩

end Sys2Proof.Machine

/-! ## The matrix algebra commands and the copies (O20, O21, O22, O23, O24) -/

namespace Sys2Proof.Machine

/-! ### What each command answers, in the order of its tests (40_matrix.md R121 to R126, 44_encoder.md R203) -/

theorem exec_midn (d : Reg) (n : Nat) (s : State) :
    exec (.midn d n) s =
      if 1 ≤ n ∧ n ≤ Config.dmax then .next (s.setM d (Mat.identity n)).finish else .next (s.takeFault .shape) := by
  simp only [exec, execMidn, sizeImm_bind, complete_ite, complete_ok, complete_error]

theorem exec_mmov (d a : Reg) (s : State) :
    exec (.mmov d a) s =
      if Mat.nrows (s.getM a) = 0 then .next (s.takeFault .shape) else .next (s.setM d (s.getM a)).finish := by
  simp only [exec, execMmov, matOperand_bind, complete_ite, complete_ok, complete_error]

theorem exec_vmov (d a : Reg) (s : State) :
    exec (.vmov d a) s =
      if (s.getV a).length = 0 then .next (s.takeFault .shape) else .next (s.setV d (s.getV a)).finish := by
  simp only [exec, execVmov, vecOperand_bind, complete_ite, complete_ok, complete_error]

/-- An empty operand (40_matrix.md R123). -/
theorem exec_mtrn_shape {s : State} {d a : Reg} (h : Mat.nrows (s.getM a) = 0) :
    exec (.mtrn d a) s = .next (s.takeFault .shape) := by
  simp [exec, execMtrn, h]

/-- An empty operand or a dimension mismatch (40_matrix.md R124). -/
theorem exec_mmul_shape {s : State} {d a b : Reg}
    (h : Mat.nrows (s.getM a) = 0 ∨ Mat.nrows (s.getM b) = 0 ∨ Mat.ncols (s.getM a) ≠ Mat.nrows (s.getM b)) :
    exec (.mmul d a b) s = .next (s.takeFault .shape) := by
  simp only [exec, execMmul, matOperand_bind, require_bind]
  split_ifs with ha hb hab
  · rfl
  · rfl
  · exact absurd h (by simp [ha, hb, hab])
  · rfl

/-- An empty or non-square operand (40_matrix.md R125). -/
theorem exec_minv_shape {s : State} {d a : Reg}
    (h : Mat.nrows (s.getM a) = 0 ∨ Mat.nrows (s.getM a) ≠ Mat.ncols (s.getM a)) :
    exec (.minv d a) s = .next (s.takeFault .shape) := by
  simp only [exec, execMinv, matOperand_bind, require_bind]
  split_ifs with ha hsq
  · rfl
  · exact absurd h (not_or_intro ha (not_not_intro hsq))
  · rfl

section
variable {s : State} {d a : Reg} (ha : Mat.nrows (s.getM a) ≠ 0) (hsq : Mat.nrows (s.getM a) = Mat.ncols (s.getM a))
include ha hsq

/-- A square operand that Gauss-Jordan inverts (40_matrix.md R125). -/
theorem exec_minv_inverse {T : Mat} (hT : Mat.gaussJordanInverse (s.getM a) = some T) :
    exec (.minv d a) s = .next (s.setM d T).finish := by
  simp only [exec, execMinv, matOperand_bind, require_bind, if_neg ha, if_pos hsq, hT, complete_ok]

/-- A square operand that Gauss-Jordan does not invert (40_matrix.md R126). -/
theorem exec_minv_singular (hT : Mat.gaussJordanInverse (s.getM a) = none) :
    exec (.minv d a) s = .next (s.takeFault .singular) := by
  simp only [exec, execMinv, matOperand_bind, require_bind, if_neg ha, if_pos hsq, hT, complete_error]

end

theorem State.setV_getV_self (s : State) (i : Reg) : s.setV i (s.getV i) = s := by
  simp [State.setV, State.getV]

/-! ### The statements -/

/-- Settles O20: MIDN writes `Mat.identity n`, whose bits are known. -/
theorem midnWritesIdentity : Obligations.MidnWritesIdentity := by
  refine fun d n s => ⟨rfl, fun h1 h2 => ⟨Mat.identity n, ?_, Mat.shape_identity n, fun r c => Mat.bit_identity⟩,
    fun h => ?_⟩
  · rw [exec_midn, if_pos ⟨h1, h2⟩]
  · rw [exec_midn, if_neg (by simp only [Config.dmax]; omega)]

/-- Settles O21: a copy writes the operand's own value, which in its own register changes nothing. -/
theorem mmovVmovCopy : Obligations.MmovVmovCopy := by
  refine fun d a s => ⟨rfl, rfl, fun h => ⟨?_, ?_⟩, fun h => ?_, fun h => ⟨?_, ?_⟩, fun h => ?_⟩
  · rw [exec_mmov, if_neg h]
  · rw [exec_mmov, if_neg h, State.setM_getM_self]
  · rw [exec_mmov, if_pos h]
  · rw [exec_vmov, if_neg h]
  · rw [exec_vmov, if_neg h, State.setV_getV_self]
  · rw [exec_vmov, if_pos h]

/-- Settles O22: MTRN writes `Mat.transpose` of its operand, whose rows have one length by the invariant. -/
theorem mtrnTransposes : Obligations.MtrnTransposes := by
  intro d a s A
  refine ⟨rfl, fun hs hA => ⟨Mat.transpose A, exec_mtrn hA, ?_, fun r c _ hc => Mat.bit_transpose A hc⟩,
    exec_mtrn_shape⟩
  exact Mat.shape_transpose (hs.matrices a).hasShape (Nat.pos_of_ne_zero hA)

/-- Settles O23: MMUL writes `Mat.mul` of its operands, whose inner dimensions agree and are not 0. -/
theorem mmulIsProduct : Obligations.MmulIsProduct := by
  intro d a b s A B
  refine ⟨rfl, fun hs hA hB hAB => ⟨Mat.mul A B, exec_mmul hA hB hAB, Mat.shape_mul A B, fun r c hr hc => ?_⟩,
    exec_mmul_shape⟩
  have hshapeA : Mat.HasShape A (Mat.nrows A) (Mat.ncols A) := (hs.matrices a).hasShape
  have hshapeB : Mat.HasShape B (Mat.ncols A) (Mat.ncols B) := hAB ▸ (hs.matrices b).hasShape
  exact Mat.bit_mul hshapeA hshapeB ((hs.matrices a).pos hA).2 hr hc

/-- Settles O24: Gauss-Jordan answers the two-sided inverse, or nothing, and then there is none. -/
theorem minvIsInverse : Obligations.MinvIsInverse := by
  intro d a s A n
  refine ⟨rfl, fun hs hn hsq => ?_, exec_minv_shape⟩
  have hshape : Mat.HasShape A n n := ⟨rfl, fun row hrow => ((hs.matrices a).hasShape.2 row hrow).trans hsq⟩
  rcases Mat.gaussJordanInverse_cases hshape (Nat.pos_of_ne_zero hn) with ⟨T, hT, hinv⟩ | ⟨hT, hnone⟩
  · exact ⟨fun _ => ⟨T, exec_minv_inverse hn hsq.symm hT, hinv⟩,
      fun hno => absurd ⟨T, hinv.1, hinv.2.1⟩ hno⟩
  · exact ⟨fun h => absurd h hnone, fun _ => exec_minv_singular hn hsq.symm hT⟩

end Sys2Proof.Machine

/-! # The proofs of the family 41_gf

## The GF(2^4) commands (O25, O26, O27, O28, O29, O30)

Each command answers by the order of its tests; the statements then go through the cases of its field function. -/

namespace Sys2Proof.Machine

/-! ### Field elements in scalar registers, and mod15 (41_gf.md R140, 00_scope.md R16) -/

/-- The zero extension of a field element is the number it is written as (41_gf.md R140). -/
theorem State.setXNat_toNat (s : State) (d : Reg) (p : Gf) : s.setXNat d p.toNat = s.setX d (p.setWidth 16) := by
  rw [State.setXNat, BitVec.ofNat_toNat]

/-- A scalar in the field's range loses nothing when it is read as a field element. -/
theorem toNat_setWidth_gf {x : Scalar} (h : x.toNat ≤ 15) : (x.setWidth 4).toNat = x.toNat := by
  rw [BitVec.toNat_setWidth, Nat.mod_eq_of_lt (Nat.lt_succ_of_le h)]

theorem setWidth_gf_eq_zero_iff {x : Scalar} (h : x.toNat ≤ 15) : x.setWidth 4 = (0 : Gf) ↔ x.toNat = 0 := by
  rw [← BitVec.toNat_inj, toNat_setWidth_gf h]
  rfl

theorem mod15_natCast (n : Nat) : mod15 (n : Int) = n % 15 := by
  rw [mod15]
  omega

/-- "The result is always in 0..14" (41_gf.md R143). -/
theorem logOf_le : ∀ e : Gf, e ≠ 0 → logOf e ≤ 14 := by decide

/-! ### The field functions by cases (41_gf.md R144 to R146) -/

theorem gfMul_eq_zero {x y : Gf} (h : x = 0 ∨ y = 0) : gfMul x y = 0 := if_pos h

theorem gfMul_of_ne_zero {x y : Gf} (hx : x ≠ 0) (hy : y ≠ 0) : gfMul x y = expOf ((logOf x + logOf y) % 15) := by
  rw [gfMul, if_neg (not_or_intro hx hy), ← Nat.cast_add, mod15_natCast]

/-- 0 divided by any element is 0, 0 divided by 0 included. -/
theorem gfDiv_zero_left (y : Gf) : gfDiv 0 y = .ok 0 := by
  simp [gfDiv, gfQuot]

theorem gfDiv_zero_right {x : Gf} (hx : x ≠ 0) : gfDiv x 0 = .error .gfDiv0 := if_pos ⟨hx, rfl⟩

theorem gfDiv_of_ne_zero {x y : Gf} (hy : y ≠ 0) : gfDiv x y = .ok (gfQuot x y) := if_neg fun h => hy h.2

theorem gfQuot_of_ne_zero {x y : Gf} (hx : x ≠ 0) :
    gfQuot x y = expOf (((logOf x : Int) - logOf y) % 15).toNat := if_neg hx

/-- The power 0 is 1, also of the element 0. -/
theorem gfPow_zero (x : Gf) : gfPow x 0 = .ok 1 := if_pos rfl

theorem gfPow_zero_of_pos {n : Int} (h : 0 < n) : gfPow 0 n = .ok 0 := by
  rw [gfPow, if_neg h.ne', if_pos rfl, if_pos h]

theorem gfPow_zero_of_neg {n : Int} (h : n < 0) : gfPow 0 n = .error .gfDomain := by
  rw [gfPow, if_neg h.ne, if_pos rfl, if_neg h.not_gt]

theorem gfPow_of_ne_zero {x : Gf} {n : Int} (hx : x ≠ 0) (hn : n ≠ 0) :
    gfPow x n = .ok (expOf ((logOf x * n) % 15).toNat) := by
  rw [gfPow, if_neg hn, if_neg hx, mod15]

/-! ### The checks of two field operands, and the completion with a field element -/

/-- Both operands are checked before anything is computed: one above 15 faults with GF_DOMAIN (41_gf.md R140). -/
theorem gfOperands_bind {β : Type} (s : State) (a b : Reg) (f : Gf → Gf → Except FaultCause β) :
    (gfOperand s a >>= fun x => gfOperand s b >>= f x) =
      if 15 < (s.getX a).toNat ∨ 15 < (s.getX b).toNat then .error .gfDomain
      else f ((s.getX a).setWidth 4) ((s.getX b).setWidth 4) := by
  rw [gfOperand_bind, gfOperand_bind]
  by_cases ha : 15 < (s.getX a).toNat
  · rw [if_pos ha, if_pos (.inl ha)]
  · rw [if_neg ha, if_congr (or_iff_right ha) rfl rfl]

/-- The outcome of a command whose result is r: the field element, zero-extended to X[d], or its fault. -/
def fieldOutcome (d : Reg) (s : State) : Except FaultCause Gf → Host.Outcome State Fault Refusal
  | .ok p => .next (s.setX d (p.setWidth 16)).finish
  | .error c => .next (s.takeFault c)

@[simp] theorem fieldOutcome_ok (d : Reg) (s : State) (p : Gf) :
    fieldOutcome d s (.ok p) = .next (s.setX d (p.setWidth 16)).finish := rfl

@[simp] theorem fieldOutcome_error (d : Reg) (s : State) (c : FaultCause) :
    fieldOutcome d s (.error c) = .next (s.takeFault c) := rfl

theorem complete_bind_setXNat (d : Reg) (s : State) (r : Except FaultCause Gf) :
    complete s (r >>= fun p => .ok (s.setXNat d p.toNat)) = fieldOutcome d s r := by
  cases r with
  | ok p => rw [ok_bind, complete_ok, State.setXNat_toNat, fieldOutcome_ok]
  | error c => rfl

/-! ### What each command answers, in the order of its tests (41_gf.md R141 to R146) -/

theorem exec_xli (d : Reg) (imm : Nat) (s : State) :
    exec (.xli d imm) s = .next (s.setX d (BitVec.ofNat 16 imm)).finish := rfl

theorem exec_gexp (d a : Reg) (s : State) :
    exec (.gexp d a) s =
      if (s.getX a).toNat ≤ 29 then .next (s.setX d ((expOf (s.getX a).toNat).setWidth 16)).finish
      else .next (s.takeFault .gfDomain) := by
  simp only [exec, execGexp, require_bind, complete_ite, complete_ok, complete_error, State.setXNat_toNat]
  rfl

theorem exec_glog (d a : Reg) (s : State) :
    exec (.glog d a) s =
      if 15 < (s.getX a).toNat then .next (s.takeFault .gfDomain)
      else if (s.getX a).setWidth 4 ≠ (0 : Gf) then
        .next (s.setX d (BitVec.ofNat 16 (logOf ((s.getX a).setWidth 4)))).finish
      else .next (s.takeFault .gfDomain) := by
  simp only [exec, execGlog, gfOperand_bind, require_bind, complete_ite, complete_ok, complete_error, State.setXNat]

theorem exec_gmul (d a b : Reg) (s : State) :
    exec (.gmul d a b) s =
      if 15 < (s.getX a).toNat ∨ 15 < (s.getX b).toNat then .next (s.takeFault .gfDomain)
      else .next (s.setX d ((gfMul ((s.getX a).setWidth 4) ((s.getX b).setWidth 4)).setWidth 16)).finish := by
  simp only [exec, execGmul, gfOperands_bind, complete_ite, complete_ok, complete_error, State.setXNat_toNat]

theorem exec_gdiv (d a b : Reg) (s : State) :
    exec (.gdiv d a b) s =
      if 15 < (s.getX a).toNat ∨ 15 < (s.getX b).toNat then .next (s.takeFault .gfDomain)
      else fieldOutcome d s (gfDiv ((s.getX a).setWidth 4) ((s.getX b).setWidth 4)) := by
  simp only [exec, execGdiv, gfOperands_bind, complete_ite, complete_error, complete_bind_setXNat]

theorem exec_gpow (d a b : Reg) (s : State) :
    exec (.gpow d a b) s =
      if 15 < (s.getX a).toNat then .next (s.takeFault .gfDomain)
      else fieldOutcome d s (gfPow ((s.getX a).setWidth 4) (s.getX b).toInt) := by
  simp only [exec, execGpow, gfOperand_bind, intOperand, complete_ite, complete_error, complete_bind_setXNat]

/-! ### The statements -/

/-- Settles O27: LOG is at most 14 and EXP takes it back to the element. -/
theorem glogIsTheLogarithm : Obligations.GlogIsTheLogarithm := by
  intro d a s e
  refine ⟨rfl, fun h1 h15 => ?_, fun h => ?_⟩
  · have hne : (s.getX a).setWidth 4 ≠ (0 : Gf) :=
      mt (setWidth_gf_eq_zero_iff h15).mp (Nat.one_le_iff_ne_zero.mp h1)
    refine ⟨logOf ((s.getX a).setWidth 4), logOf_le _ hne, ?_, ?_, ?_⟩
    · rw [BitVec.ofNat_toNat]
    · rw [expOf_logOf _ hne, toNat_setWidth_gf h15]
    · rw [exec_glog, if_neg h15.not_gt, if_pos hne]
  · rw [exec_glog]
    rcases h with h0 | h15
    · have h15 : (s.getX a).toNat ≤ 15 := h0.trans_le (Nat.zero_le 15)
      rw [if_neg h15.not_gt, if_neg (not_not_intro ((setWidth_gf_eq_zero_iff h15).mpr h0))]
    · rw [if_pos h15]

/-- Settles O28: the result is `gfMul` of the operands, by its two cases. -/
theorem gmulMultiplies : Obligations.GmulMultiplies := by
  refine fun d a b s => ⟨rfl, fun ha hb => ⟨_, ?_, gfMul_eq_zero, gfMul_of_ne_zero⟩, fun h => ?_⟩
  · rw [exec_gmul, if_neg (not_or_intro ha.not_gt hb.not_gt)]
  · rw [exec_gmul, if_pos h]

/-- Settles O29: the result is `gfDiv` of the operands, by its three cases; multiplying back undoes the quotient. -/
theorem gdivDivides : Obligations.GdivDivides := by
  intro d a b s x y
  refine ⟨rfl, fun h => by rw [exec_gdiv, if_pos h], fun ha hb => ?_⟩
  have hexec : exec (.gdiv d a b) s = fieldOutcome d s (gfDiv x y) := by
    rw [exec_gdiv, if_neg (not_or_intro ha.not_gt hb.not_gt)]
  refine ⟨fun hx => ?_, fun hx hy => ?_, fun hx hy => ⟨gfQuot x y, ?_, gfQuot_of_ne_zero hx, gfMul_gfQuot x y hy⟩⟩
  · rw [hexec, hx, gfDiv_zero_left]
    rfl
  · rw [hexec, hy, gfDiv_zero_right hx, fieldOutcome_error]
  · rw [hexec, gfDiv_of_ne_zero hy, fieldOutcome_ok]

/-- Settles O30: the result is `gfPow` of the base and the signed exponent, by its four cases. -/
theorem gpowIsThePower : Obligations.GpowIsThePower := by
  intro d a b s x n
  refine ⟨rfl, fun h => by rw [exec_gpow, if_pos h], fun ha => ?_⟩
  have hexec : exec (.gpow d a b) s = fieldOutcome d s (gfPow x n) := by
    rw [exec_gpow, if_neg ha.not_gt]
  refine ⟨fun hn => ?_, fun hx hn => ?_, fun hx hn => ?_, fun hx hn => ?_⟩
  · rw [hexec, hn, gfPow_zero]
    rfl
  · rw [hexec, hx, gfPow_zero_of_pos hn]
    rfl
  · rw [hexec, hx, gfPow_zero_of_neg hn, fieldOutcome_error]
  · rw [hexec, gfPow_of_ne_zero hx hn, fieldOutcome_ok]

/-- Settles O25: an immediate of 12 bits is the same number in 16. -/
theorem xliLoadsImmediate : Obligations.XliLoadsImmediate := by
  refine fun d imm s => ⟨rfl, fun h => ?_⟩
  rw [exec_xli, BitVec.setWidth_ofNat_of_le_of_lt (by omega) (by omega)]

/-- Settles O26: the index is tested against 29 and the table read. -/
theorem gexpReadsTheExpTable : Obligations.GexpReadsTheExpTable := by
  refine fun d a s => ⟨rfl, fun h => ?_, fun h => ?_⟩
  · rw [exec_gexp, if_pos h]
  · rw [exec_gexp, if_neg (by omega)]

end Sys2Proof.Machine

/-! # The proofs of the family 42_code

## The code matrices (O32) -/

namespace Sys2Proof.Machine

/-- The column values of R163: bit r of entry j is `H_HAM[r][j]` (42_code.md R163). -/
def hammingColumns : List Nat := [3, 5, 6, 7, 9, 10, 11, 12, 13, 14, 15, 1, 2, 4, 8]

/-- The coefficients of g(x), x^0 first (42_code.md R165). -/
def bchGenerator : Vec := [true, true, true, false, true, false, false, false, true]

/-- The quotient of row i of G_BCH by g(x). The row agrees with x^i below x^7, so the quotient is the power series
x^i / g(x) cut off there. -/
def bchQuotient (i : Nat) : Vec := (Vec.zero i ++ [true, true, false, true, false, false, false]).take 7

theorem bit_parHamming :
    ∀ r, r < 4 → ∀ j, j < 15 → Mat.bit parHamming r j = (hammingColumns.getD j 0).testBit r := by decide

theorem bit_genHamming : ∀ i, i < 11 → ∀ j, j < 15 → Mat.bit genHamming i j =
    if j < 11 then decide (i = j) else (hammingColumns.getD i 0).testBit (j - 11) := by decide

theorem bit_genBch_message : ∀ i, i < 7 → ∀ j, j < 7 → Mat.bit genBch i j = decide (i = j) := by decide

theorem length_bchQuotient : ∀ i, i < 7 → (bchQuotient i).length = 7 := by decide

theorem bit_genBch_multiple : ∀ i, i < 7 → ∀ j, j < 15 → Mat.bit genBch i j =
    xorSum 7 (fun k => decide (k ≤ j) && Vec.bit (bchQuotient i) k && Vec.bit bchGenerator (j - k)) := by decide

theorem bit_parBch : ∀ r, r < 8 → ∀ j, j < 15 → Mat.bit parBch r j =
    if j < 7 then Mat.bit genBch j (7 + r) else decide (j = 7 + r) := by decide

/-- Settles O32: the commands write the listed constants, whose bits are those of the rules. -/
theorem cgengCgenhWriteTheCodeMatrices : Obligations.CgengCgenhWriteTheCodeMatrices :=
  ⟨fun _ => ⟨rfl, rfl, rfl, rfl⟩, genHamming, parHamming, genBch, parBch, fun _ _ => ⟨rfl, rfl, rfl, rfl⟩,
    shape_parHamming, bit_parHamming, shape_genHamming, bit_genHamming, shape_genBch, bit_genBch_message,
    fun i hi => ⟨bchQuotient i, length_bchQuotient i hi, bit_genBch_multiple i hi⟩, shape_parBch, bit_parBch⟩

end Sys2Proof.Machine

/-! ## Block-diagonal replication (O33) -/

namespace Sys2Proof.Machine

/-- Entry b * R + i of L lists of length R put together is entry i of list b. -/
theorem getElem?_flatMap_range {α : Type} {f : Nat → List α} {R : Nat} (hf : ∀ b, (f b).length = R) {L b i : Nat}
    (hb : b < L) (hi : i < R) : ((List.range L).flatMap f)[b * R + i]? = (f b)[i]? := by
  induction L with
  | zero => omega
  | succ L ih =>
    have hlen : ((List.range L).flatMap f).length = L * R := by simp [List.length_flatMap, hf]
    rw [List.range_succ, List.flatMap_append]
    rcases Nat.lt_succ_iff_lt_or_eq.mp hb with h | rfl
    · have : (b + 1) * R ≤ L * R := Nat.mul_le_mul_right R h
      rw [Nat.succ_mul] at this
      rw [List.getElem?_append_left (by omega), ih h]
    · rw [List.getElem?_append_right (by omega), hlen, Nat.add_sub_cancel_left]
      simp

theorem Vec.bit_append (u w : Vec) (j : Nat) :
    Vec.bit (u ++ w) j = if j < u.length then Vec.bit u j else Vec.bit w (j - u.length) := by
  split_ifs with h
  · exact List.getD_append u w false j h
  · exact List.getD_append_right u w false j (Nat.not_lt.mp h)

/-- A vector between p zeros and q zeros. -/
theorem Vec.bit_padded (p q : Nat) (v : Vec) (c : Nat) :
    Vec.bit (Vec.zero p ++ v ++ Vec.zero q) c = (decide (p ≤ c) && Vec.bit v (c - p)) := by
  rw [List.append_assoc, Vec.bit_append, Vec.bit_append, Vec.bit_zero, Vec.bit_zero, Vec.length_zero]
  rcases Nat.lt_or_ge c p with hp | hp
  · simp [hp]
  · rcases Nat.lt_or_ge (c - p) v.length with hv | hv
    · simp [hp, hv]
    · simp [hp, Vec.bit_of_le v _ hv]

/-- Row b * R + i of L copies of A is row i of A, between the zeros of the blocks before and after block b. -/
theorem Mat.row_blockDiagonal {A : Mat} {R C L b i : Nat} (h : Mat.HasShape A R C) (hb : b < L) (hi : i < R) :
    Mat.row (Mat.blockDiagonal A L) (b * R + i) = Vec.zero (b * C) ++ Mat.row A i ++ Vec.zero ((L - 1 - b) * C) := by
  have hiA : i < A.length := h.1 ▸ hi
  rw [Mat.row, List.getD_eq_getElem?_getD, Mat.blockDiagonal, getElem?_flatMap_range (fun b => by simp [h.1]) hb hi]
  simp [Mat.row, hiA, h.ncols (Nat.zero_lt_of_lt hi)]

/-- Bit (b * R + i, c) of L copies of A along the diagonal (42_code.md R167). -/
theorem Mat.bit_blockDiagonal {A : Mat} {R C L b i : Nat} (h : Mat.HasShape A R C) (hC : 0 < C) (hb : b < L)
    (hi : i < R) (c : Nat) :
    Mat.bit (Mat.blockDiagonal A L) (b * R + i) c = (decide (c / C = b) && Mat.bit A i (c % C)) := by
  have hdiv : C * (c / C) + c % C = c := Nat.div_add_mod c C
  have hmod : c % C < C := Nat.mod_lt c hC
  rw [Mat.bit, Mat.row_blockDiagonal h hb hi, Vec.bit_padded, Nat.mul_comm b C]
  rcases Nat.lt_trichotomy (c / C) b with hlt | heq | hgt
  · have : C * (c / C + 1) ≤ C * b := Nat.mul_le_mul_left C hlt
    rw [Nat.mul_succ] at this
    simp [hlt.ne, show ¬ C * b ≤ c by omega]
  · rw [← heq, show c - C * (c / C) = c % C by omega]
    simp [Nat.mul_div_le, Mat.bit]
  · have : C * (b + 1) ≤ C * (c / C) := Nat.mul_le_mul_left C hgt
    rw [Nat.mul_succ] at this
    rw [Vec.bit_of_le _ _ (by rw [h.length_row hi]; omega)]
    simp [hgt.ne']

theorem exec_mblk (d a : Reg) (l : Nat) (s : State) :
    exec (.mblk d a l) s =
      if Mat.nrows (s.getM a) = 0 then .next (s.takeFault .shape)
      else if 1 ≤ l ∧ l * Mat.nrows (s.getM a) ≤ Config.dmax ∧ l * Mat.ncols (s.getM a) ≤ Config.dmax then
        .next (s.setM d (Mat.blockDiagonal (s.getM a) l)).finish
      else .next (s.takeFault .shape) := by
  simp only [exec, execMblk, matOperand_bind, require_bind, complete_ite, complete_ok, complete_error]

/-- Settles O33: MBLK writes `Mat.blockDiagonal` of its operand, whose bits are known, and tests the sizes first. -/
theorem mblkReplicatesBlocks : Obligations.MblkReplicatesBlocks := by
  refine fun d a l s => ⟨rfl, fun hs hR hl hlR hlC => ⟨Mat.blockDiagonal (s.getM a) l, ?_, ?_, ?_⟩, fun h => ?_⟩
  · rw [exec_mblk, if_neg hR, if_pos ⟨hl, hlR, hlC⟩]
  · exact Mat.shape_blockDiagonal (hs.matrices a).hasShape (Nat.pos_of_ne_zero hR) l
  · intro b i c hb hi _
    exact Mat.bit_blockDiagonal (hs.matrices a).hasShape ((hs.matrices a).pos hR).2 hb hi c
  · rw [exec_mblk]
    split_ifs with hR hsize
    · rfl
    · simp only [Config.dmax] at hsize
      omega
    · rfl

end Sys2Proof.Machine

/-! ## Orthogonality (O34) -/

namespace Sys2Proof.Machine

theorem xorSum_add (m n : Nat) (f : Nat → Bool) :
    xorSum (m + n) f = Bool.xor (xorSum m f) (xorSum n fun j => f (m + j)) := by
  induction n with
  | zero => simp
  | succ n ih => rw [← Nat.add_assoc, xorSum_succ, ih, xorSum_succ, Bool.xor_assoc]

/-- A sum over l blocks of n places is the sum of the blocks' sums. -/
theorem xorSum_mul (l n : Nat) (f : Nat → Bool) :
    xorSum (l * n) f = xorSum l fun b => xorSum n fun j => f (b * n + j) := by
  induction l with
  | zero => simp
  | succ l ih => rw [Nat.succ_mul, xorSum_add, ih, xorSum_succ]

theorem shape_generatorMatrix (fam : Family) :
    Mat.HasShape (generatorMatrix fam) (Mat.nrows (generatorMatrix fam)) 15 := by
  cases fam
  · exact shape_genHamming
  · exact shape_genBch

theorem shape_parityMatrix (fam : Family) :
    Mat.HasShape (parityMatrix fam) (Mat.nrows (parityMatrix fam)) 15 := by
  cases fam
  · exact shape_parHamming
  · exact shape_parBch

/-- Every row of the generator matrix is orthogonal to every row of the parity-check matrix (42_code.md R168). -/
theorem generator_parity_orthogonal (fam : Family) : ∀ i, i < Mat.nrows (generatorMatrix fam) →
    ∀ k, k < Mat.nrows (parityMatrix fam) →
      xorSum 15 (fun j => Mat.bit (generatorMatrix fam) i j && Mat.bit (parityMatrix fam) k j) = false := by
  cases fam <;> decide

/-- Column j of block b of L copies of A is column j of A in the rows of copy b, and 0 in the others. -/
theorem Mat.bit_blockDiagonal_block {A : Mat} {R C L r j : Nat} (h : Mat.HasShape A R C) (hr : r < L * R) (hj : j < C)
    (b : Nat) : Mat.bit (Mat.blockDiagonal A L) r (b * C + j) = (decide (b = r / R) && Mat.bit A (r % R) j) := by
  have hC : 0 < C := Nat.zero_lt_of_lt hj
  have hR : 0 < R := Nat.pos_of_mul_pos_left (Nat.zero_lt_of_lt hr)
  have hcopy : r / R < L := Nat.div_lt_of_lt_mul (Nat.mul_comm L R ▸ hr)
  have hbit := Mat.bit_blockDiagonal h hC hcopy (Nat.mod_lt r hR) (b * C + j)
  rwa [Nat.div_add_mod', Nat.add_comm (b * C), Nat.add_mul_div_right _ _ hC, Nat.div_eq_of_lt hj, Nat.zero_add,
    Nat.add_mul_mod_self_right, Nat.mod_eq_of_lt hj, Nat.add_comm j] at hbit

/-- Block-diagonal matrices have orthogonal rows when their blocks have: every block of columns contributes a product
of rows of the blocks, or 0. -/
theorem Mat.mul_blockDiagonal_transpose_eq_zeros {A B : Mat} {R K C l : Nat} (hA : Mat.HasShape A R C)
    (hB : Mat.HasShape B K C) (hR : 0 < R) (hK : 0 < K) (hC : 0 < C) (hl : 1 ≤ l)
    (horth : ∀ i, i < R → ∀ k, k < K → xorSum C (fun j => Mat.bit A i j && Mat.bit B k j) = false) :
    Mat.mul (Mat.blockDiagonal A l) (Mat.transpose (Mat.blockDiagonal B l)) = Mat.zeros (l * R) (l * K) := by
  have hlA : Mat.HasShape (Mat.blockDiagonal A l) (l * R) (l * C) := Mat.shape_blockDiagonal hA hR l
  have hlB : Mat.HasShape (Mat.blockDiagonal B l) (l * K) (l * C) := Mat.shape_blockDiagonal hB hK l
  have hlC : 0 < l * C := Nat.mul_pos hl hC
  have hT := Mat.shape_transpose hlB (Nat.mul_pos hl hK)
  have hprod := Mat.shape_mul (Mat.blockDiagonal A l) (Mat.transpose (Mat.blockDiagonal B l))
  rw [hlA.nrows, hT.ncols hlC] at hprod
  refine Mat.ext_bit hprod (Mat.shape_zeros _ _) fun r k hr hk => ?_
  rw [Mat.bit_mul hlA hT hlC hr hk, Mat.bit_zeros, xorSum_mul, ← xorSum_false l]
  refine xorSum_congr fun b hb => ?_
  have hterm : ∀ j, j < C → (Mat.bit (Mat.blockDiagonal A l) r (b * C + j) &&
      Mat.bit (Mat.transpose (Mat.blockDiagonal B l)) (b * C + j) k) =
      ((decide (b = r / R) && decide (b = k / K)) && (Mat.bit A (r % R) j && Mat.bit B (k % K) j)) := by
    intro j hj
    have hcol : b * C + j < Mat.ncols (Mat.blockDiagonal B l) := by
      have : (b + 1) * C ≤ l * C := Nat.mul_le_mul_right C hb
      rw [Nat.succ_mul] at this
      rw [hlB.ncols (Nat.mul_pos hl hK)]
      omega
    rw [Mat.bit_transpose _ hcol, Mat.bit_blockDiagonal_block hA hr hj, Mat.bit_blockDiagonal_block hB hk hj]
    ac_rfl
  rw [xorSum_congr hterm, xorSum_and_left, horth _ (Nat.mod_lt r hR) _ (Nat.mod_lt k hK), Bool.and_false]

/-- Settles O34: the matrices replicated along the diagonals have orthogonal rows, because the codes' have. -/
theorem blockCodesAreOrthogonal : Obligations.BlockCodesAreOrthogonal := fun fam _ hl =>
  Mat.mul_blockDiagonal_transpose_eq_zeros (shape_generatorMatrix fam) (shape_parityMatrix fam)
    (by cases fam <;> decide) (by cases fam <;> decide) (by decide) hl (generator_parity_orthogonal fam)

end Sys2Proof.Machine

/-! ## Decoding of noisy codewords (O46, O47)

What a correction flips depends on the syndromes of the block only, and those of a codeword are 0. So correcting a
codeword with an error added is the codeword plus the corrected error, and it remains to correct the error patterns
within the radius to 0: flips of at most one (Hamming) or two (BCH) coordinates of the zero vector. -/

namespace Sys2Proof.Machine

/-! ### Errors -/

theorem Vec.xor_xor_cancel {u w : Vec} (hl : u.length = w.length) : Vec.xor w (Vec.xor u w) = u := by
  refine Vec.ext_bit (by simp [hl]) fun j _ => ?_
  rw [Vec.bit_xor _ _ (by simp [hl]), Vec.bit_xor _ _ hl, Bool.xor_left_comm, Bool.xor_self, Bool.xor_false]

theorem Vec.xor_zero (w : Vec) : Vec.xor w (Vec.zero w.length) = w := by
  refine Vec.ext_bit (by simp) fun j _ => ?_
  rw [Vec.bit_xor _ _ (by simp), Vec.bit_zero, Bool.xor_false]

/-- A flip in the second summand is a flip of the sum. -/
theorem Vec.flip_xor {u w : Vec} (hl : u.length = w.length) (p : Nat) :
    Vec.flip (Vec.xor u w) p = Vec.xor u (Vec.flip w p) := by
  refine Vec.ext_bit (by simp [hl]) fun j _ => ?_
  rw [Vec.bit_flip, Vec.bit_xor _ _ hl, Vec.bit_xor _ _ (by simpa using hl), Vec.bit_flip, Vec.length_xor, hl,
    Nat.min_self]
  split_ifs <;> simp

theorem Vec.foldl_flip_xor {u w : Vec} (hl : u.length = w.length) (ps : List Nat) :
    ps.foldl Vec.flip (Vec.xor u w) = Vec.xor u (ps.foldl Vec.flip w) := by
  induction ps generalizing w with
  | nil => rfl
  | cons p ps ih => rw [List.foldl_cons, Vec.flip_xor hl, ih (by simpa using hl), List.foldl_cons]

theorem Vec.foldl_flip_cons (b : Bool) (v : Vec) (ps : List Nat) :
    (ps.map (· + 1)).foldl Vec.flip (b :: v) = b :: ps.foldl Vec.flip v := by
  induction ps generalizing v with
  | nil => rfl
  | cons p ps ih => exact ih (Vec.flip v p)

/-- A vector is the zero vector with as many coordinates flipped as it has ones, in ascending order. -/
theorem Vec.exists_flips (v : Vec) : ∃ ps : List Nat, ps.length = Vec.weight v ∧ ps.Pairwise (· < ·) ∧
    (∀ p ∈ ps, p < v.length) ∧ ps.foldl Vec.flip (Vec.zero v.length) = v := by
  induction v with
  | nil => exact ⟨[], rfl, .nil, by simp, rfl⟩
  | cons b v ih =>
    obtain ⟨ps, hlen, hasc, hlt, hfold⟩ := ih
    have hshift : (ps.map (· + 1)).Pairwise (· < ·) := by
      simpa [List.pairwise_map] using hasc
    cases b with
    | false =>
      refine ⟨ps.map (· + 1), ?_, hshift, by simpa using hlt, ?_⟩
      · simpa [Vec.weight] using hlen
      · exact (Vec.foldl_flip_cons false _ ps).trans (congrArg (List.cons false) hfold)
    | true =>
      refine ⟨0 :: ps.map (· + 1), ?_, ?_, by simpa using hlt, ?_⟩
      · simpa [Vec.weight] using hlen
      · simpa using hshift
      · exact (Vec.foldl_flip_cons true _ ps).trans (congrArg (List.cons true) hfold)

/-! ### Codewords -/

/-- What holds of the zero vector and of every row of B, and of a sum when it holds of the summands, holds of every
product of a vector with B, which is a sum of rows. -/
theorem Vec.mulMat_induction {B : Mat} {R C : Nat} (hB : Mat.HasShape B R C) (hR : 0 < R) {P : Vec → Prop}
    (hzero : P (Vec.zero C)) (hrow : ∀ i, i < R → P (Mat.row B i))
    (hxor : ∀ u w : Vec, u.length = C → w.length = C → P u → P w → P (Vec.xor u w))
    {m : Vec} (hm : m.length = R) : P (Vec.mulMat m B) := by
  have partialSum : ∀ n, n ≤ R → ∃ u : Vec, u.length = C ∧ P u ∧
      ∀ c, Vec.bit u c = xorSum n (fun j => Vec.bit m j && Mat.bit B j c) := by
    intro n
    induction n with
    | zero => exact fun _ => ⟨Vec.zero C, by simp, hzero, fun c => Vec.bit_zero C c⟩
    | succ n ih =>
      intro hn
      obtain ⟨u, hlen, hu, hbit⟩ := ih (by omega)
      have hlenRow : (Mat.row B n).length = C := hB.length_row hn
      cases hb : Vec.bit m n with
      | false => exact ⟨u, hlen, hu, fun c => by rw [xorSum_succ, ← hbit, hb]; simp⟩
      | true =>
        refine ⟨Vec.xor u (Mat.row B n), by simp [hlen, hlenRow], hxor _ _ hlen hlenRow hu (hrow n hn), fun c => ?_⟩
        rw [Vec.bit_xor _ _ (hlen.trans hlenRow.symm), xorSum_succ, ← hbit, hb, Bool.true_and]
        rfl
  obtain ⟨u, hlen, hu, hbit⟩ := partialSum R le_rfl
  have hu_eq : u = Vec.mulMat m B := by
    refine Vec.ext_bit (by rw [hlen, Vec.length_mulMat, hB.ncols hR]) fun c hc => ?_
    rw [hbit, Vec.bit_mulMat m B (hm.trans hB.nrows.symm) (by rwa [hB.ncols hR, ← hlen]), hm]
  exact hu_eq ▸ hu

/-! ### The Hamming correction of a vector orthogonal to H with an error added -/

theorem Vec.dot_xor_left {u w r : Vec} (hu : u.length = r.length) (hw : w.length = r.length) :
    Vec.dot (Vec.xor u w) r = Bool.xor (Vec.dot u r) (Vec.dot w r) := by
  rw [Vec.dot_eq_xorSum _ _ (by simp [hu, hw]), Vec.dot_eq_xorSum _ _ hu, Vec.dot_eq_xorSum _ _ hw,
    Vec.length_xor, hu, hw, Nat.min_self, ← xorSum_xor]
  refine xorSum_congr fun j _ => ?_
  rw [Vec.bit_xor _ _ (hu.trans hw.symm), Bool.and_xor_distrib_right]

/-- The flip that corrects a block depends on its syndrome only, which a vector orthogonal to H does not change. -/
theorem hammingCorrect_xor {H : Mat} {R n : Nat} (hH : Mat.HasShape H R n) {w e : Vec} (hw : w.length = n)
    (he : e.length = n) (hzero : ∀ row ∈ H, Vec.dot w row = false) :
    hammingCorrect H (Vec.xor w e) = Vec.xor w (hammingCorrect H e) := by
  have hsyn : (H.map fun row => Vec.dot (Vec.xor w e) row) = H.map fun row => Vec.dot e row :=
    List.map_congr_left fun row hrow => by
      rw [Vec.dot_xor_left (hw.trans (hH.2 row hrow).symm) (he.trans (hH.2 row hrow).symm), hzero row hrow,
        Bool.false_xor]
  simp only [hammingCorrect, hsyn]
  split
  · rfl
  · split
    · exact Vec.flip_xor (hw.trans he.symm) _
    · rfl

/-! ### The BCH correction of a vector with zero syndromes with an error added -/

theorem gfSum_succ (n : Nat) (f : Nat → Gf) : gfSum (n + 1) f = gfSum n f ^^^ f n := by
  simp [gfSum, List.range_succ]

/-- Sums over GF(2^4) add. -/
theorem gfSum_xor (n : Nat) (f g : Nat → Gf) : gfSum n (fun j => f j ^^^ g j) = gfSum n f ^^^ gfSum n g := by
  induction n with
  | zero => exact (BitVec.xor_self).symm
  | succ n ih =>
    simp only [gfSum_succ, ih]
    ac_rfl

/-- A fold that adds up two functions over the places where p holds gives their two sums. -/
theorem foldl_pair_eq_gfSum (n : Nat) (p : Nat → Bool) (f g : Nat → Gf) :
    (List.range n).foldl (fun s i => if p i then (s.1 ^^^ f i, s.2 ^^^ g i) else s) (0, 0) =
      (gfSum n fun i => if p i then f i else 0, gfSum n fun i => if p i then g i else 0) := by
  induction n with
  | zero => rfl
  | succ n ih =>
    rw [List.range_succ, List.foldl_append, ih, gfSum_succ, gfSum_succ]
    cases h : p n <;> simp [h]

/-- One syndrome of a block: the sum of the values of the coordinates that are 1 (45_decoder.md R221). -/
def syndromeSum (value : Nat → Gf) (r : Vec) : Gf := gfSum 15 fun i => if Vec.bit r i then value i else 0

theorem bchSyn_eq (r : Vec) : bchSyn r =
    (syndromeSum (fun i => expOf ((14 - i) % 15)) r, syndromeSum (fun i => expOf (3 * (14 - i) % 15)) r) :=
  foldl_pair_eq_gfSum 15 (Vec.bit r) _ _

theorem syndromeSum_xor (value : Nat → Gf) {u w : Vec} (hl : u.length = w.length) :
    syndromeSum value (Vec.xor u w) = syndromeSum value u ^^^ syndromeSum value w := by
  rw [syndromeSum, syndromeSum, syndromeSum, ← gfSum_xor]
  congr 1
  funext i
  rw [Vec.bit_xor u w hl]
  cases Vec.bit u i <;> cases Vec.bit w i <;> simp

/-- The syndromes of a sum are the sums of the syndromes. -/
theorem bchSyn_xor {u w : Vec} (hl : u.length = w.length) :
    bchSyn (Vec.xor u w) = ((bchSyn u).1 ^^^ (bchSyn w).1, (bchSyn u).2 ^^^ (bchSyn w).2) := by
  simp only [bchSyn_eq, syndromeSum_xor _ hl]

/-- The flips that correct a block depend on its syndromes only, which a vector with zero syndromes does not change. -/
theorem bchCorrect_xor {w e : Vec} (hl : w.length = e.length) (hzero : bchSyn w = (0, 0)) :
    bchCorrect (Vec.xor w e) = Vec.xor w (bchCorrect e) := by
  have hsyn : bchSyn (Vec.xor w e) = bchSyn e := by simp [bchSyn_xor hl, hzero]
  simp only [bchCorrect, hsyn]
  split_ifs
  · rfl
  · exact Vec.flip_xor hl _
  · exact Vec.foldl_flip_xor hl _

/-! ### Codewords have zero syndromes -/

theorem dot_hammingCodeword {m : Vec} (hm : m.length = 11) :
    ∀ row ∈ parHamming, Vec.dot (Vec.mulMat m genHamming) row = false := by
  refine Vec.mulMat_induction (P := fun w => ∀ row ∈ parHamming, Vec.dot w row = false) shape_genHamming (by decide)
    (by decide) (by decide) (fun u w hu hw hPu hPw row hrow => ?_) hm
  have hlen : row.length = 15 := shape_parHamming.2 row hrow
  rw [Vec.dot_xor_left (hu.trans hlen.symm) (hw.trans hlen.symm), hPu row hrow, hPw row hrow, Bool.xor_false]

theorem bchSyn_codeword {m : Vec} (hm : m.length = 7) : bchSyn (Vec.mulMat m genBch) = (0, 0) := by
  refine Vec.mulMat_induction (P := fun w => bchSyn w = (0, 0)) shape_genBch (by decide) (by decide) (by decide)
    (fun u w hu hw hPu hPw => ?_) hm
  rw [bchSyn_xor (hu.trans hw.symm), hPu, hPw]
  rfl

/-! ### The error patterns within the correction radius -/

theorem hammingCorrect_single : ∀ p, p < 15 →
    hammingCorrect parHamming (Vec.flip (Vec.zero 15) p) = Vec.zero 15 := by decide

theorem bchCorrect_single : ∀ p, p < 15 → bchCorrect (Vec.flip (Vec.zero 15) p) = Vec.zero 15 := by decide

theorem bchCorrect_double : ∀ q, q < 15 → ∀ p, p < q →
    bchCorrect (Vec.flip (Vec.flip (Vec.zero 15) p) q) = Vec.zero 15 := by decide

theorem hammingCorrect_error {e : Vec} (hlen : e.length = 15) (hw : Vec.weight e ≤ 1) :
    hammingCorrect parHamming e = Vec.zero 15 := by
  obtain ⟨ps, hps, -, hlt, hfold⟩ := Vec.exists_flips e
  rw [← hfold, hlen]
  rw [hlen] at hlt
  rw [← hps] at hw
  match ps with
  | [] => decide
  | [p] => exact hammingCorrect_single p (hlt p (by simp))
  | _ :: _ :: _ => simp at hw

theorem bchCorrect_error {e : Vec} (hlen : e.length = 15) (hw : Vec.weight e ≤ 2) : bchCorrect e = Vec.zero 15 := by
  obtain ⟨ps, hps, hasc, hlt, hfold⟩ := Vec.exists_flips e
  rw [← hfold, hlen]
  rw [hlen] at hlt
  rw [← hps] at hw
  match ps with
  | [] => decide
  | [p] => exact bchCorrect_single p (hlt p (by simp))
  | [p, q] => exact bchCorrect_double q (hlt q (by simp)) p (by simpa using hasc)
  | _ :: _ :: _ :: _ => simp at hw

/-! ### A noisy codeword is corrected to the codeword: the block is the codeword with the error added -/

theorem hammingCorrect_noisy {r m : Vec} (hr : r.length = 15) (hm : m.length = 11)
    (hd : Vec.distance r (Vec.mulMat m genHamming) ≤ 1) :
    hammingCorrect parHamming r = Vec.mulMat m genHamming := by
  have hw : (Vec.mulMat m genHamming).length = 15 := Vec.length_mulMat m genHamming
  have he : (Vec.xor r (Vec.mulMat m genHamming)).length = 15 := by simp [hr, hw]
  rw [← Vec.xor_xor_cancel (hr.trans hw.symm), hammingCorrect_xor shape_parHamming hw he (dot_hammingCodeword hm),
    hammingCorrect_error he hd, ← hw, Vec.xor_zero]

theorem bchCorrect_noisy {r m : Vec} (hr : r.length = 15) (hm : m.length = 7)
    (hd : Vec.distance r (Vec.mulMat m genBch) ≤ 2) : bchCorrect r = Vec.mulMat m genBch := by
  have hw : (Vec.mulMat m genBch).length = 15 := Vec.length_mulMat m genBch
  have he : (Vec.xor r (Vec.mulMat m genBch)).length = 15 := by simp [hr, hw]
  rw [← Vec.xor_xor_cancel (hr.trans hw.symm), bchCorrect_xor (hw.trans he.symm) (bchSyn_codeword hm),
    bchCorrect_error he hd, ← hw, Vec.xor_zero]

/-! ### Block by block -/

theorem Vec.length_block {n b : Nat} {v : Vec} (h : b < v.length / n) : (Vec.block n b v).length = n := by
  have hend : n * (b + 1) ≤ v.length := (Nat.mul_le_mul_left n h).trans (Nat.mul_div_le v.length n)
  rw [Nat.mul_succ] at hend
  rw [Vec.block, List.length_take, List.length_drop]
  omega

/-- A block-by-block map of v gives c when it takes every block of v to the same block of c. -/
theorem Vec.flatMap_blocks_eq {n count : Nat} {v c : Vec} {f : Vec → Vec} (hc : c.length = count * n)
    (hf : ∀ b, b < count → f (Vec.block n b v) = Vec.block n b c) : (Vec.blocks n count v).flatMap f = c := by
  have hmap : (Vec.blocks n count v).map f = Vec.blocks n count c := by
    refine List.ext_getElem (by simp [Vec.length_blocks]) fun b hb _ => ?_
    rw [List.getElem_map, Vec.getElem_blocks, Vec.getElem_blocks]
    exact hf b (by simpa [Vec.length_blocks] using hb)
  rw [List.flatMap_def, hmap, Vec.flatten_blocks hc]

/-- A correction of single blocks that undoes up to t errors turns a vector of noisy codewords into the codewords. -/
theorem Vec.flatMap_blocks_of_noisy {correct : Vec → Vec} {G : Mat} {k t : Nat}
    (hcorrect : ∀ {r m : Vec}, r.length = 15 → m.length = k → Vec.distance r (Vec.mulMat m G) ≤ t →
      correct r = Vec.mulMat m G) {v c : Vec} (hmod : v.length % 15 = 0) (hlen : c.length = v.length)
    (hnoisy : ∀ blk, blk < c.length / 15 → ∃ m : Vec, m.length = k ∧ Vec.block 15 blk c = Vec.mulMat m G ∧
      Vec.distance (Vec.block 15 blk v) (Vec.block 15 blk c) ≤ t) :
    (Vec.blocks 15 (v.length / 15) v).flatMap correct = c := by
  refine Vec.flatMap_blocks_eq (by omega) fun blk hblk => ?_
  obtain ⟨m, hm, hcode, hd⟩ := hnoisy blk (hlen ▸ hblk)
  rw [hcode] at hd ⊢
  exact hcorrect (Vec.length_block hblk) hm hd

/-! ### The commands and the statements (45_decoder.md R224, R225) -/

theorem exec_dham (d a b : Reg) (s : State) :
    exec (.dham d a b) s =
      if (s.getV a).length = 0 then .next (s.takeFault .shape)
      else if Mat.nrows (s.getM b) = 0 then .next (s.takeFault .shape)
      else if (s.getV a).length % Mat.ncols (s.getM b) = 0 then
        .next (s.setV d ((Vec.blocks (Mat.ncols (s.getM b)) ((s.getV a).length / Mat.ncols (s.getM b))
          (s.getV a)).flatMap (hammingCorrect (s.getM b)))).finish
      else .next (s.takeFault .shape) := by
  simp only [exec, execDham, vecOperand_bind, matOperand_bind, require_bind, complete_ite, complete_ok, complete_error]

theorem exec_dbch (d a : Reg) (s : State) :
    exec (.dbch d a) s =
      if (s.getV a).length = 0 then .next (s.takeFault .shape)
      else if (s.getV a).length % 15 = 0 then
        .next (s.setV d ((Vec.blocks 15 ((s.getV a).length / 15) (s.getV a)).flatMap bchCorrect)).finish
      else .next (s.takeFault .shape) := by
  simp only [exec, execDbch, vecOperand_bind, require_bind, complete_ite, complete_ok, complete_error]

/-- Settles O46: `hammingCorrect` undoes an error of weight at most 1 in a block, and DHAM goes block by block. -/
theorem dhamCorrectsOneErrorPerBlock : Obligations.DhamCorrectsOneErrorPerBlock := by
  intro d a b s c hH h0 hmod hlen hnoisy
  have hrows : Mat.nrows parHamming ≠ 0 := by decide
  have hcols : Mat.ncols parHamming = 15 := by decide
  rw [exec_dham, if_neg h0, hH, if_neg hrows, hcols, if_pos hmod,
    Vec.flatMap_blocks_of_noisy hammingCorrect_noisy hmod hlen hnoisy]

/-- Settles O47: `bchCorrect` undoes an error of weight at most 2 in a block, and DBCH goes block by block. -/
theorem dbchCorrectsTwoErrorsPerBlock : Obligations.DbchCorrectsTwoErrorsPerBlock := by
  intro d a s c h0 hmod hlen hnoisy
  rw [exec_dbch, if_neg h0, if_pos hmod, Vec.flatMap_blocks_of_noisy bchCorrect_noisy hmod hlen hnoisy]

end Sys2Proof.Machine

/-! # The proofs of the family 43_keygen

## The random source (O35) -/

namespace Sys2Proof.Machine

/-- In a word that a left shift leaves as it is, every bit is 0 or a copy of a lower bit. -/
theorem eq_zero_of_xor_shiftLeft {w k : Nat} (hk : 0 < k) {a : BitVec w} (h : a ^^^ (a <<< k) = 0#w) : a = 0#w := by
  have hshift : a = a <<< k := BitVec.xor_eq_zero_iff.mp h
  have hbit : ∀ i, a.getLsbD i = false := by
    intro i
    induction i using Nat.strongRecOn with
    | ind i ih =>
      rw [hshift, BitVec.getLsbD_shiftLeft]
      rcases Nat.lt_or_ge i k with hi | hi
      · simp [hi]
      · simp [ih (i - k) (by omega)]
  exact BitVec.eq_of_getLsbD_eq fun i _ => by rw [hbit i, BitVec.getLsbD_zero]

/-- A right shift is a division by 2^k, which makes a nonzero word smaller. -/
theorem eq_zero_of_xor_ushiftRight {w k : Nat} (hk : 0 < k) {a : BitVec w} (h : a ^^^ (a >>> k) = 0#w) : a = 0#w := by
  have hshift : a.toNat = a.toNat / 2 ^ k := by
    rw [← Nat.shiftRight_eq_div_pow, ← BitVec.toNat_ushiftRight, ← BitVec.xor_eq_zero_iff.mp h]
  refine BitVec.eq_of_toNat_eq ?_
  rcases Nat.eq_zero_or_pos a.toNat with h0 | hpos
  · simpa using h0
  · exact absurd hshift (Nat.div_lt_self hpos (Nat.one_lt_two_pow hk.ne')).ne'

theorem xorshift32_zero : xorshift32 0 = 0 := by decide

/-- Each of the three shifts of the step loses nothing (43_keygen.md R182). -/
theorem eq_zero_of_xorshift32 {g : Word} (h : xorshift32 g = 0) : g = 0 :=
  eq_zero_of_xor_shiftLeft (k := 13) (by decide)
    (eq_zero_of_xor_ushiftRight (k := 17) (by decide) (eq_zero_of_xor_shiftLeft (k := 5) (by decide) h))

/-- Settles O35: a draw is one step and a remainder, and no part of a step maps a nonzero word to 0. -/
theorem randomSource : Obligations.RandomSource := by
  refine ⟨by decide, fun R g hR => ⟨Nat.mod_lt _ hR, rfl⟩, fun R => ?_, fun _ => eq_zero_of_xorshift32⟩
  rw [draw, xorshift32_zero]
  exact congrArg (·, 0) (Nat.zero_mod R)

end Sys2Proof.Machine

/-! ## KINV (O36, O37) -/

namespace Sys2Proof.Machine

/-- The first attempt succeeds, so KINV writes the first candidate (43_keygen.md R184, R185). -/
theorem exec_kinv {n : Nat} (h1 : 1 ≤ n) (h2 : n ≤ 256) (d : Reg) (s : State) :
    exec (.kinv d n) s =
      .next ((s.setM d (kinvCandidate n s.kgRounds.toNat s.rng).1).setRng
        (kinvCandidate n s.kgRounds.toNat s.rng).2).finish := by
  rw [exec, execKinv, if_pos ⟨h1, h2⟩, show Config.kgMaxAttempts = 255 + 1 from rfl, kinvAttempts_succ h1]
  rfl

theorem exec_kinv_shape {n : Nat} (h : n = 0 ∨ 256 < n) (d : Reg) (s : State) :
    exec (.kinv d n) s = .next (s.takeFault .shape) := by
  rw [exec, execKinv, if_neg (by simp only [Config.dmax]; omega), complete_error]

theorem kinvCandidate_no_rounds (n : Nat) (g : Word) : (kinvCandidate n 0 g).1 = Mat.identity n := by
  simp [kinvCandidate, kinvRounds]

/-- Settles O36: the candidate KINV writes is a product of row operations. -/
theorem kinvNeverFaults : Obligations.KinvNeverFaults := by
  refine fun d n s => ⟨rfl, fun h1 h2 => ?_, fun h => exec_kinv_shape h d s⟩
  obtain ⟨hshape, hinv, hrng⟩ := kinvCandidate_spec h1 s.kgRounds.toNat s.rng
  refine ⟨_, ?_, hshape, hinv, fun h0 => ?_⟩
  · rw [exec_kinv h1 h2, hrng]
    rcases Nat.eq_or_lt_of_le h1 with rfl | (h : 2 ≤ n)
    · rfl
    · rw [if_pos h, if_neg (by omega)]
  · rw [h0]
    exact kinvCandidate_no_rounds n s.rng

/-- KINV's rounds as a fold; the rounds after the first draw from the source two steps on (43_keygen.md R184). -/
theorem kinvRounds_eq_foldl (n k : Nat) (T : Mat) (g : Word) :
    (kinvRounds n k T g).1 =
      (List.range k).foldl (fun T k => Mat.addRow T (kinvRows n k g).1 (kinvRows n k g).2) T := by
  induction k generalizing T g with
  | zero => rfl
  | succ k ih =>
    rw [List.range_succ_eq_map, List.foldl_cons, List.foldl_map]
    exact ih (kinvRound n T g).1 (kinvRound n T g).2

/-- Settles O37: for two rows or more the candidate KINV writes is the matrix after the rounds. -/
theorem kinvAddsDrawnRows : Obligations.KinvAddsDrawnRows := by
  intro d n s t h2 h256 ht
  cases (exec_kinv (by omega) h256 d s).symm.trans ht
  rw [State.finish_getM, State.setRng_getM, State.getM_setM_self, kinvCandidate, if_pos h2, kinvRounds_eq_foldl]

end Sys2Proof.Machine

/-! ## KPERM (O38) -/

namespace Sys2Proof.Machine

theorem exec_kperm (d : Reg) (n : Nat) (s : State) :
    exec (.kperm d n) s =
      if 1 ≤ n ∧ n ≤ Config.dmax then
        .next ((s.setM d (permutationMatrix (kpermShuffle n s.rng).1)).setRng (kpermShuffle n s.rng).2).finish
      else .next (s.takeFault .shape) := by
  simp only [exec, execKperm, sizeImm_bind, complete_ite, complete_ok, complete_error]

/-- The shuffle from index i down as a fold: step k swaps entry i - k with the entry drawn then (43_keygen.md R187). -/
theorem fisherYates_eq_foldl (i : Nat) (p : List Nat) (g : Word) :
    (fisherYates i p g).1 =
      (List.range i).foldl (fun p k => swapEntries p (i - k) ((rngAfter (k + 1) g).toNat % (i + 1 - k))) p := by
  induction i generalizing p g with
  | zero => rfl
  | succ i ih =>
    rw [List.range_succ_eq_map, List.foldl_cons, List.foldl_map]
    simp only [Nat.succ_eq_add_one, Nat.add_sub_add_right]
    exact ih (swapEntries p (i + 1) (draw (i + 2) g).1) (xorshift32 g)

theorem kpermShuffle_eq_foldl {n : Nat} (hn : 1 ≤ n) (g : Word) :
    (kpermShuffle n g).1 =
      (List.range (n - 1)).foldl
        (fun p k => swapEntries p (n - 1 - k) ((rngAfter (k + 1) g).toNat % (n - k))) (List.range n) := by
  rw [kpermShuffle, fisherYates_eq_foldl, Nat.sub_add_cancel hn]

theorem bit_permutationMatrix {p : List Nat} {r c : Nat} (hr : r < p.length) (hc : c < p.length) :
    Mat.bit (permutationMatrix p) r c = decide (p.getD r 0 = c) := by
  have hrow : Mat.row (permutationMatrix p) r = Vec.unit p.length (p.getD r 0) := by
    simp [Mat.row, permutationMatrix, hr]
  rw [Mat.bit, hrow, Vec.bit_unit]
  simp [hc, eq_comm]

/-- Entry (r, k) of A·Bᵀ is the sum of the products of row r of A and row k of B. -/
theorem Mat.bit_mul_transpose {A B : Mat} {R K C : Nat} (hA : Mat.HasShape A R C) (hB : Mat.HasShape B K C)
    (hC : 0 < C) {r k : Nat} (hr : r < R) (hk : k < K) :
    Mat.bit (Mat.mul A (Mat.transpose B)) r k = xorSum C (fun j => Mat.bit A r j && Mat.bit B k j) := by
  have hK : 0 < K := Nat.zero_lt_of_lt hk
  rw [Mat.bit_mul hA (Mat.shape_transpose hB hK) hC hr hk]
  exact xorSum_congr fun j hj => by rw [Mat.bit_transpose _ (by rwa [hB.ncols hK])]

/-- Rows r and k of a permutation matrix have their 1 in one column only when r = k (43_keygen.md R188). -/
theorem permutationMatrix_mul_transpose {p : List Nat} {n : Nat} (hp : p.Perm (List.range n)) (hn : 0 < n) :
    Mat.mul (permutationMatrix p) (Mat.transpose (permutationMatrix p)) = Mat.identity n := by
  obtain rfl : p.length = n := by simpa using hp.length_eq
  have hT := shape_permutationMatrix p
  have hprod := Mat.shape_mul (permutationMatrix p) (Mat.transpose (permutationMatrix p))
  rw [hT.nrows, (Mat.shape_transpose hT hn).ncols hn] at hprod
  refine Mat.ext_bit hprod (Mat.shape_identity _) fun r k hr hk => ?_
  have hlt : p.getD r 0 < p.length := by
    rw [List.getD_eq_getElem _ _ hr]
    exact List.mem_range.mp (hp.mem_iff.mp (List.getElem_mem hr))
  have hinj : p.getD r 0 = p.getD k 0 ↔ r = k := by
    rw [List.getD_eq_getElem _ _ hr, List.getD_eq_getElem _ _ hk]
    exact (hp.nodup_iff.mpr List.nodup_range).getElem_inj_iff
  have hterm : ∀ j, j < p.length → (Mat.bit (permutationMatrix p) r j && Mat.bit (permutationMatrix p) k j) =
      (decide (j = p.getD r 0) && decide (r = k)) := by
    intro j hj
    rw [bit_permutationMatrix hr hj, bit_permutationMatrix hk hj, ← Bool.decide_and, ← Bool.decide_and,
      decide_eq_decide, ← hinj]
    exact ⟨fun ⟨hrj, hkj⟩ => ⟨hrj.symm, hrj.trans hkj.symm⟩,
      fun ⟨hjr, hrk⟩ => ⟨hjr.symm, hrk.symm.trans hjr.symm⟩⟩
  rw [Mat.bit_mul_transpose hT hT hn hr hk, Mat.bit_identity hr hk, xorSum_congr hterm, xorSum_single _ _ _ hlt]

/-- Settles O38: KPERM writes the matrix of the shuffled indices, which are a permutation of 0..n-1. -/
theorem kpermIsAPermutation : Obligations.KpermIsAPermutation := by
  refine fun d n s => ⟨rfl, fun h1 h2 => ?_, fun h => ?_⟩
  · obtain ⟨hperm, hrng⟩ := kpermShuffle_spec h1 s.rng
    have hlen : (kpermShuffle n s.rng).1.length = n := by simpa using hperm.length_eq
    rw [← kpermShuffle_eq_foldl h1]
    refine ⟨permutationMatrix (kpermShuffle n s.rng).1, ?_, ?_, hperm, fun r c hr hc => ?_,
      permutationMatrix_mul_transpose hperm h1⟩
    · rw [exec_kperm, if_pos ⟨h1, h2⟩, hrng]
    · simpa only [hlen] using shape_permutationMatrix (kpermShuffle n s.rng).1
    · exact bit_permutationMatrix (hlen.symm ▸ hr) (hlen.symm ▸ hc)
  · rw [exec_kperm, if_neg (by simp only [Config.dmax]; omega)]

end Sys2Proof.Machine

/-! # The proofs of the family 44_encoder

## VMUL and VXOR (O39, O40) -/

namespace Sys2Proof.Machine

/-- An empty operand or a dimension mismatch (44_encoder.md R201). -/
theorem exec_vmul_shape {s : State} {d a b : Reg}
    (h : (s.getV a).length = 0 ∨ Mat.nrows (s.getM b) = 0 ∨ (s.getV a).length ≠ Mat.nrows (s.getM b)) :
    exec (.vmul d a b) s = .next (s.takeFault .shape) := by
  simp only [exec, execVmul, vecOperand_bind, matOperand_bind, require_bind]
  split_ifs with ha hb hab
  · rfl
  · rfl
  · exact absurd h (not_or_intro ha (not_or_intro hb (not_not_intro hab)))
  · rfl

/-- Settles O39: VMUL writes `Vec.mulMat` of its operands, whose bits are known. -/
theorem vmulIsProduct : Obligations.VmulIsProduct := fun _ a b s =>
  ⟨rfl, fun hv _ hvB => ⟨Vec.mulMat (s.getV a) (s.getM b), exec_vmul hv hvB, Vec.length_mulMat _ _,
    fun _ hc => Vec.bit_mulMat _ _ hvB hc⟩, exec_vmul_shape⟩

theorem exec_vxor (d a b : Reg) (s : State) :
    exec (.vxor d a b) s =
      if (s.getV a).length = 0 then .next (s.takeFault .shape)
      else if (s.getV b).length = 0 then .next (s.takeFault .shape)
      else if (s.getV a).length = (s.getV b).length then
        .next (s.setV d (Vec.xor (s.getV a) (s.getV b))).finish
      else .next (s.takeFault .shape) := by
  simp only [exec, execVxor, vecOperand_bind, require_bind, complete_ite, complete_ok, complete_error]

/-- The sum of two vectors of one length is zero exactly when they are equal (44_encoder.md R204). -/
theorem Vec.bit_xor_eq_false_iff {u w : Vec} (hl : u.length = w.length) :
    (∀ j, j < u.length → Vec.bit (Vec.xor u w) j = false) ↔ u = w := by
  simp only [Vec.bit_xor u w hl, bne_eq_false_iff_eq]
  exact ⟨Vec.ext_bit hl, fun h _ _ => h ▸ rfl⟩

/-- Settles O40: VXOR writes `Vec.xor` of its operands, whose bits are known. -/
theorem vxorIsTheSum : Obligations.VxorIsTheSum := by
  intro d a b s u w
  refine ⟨rfl, fun hu hw hl => ?_, fun h => ?_⟩
  · have hlen : (Vec.xor u w).length = u.length := by rw [Vec.length_xor, ← hl, Nat.min_self]
    refine ⟨Vec.xor u w, ?_, hlen, fun j _ => Vec.bit_xor u w hl j, ?_⟩
    · rw [exec_vxor, if_neg hu, if_neg hw, if_pos hl]
    · rw [hlen, Vec.bit_xor_eq_false_iff hl]
  · rw [exec_vxor]
    split_ifs with hu hw hl
    · rfl
    · rfl
    · exact absurd h (not_or_intro hu (not_or_intro hw (not_not_intro hl)))
    · rfl

end Sys2Proof.Machine

/-! ## VNOISE (O41)

The result is the concatenation of the noisy blocks, the random source before block b being `noiseRng` after b
blocks. -/

namespace Sys2Proof.Machine

/-! ### The random source along the blocks (44_encoder.md R206) -/

/-- Noise on a block advances the random source as the first block of `noiseRng` does. -/
theorem noiseBlock_rng (noiseP n : Nat) (block : Vec) (g : Word) :
    (noiseBlock noiseP n block g).2 = noiseRng noiseP 1 g :=
  apply_ite Prod.snd ..

/-- The last of b + 1 blocks draws as a first block would, from where the others left the random source. -/
theorem noiseRng_succ (noiseP b : Nat) (g : Word) :
    noiseRng noiseP (b + 1) g = noiseRng noiseP 1 (noiseRng noiseP b g) := rfl

/-- b blocks after a first one are b + 1 blocks. -/
theorem noiseRng_noiseRng_one (noiseP b : Nat) (g : Word) :
    noiseRng noiseP b (noiseRng noiseP 1 g) = noiseRng noiseP (b + 1) g := by
  induction b with
  | zero => rfl
  | succ b ih => rw [noiseRng_succ noiseP b, ih, ← noiseRng_succ]

theorem noiseBlocks_cons (noiseP n : Nat) (block : Vec) (rest : List Vec) (g : Word) :
    noiseBlocks noiseP n (block :: rest) g =
      ((noiseBlock noiseP n block g).1 ++ (noiseBlocks noiseP n rest (noiseRng noiseP 1 g)).1,
        (noiseBlocks noiseP n rest (noiseRng noiseP 1 g)).2) := by
  rw [← noiseBlock_rng noiseP n block]
  rfl

theorem noiseBlocks_rng (noiseP n : Nat) (blocks : List Vec) (g : Word) :
    (noiseBlocks noiseP n blocks g).2 = noiseRng noiseP blocks.length g := by
  induction blocks generalizing g with
  | nil => rfl
  | cons block rest ih => rw [noiseBlocks_cons, ih, noiseRng_noiseRng_one, List.length_cons]

/-! ### The blocks of the result -/

/-- The noisy block: the operand's block, flipped at a second draw when the first is below NOISE_P. -/
theorem noiseBlock_fst (noiseP n : Nat) (block : Vec) (g : Word) :
    (noiseBlock noiseP n block g).1 =
      if (xorshift32 g).toNat % 65536 < noiseP then Vec.flip block ((xorshift32 (xorshift32 g)).toNat % n)
      else block :=
  apply_ite Prod.fst ..

theorem noiseBlocks_fst (noiseP n : Nat) (blocks : List Vec) (g : Word) :
    (noiseBlocks noiseP n blocks g).1 =
      (blocks.mapIdx fun b block => (noiseBlock noiseP n block (noiseRng noiseP b g)).1).flatten := by
  induction blocks generalizing g with
  | nil => rfl
  | cons block rest ih =>
    rw [noiseBlocks_cons, ih, List.mapIdx_cons, List.flatten_cons]
    simp only [noiseRng_noiseRng_one]
    rfl

/-- Vectors of n coordinates put together and cut again are those vectors. -/
theorem Vec.blocks_flatten {n : Nat} {blocks : List Vec} (hn : ∀ block ∈ blocks, block.length = n) :
    Vec.blocks n blocks.length blocks.flatten = blocks := by
  induction blocks with
  | nil => rfl
  | cons block rest ih =>
    obtain ⟨hblock, hrest⟩ := List.forall_mem_cons.mp hn
    rw [List.length_cons, List.flatten_cons, Vec.blocks, List.take_left' hblock, List.drop_left' hblock, ih hrest]

theorem Vec.block_flatten {n b : Nat} {blocks : List Vec} (hn : ∀ block ∈ blocks, block.length = n)
    (hb : b < blocks.length) : Vec.block n b blocks.flatten = blocks[b] := by
  rw [← Vec.getElem_blocks n blocks.length _ b (by rwa [Vec.length_blocks])]
  simp only [Vec.blocks_flatten hn]

/-- Block b of the noisy vector is block b of the operand with noise on it. -/
theorem Vec.block_noiseBlocks {n b : Nat} {c : Vec} (hmod : c.length % n = 0) (hb : b < c.length / n)
    (noiseP : Nat) (g : Word) :
    Vec.block n b (noiseBlocks noiseP n (Vec.blocks n (c.length / n) c) g).1 =
      (noiseBlock noiseP n (Vec.block n b c) (noiseRng noiseP b g)).1 := by
  have hl : c.length = c.length / n * n := (Nat.div_mul_cancel (Nat.dvd_of_mod_eq_zero hmod)).symm
  have hlen : b < (Vec.blocks n (c.length / n) c).length := by rwa [Vec.length_blocks]
  rw [noiseBlocks_fst, Vec.block_flatten (b := b) ?_ (by rwa [List.length_mapIdx]), List.getElem_mapIdx,
    Vec.getElem_blocks]
  intro block hmem
  obtain ⟨k, hk, rfl⟩ := List.mem_mapIdx.mp hmem
  rw [length_noiseBlock]
  exact Vec.length_of_mem_blocks hl (List.getElem_mem hk)

/-! ### The command -/

theorem exec_vnoise (d a : Reg) (n : Nat) (s : State) :
    exec (.vnoise d a n) s =
      if (s.getV a).length = 0 then .next (s.takeFault .shape)
      else if n ≠ 0 ∧ (s.getV a).length % n = 0 then
        .next ((s.setV d
            (noiseBlocks s.noiseP.toNat n (Vec.blocks n ((s.getV a).length / n) (s.getV a)) s.rng).1).setRng
          (noiseRng s.noiseP.toNat ((s.getV a).length / n) s.rng)).finish
      else .next (s.takeFault .shape) := by
  simp only [exec, execVnoise, vecOperand_bind, require_bind, noiseBlocks_rng, Vec.length_blocks, complete_ite,
    complete_ok, complete_error]

/-- An illegal word in flight completes with ILLEGAL_CMD (60_exceptions.md R262). -/
theorem runCommand_illegal {s : State} (h : ∃ e, decode s.cmd = .error e) :
    runCommand s = .next (s.takeFault .illegalCmd) :=
  ((illegalWordsAreThoseOfR94 s.cmd).2 s h).1

/-- VNOISE's immediate is an N6: a word with IMM[11:6] nonzero is illegal (30_encoding.md R94(e)). -/
theorem decode_vnoise_isError {w : Word} (hopc : field w 7 0 = 0x43) (himm : field w 31 26 ≠ 0) :
    ∃ e, decode w = .error e := by
  have hkind : kindOf (field w 7 0) = some .n6 := by rw [hopc]; rfl
  exact (decode_isError_iff w).mpr (.inr (.inr (.inr ⟨.n6, hkind, Nat.not_lt.mpr ((le_imm_iff w).mpr himm)⟩)))

/-- Settles O41: VNOISE goes block by block, the random source passing from one block to the next. -/
theorem vnoiseFlipsAtMostOneBitPerBlock : Obligations.VnoiseFlipsAtMostOneBitPerBlock := by
  intro d a n s c p
  refine ⟨rfl, fun h0 hn hmod => ?_, fun h => ?_,
    fun hopc himm => runCommand_illegal (decode_vnoise_isError hopc himm)⟩
  · refine ⟨(noiseBlocks p n (Vec.blocks n (c.length / n) c) s.rng).1, ?_,
      Vec.length_noiseBlocks_blocks hmod p s.rng, fun b hb => ?_⟩
    · rw [exec_vnoise, if_neg h0, if_pos ⟨hn, hmod⟩]
    · exact (Vec.block_noiseBlocks hmod hb p s.rng).trans (noiseBlock_fst p n _ _)
  · rw [exec_vnoise]
    split_ifs with h0 hn
    · rfl
    · exact absurd h (not_or_intro h0 (not_or_intro hn.1 (not_not_intro hn.2)))
    · rfl

end Sys2Proof.Machine

/-! # The proofs of the family 45_decoder

## Blocks

A command that works block by block leaves in block b what it makes of block b of its operand. -/

namespace Sys2Proof.Machine

/-- Bit j of block b is bit n*b + j (44_encoder.md R205). -/
theorem Vec.bit_block {n j : Nat} (hj : j < n) (b : Nat) (v : Vec) :
    Vec.bit (Vec.block n b v) j = Vec.bit v (n * b + j) :=
  Vec.bit_take_drop v (n * b) hj

theorem Vec.bit_take {k i : Nat} (hi : i < k) (v : Vec) : Vec.bit (v.take k) i = Vec.bit v i := by
  simp [Vec.bit, hi]

/-- A block-by-block map that makes k coordinates of every block of n leaves f of block b in block b of the result. -/
theorem Vec.block_flatMap_blocks {n k b : Nat} {v : Vec} {f : Vec → Vec} (hmod : v.length % n = 0)
    (hb : b < v.length / n) (hf : ∀ block : Vec, block.length = n → (f block).length = k) :
    Vec.block k b ((Vec.blocks n (v.length / n) v).flatMap f) = f (Vec.block n b v) := by
  have hl : v.length = v.length / n * n := (Nat.div_mul_cancel (Nat.dvd_of_mod_eq_zero hmod)).symm
  have hlen : b < ((Vec.blocks n (v.length / n) v).map f).length := by rwa [List.length_map, Vec.length_blocks]
  rw [List.flatMap_def, Vec.block_flatten ?_ hlen, List.getElem_map, Vec.getElem_blocks]
  intro image hmem
  obtain ⟨block, hblock, rfl⟩ := List.mem_map.mp hmem
  exact hf block (Vec.length_of_mem_blocks hl hblock)

end Sys2Proof.Machine

/-! ## VMSG (O45) -/

namespace Sys2Proof.Machine

theorem exec_vmsg (d a : Reg) (n k : Nat) (s : State) :
    exec (.vmsg d a n k) s =
      if (s.getV a).length = 0 then .next (s.takeFault .shape)
      else if 1 ≤ k ∧ k ≤ n ∧ (s.getV a).length % n = 0 then
        .next (s.setV d ((Vec.blocks n ((s.getV a).length / n) (s.getV a)).flatMap (List.take k))).finish
      else .next (s.takeFault .shape) := by
  simp only [exec, execVmsg, vecOperand_bind, require_bind, complete_ite, complete_ok, complete_error]

/-- Settles O45: VMSG takes k coordinates of every block, so block b of k coordinates of the result is the first k
coordinates of block b of the operand. -/
theorem vmsgTakesTheMessageBits : Obligations.VmsgTakesTheMessageBits := by
  intro d a n k s c
  refine ⟨rfl, fun h0 hk hkn hmod => ?_, fun h => ?_⟩
  · have htake : ∀ block : Vec, block.length = n → (List.take k block).length = k := fun block hblock => by
      rw [List.length_take, hblock, Nat.min_eq_left hkn]
    have hl : c.length = c.length / n * n := (Nat.div_mul_cancel (Nat.dvd_of_mod_eq_zero hmod)).symm
    refine ⟨(Vec.blocks n (c.length / n) c).flatMap (List.take k), ?_, Vec.length_flatMap_blocks hl htake,
      fun b i hb hi => ?_⟩
    · rw [exec_vmsg, if_neg h0, if_pos ⟨hk, hkn, hmod⟩]
    · rw [← Vec.bit_block hi, Vec.block_flatMap_blocks hmod hb htake, Vec.bit_take hi,
        Vec.bit_block (hi.trans_le hkn)]
  · rw [exec_vmsg]
    split_ifs with h0 hsize
    · rfl
    · obtain ⟨hk, hkn, hmod⟩ := hsize
      rcases h with h | h | h | h
      · exact absurd h h0
      · omega
      · omega
      · exact absurd hmod h
    · rfl

end Sys2Proof.Machine

/-! ## BSYN (O42) -/

namespace Sys2Proof.Machine

theorem exec_bsyn (d a : Reg) (blk : Nat) (s : State) :
    exec (.bsyn d a blk) s =
      if (s.getV a).length = 0 then .next (s.takeFault .shape)
      else if 15 * (blk + 1) ≤ (s.getV a).length then
        .next (s.setX d (BitVec.ofNat 16 ((bchSyn (Vec.block 15 blk (s.getV a))).2.toNat * 16 +
          (bchSyn (Vec.block 15 blk (s.getV a))).1.toNat))).finish
      else .next (s.takeFault .shape) := by
  simp only [exec, execBsyn, vecOperand_bind, require_bind, complete_ite, complete_ok, complete_error]
  rfl

theorem gfSum_congr {n : Nat} {f g : Nat → Gf} (h : ∀ i, i < n → f i = g i) : gfSum n f = gfSum n g :=
  List.foldl_ext _ _ 0 fun sum i hi => congrArg (sum ^^^ ·) (h i (List.mem_range.mp hi))

/-- A syndrome of block b sums over the coordinates of the vector that stand in the block. -/
theorem syndromeSum_block (value : Nat → Gf) (b : Nat) (v : Vec) :
    syndromeSum value (Vec.block 15 b v) = gfSum 15 fun i => if Vec.bit v (15 * b + i) then value i else 0 :=
  gfSum_congr fun i hi => by rw [Vec.bit_block hi]

/-- Settles O42: BSYN packs `bchSyn` of the block, whose two components are the sums of R221. -/
theorem bsynPacksTheSyndromes : Obligations.BsynPacksTheSyndromes := by
  intro d a blk s v
  refine ⟨rfl, fun hfit => ?_, fun hshort => ?_⟩
  · have h0 : v.length ≠ 0 := by omega
    rw [exec_bsyn, if_neg h0, if_pos hfit, bchSyn_eq, syndromeSum_block, syndromeSum_block]
    exact ⟨_, _, rfl, rfl, rfl⟩
  · rw [exec_bsyn, if_neg (Nat.not_le.mpr hshort), ite_self]

end Sys2Proof.Machine

/-! ## DHAM (O43) -/

namespace Sys2Proof.Machine

theorem Vec.all_not_iff {v : Vec} {r : Nat} (hl : v.length = r) :
    v.all (fun b => !b) = true ↔ ∀ i, i < r → Vec.bit v i = false := by
  subst hl
  rw [List.all_eq_true, List.forall_mem_iff_getElem]
  exact forall₂_congr fun i hi => by rw [Vec.bit_of_lt v i hi, Bool.not_eq_true']

/-- The syndrome of a block: its dot product with every row of H (45_decoder.md R224). -/
def hammingSyndrome (H : Mat) (block : Vec) : Vec := H.map fun row => Vec.dot block row

theorem hammingCorrect_eq (H : Mat) (block : Vec) : hammingCorrect H block =
    if (hammingSyndrome H block).all (fun b => !b) then block
    else ((List.range (Mat.ncols H)).find? fun j => Mat.column H j = hammingSyndrome H block).elim block
      (Vec.flip block) := by
  unfold hammingCorrect hammingSyndrome
  dsimp only
  cases (List.range (Mat.ncols H)).find? fun j => Mat.column H j = H.map fun row => Vec.dot block row <;> rfl

section
variable {H : Mat} {r n : Nat} {block : Vec} (hH : Mat.HasShape H r n)
include hH

theorem length_hammingSyndrome : (hammingSyndrome H block).length = r := by
  rw [hammingSyndrome, List.length_map, hH.1]

theorem bit_hammingSyndrome (hblock : block.length = n) {i : Nat} (hi : i < r) :
    Vec.bit (hammingSyndrome H block) i = xorSum n fun j => Vec.bit block j && Mat.bit H i j := by
  have hrow : Vec.bit (hammingSyndrome H block) i = Vec.dot block (Mat.row H i) := by
    simp [Vec.bit, hammingSyndrome, Mat.row, hH.1.symm ▸ hi]
  rw [hrow, Vec.dot_eq_xorSum _ _ (hblock.trans (hH.length_row hi).symm), hblock]
  rfl

/-- Column j of H is the syndrome exactly when their bits agree. -/
theorem column_eq_hammingSyndrome_iff (j : Nat) : Mat.column H j = hammingSyndrome H block ↔
    ∀ i, i < r → Mat.bit H i j = Vec.bit (hammingSyndrome H block) i := by
  have hcol : (Mat.column H j).length = r := by rw [Mat.column, List.length_map, hH.1]
  simp only [← Mat.bit_column]
  exact ⟨fun h i _ => h ▸ rfl, fun h => Vec.ext_bit (hcol.trans (length_hammingSyndrome hH).symm) (hcol.symm ▸ h)⟩

/-- A block with a zero syndrome stays. -/
theorem hammingCorrect_of_zero (hzero : ∀ i, i < r → Vec.bit (hammingSyndrome H block) i = false) :
    hammingCorrect H block = block :=
  (hammingCorrect_eq H block).trans (if_pos ((Vec.all_not_iff (length_hammingSyndrome hH)).mpr hzero))

/-- A nonzero syndrome is looked up among the columns, and the block is flipped where it is found. -/
theorem hammingCorrect_of_nonzero (hne : ∃ i, i < r ∧ Vec.bit (hammingSyndrome H block) i = true) :
    hammingCorrect H block =
      ((List.range (Mat.ncols H)).find? fun j => Mat.column H j = hammingSyndrome H block).elim block
        (Vec.flip block) := by
  obtain ⟨i, hi, hbit⟩ := hne
  have hall : ¬ (hammingSyndrome H block).all (fun b => !b) = true := fun hall =>
    Bool.false_ne_true (((Vec.all_not_iff (length_hammingSyndrome hH)).mp hall i hi).symm.trans hbit)
  rw [hammingCorrect_eq, if_neg hall]
end

/-- Settles O43: DHAM is `hammingCorrect` on every block, and the search through the columns in ascending order finds
the smallest one that is the syndrome, or none. -/
theorem dhamLooksUpTheSyndrome : Obligations.DhamLooksUpTheSyndrome := by
  intro d a b s c H r n
  refine ⟨rfl, fun hs h0 hr hmod => ?_, fun h => ?_⟩
  · have hH : Mat.HasShape H r n := (hs.matrices b).hasShape
    refine ⟨(Vec.blocks n (c.length / n) c).flatMap (hammingCorrect H), ?_,
      Vec.length_flatMap_blocks_of_keeps hmod (length_hammingCorrect H), fun blk hblk => ?_⟩
    · rw [exec_dham, if_neg h0, if_neg hr, if_pos hmod]
    · intro block syn found
      have hblock : block.length = n := Vec.length_block hblk
      have hresult : Vec.block n blk ((Vec.blocks n (c.length / n) c).flatMap (hammingCorrect H)) =
          hammingCorrect H block :=
        Vec.block_flatMap_blocks hmod hblk fun block hlen => (length_hammingCorrect H block).trans hlen
      have hsyn : ∀ i, i < r → Vec.bit (hammingSyndrome H block) i = syn i := fun i hi =>
        bit_hammingSyndrome hH hblock hi
      have hfound : ∀ j, Mat.column H j = hammingSyndrome H block ↔ found j := fun j =>
        (column_eq_hammingSyndrome_iff hH j).trans (forall₂_congr fun i hi => by rw [hsyn i hi])
      rw [hresult]
      refine ⟨fun hzero => hammingCorrect_of_zero hH fun i hi => (hsyn i hi).trans (hzero i hi), fun hne => ?_⟩
      obtain ⟨i, hi, hbit⟩ := hne
      rw [hammingCorrect_of_nonzero hH ⟨i, hi, (hsyn i hi).trans hbit⟩]
      refine ⟨fun j hj hcol hmin => ?_, fun hnone => ?_⟩
      · rw [List.find?_range_eq_some.mpr ⟨by simpa [hfound] using hcol, List.mem_range.mpr hj, fun k hk => by
          simpa [hfound] using hmin k hk⟩]
        rfl
      · rw [List.find?_range_eq_none.mpr fun j hj => by simpa [hfound] using hnone j hj]
        rfl
  · rw [exec_dham]
    split_ifs with h0 hr hmod
    · rfl
    · rfl
    · exact absurd h (not_or_intro h0 (not_or_intro hr (not_not_intro hmod)))
    · rfl

end Sys2Proof.Machine

/-! ## DBCH (O44) -/

namespace Sys2Proof.Machine

/-! ### Flips of distinct coordinates -/

theorem Vec.bit_foldl_flip {ps : List Nat} (hps : ps.Nodup) {v : Vec} {j : Nat} (hj : j < v.length) :
    Vec.bit (ps.foldl Vec.flip v) j = Bool.xor (Vec.bit v j) (decide (j ∈ ps)) := by
  induction ps generalizing v with
  | nil => simp
  | cons p ps ih =>
    obtain ⟨hp, hps⟩ := List.nodup_cons.mp hps
    rw [List.foldl_cons, ih hps (by rwa [Vec.length_flip]), Vec.bit_flip]
    by_cases hpj : p = j
    · subst hpj
      simp [hp, hj]
    · simp [hpj, Ne.symm hpj]

/-! ### The roots of the locator (45_decoder.md R222) -/

/-- The root EXP[e] stands for coordinate e - 1 modulo 15, which is never outside the block. -/
theorem rootPosition_eq {e : Nat} (he : e < 15) : rootPosition e = ((e + 14) % 15 : Nat) := by
  rw [rootPosition, logOf_expOf _ (by omega)]
  omega

/-- A quadratic over the field has at most two roots. -/
theorem length_locatorRoots_le_two : ∀ sigma1 sigma2 : Gf, sigma2 ≠ 0 →
    ((List.range 15).filter (isLocatorRoot sigma1 sigma2)).length ≤ 2 := by decide

/-- No position is outside the block and no root is cut off. -/
theorem locatorPositions_eq {sigma1 sigma2 : Gf} (h : sigma2 ≠ 0) :
    locatorPositions sigma1 sigma2 =
      ((List.range 15).filter (isLocatorRoot sigma1 sigma2)).map fun e => (e + 14) % 15 := by
  have hmap : ((List.range 15).filter (isLocatorRoot sigma1 sigma2)).map rootPosition =
      ((List.range 15).filter (isLocatorRoot sigma1 sigma2)).map fun e => (((e + 14) % 15 : Nat) : Int) :=
    List.map_congr_left fun e he => rootPosition_eq (List.mem_range.mp (List.mem_filter.mp he).1)
  have hinside : ∀ p ∈ ((List.range 15).filter (isLocatorRoot sigma1 sigma2)).map
      (fun e => (((e + 14) % 15 : Nat) : Int)), decide (0 ≤ p ∧ p ≤ 14) = true := by
    intro p hp
    obtain ⟨e, -, rfl⟩ := List.mem_map.mp hp
    exact decide_eq_true (by omega)
  rw [locatorPositions, hmap, List.filter_eq_self.mpr hinside, List.map_map, List.take_of_length_le]
  · rfl
  · rw [List.length_map]
    exact length_locatorRoots_le_two sigma1 sigma2 h

theorem nodup_locatorPositions {sigma1 sigma2 : Gf} (h : sigma2 ≠ 0) : (locatorPositions sigma1 sigma2).Nodup := by
  rw [locatorPositions_eq h]
  refine List.Nodup.map_on (fun x hx y hy hxy => ?_) (List.nodup_range.filter _)
  have hx15 : x < 15 := List.mem_range.mp (List.mem_filter.mp hx).1
  have hy15 : y < 15 := List.mem_range.mp (List.mem_filter.mp hy).1
  omega

/-- The positions are the coordinates whose locator z = EXP[(j + 1) mod 15] is a root. -/
theorem mem_locatorPositions_iff {sigma1 sigma2 : Gf} (h : sigma2 ≠ 0) {j : Nat} (hj : j < 15) :
    j ∈ locatorPositions sigma1 sigma2 ↔ isLocatorRoot sigma1 sigma2 ((j + 1) % 15) = true := by
  rw [locatorPositions_eq h, List.mem_map]
  constructor
  · rintro ⟨e, he, rfl⟩
    obtain ⟨he15, hroot⟩ := List.mem_filter.mp he
    have he15 : e < 15 := List.mem_range.mp he15
    rwa [show ((e + 14) % 15 + 1) % 15 = e by omega]
  · intro hroot
    exact ⟨(j + 1) % 15, List.mem_filter.mpr ⟨List.mem_range.mpr (by omega), hroot⟩, by omega⟩

theorem gfQuot_ne_zero {x y : Gf} (hx : x ≠ 0) (hy : y ≠ 0) : gfQuot x y ≠ 0 := fun h =>
  hx (by rw [← gfMul_gfQuot x y hy, gfMul_eq_zero (.inl h)])

/-! ### The correction of one block (45_decoder.md R222) -/

theorem bchCorrect_eq {r : Vec} {s1 s3 : Gf} (hsyn : bchSyn r = (s1, s3)) :
    bchCorrect r =
      if s1 = 0 then r
      else if s3 ^^^ gfMul (gfMul s1 s1) s1 = 0 then Vec.flip r (14 - logOf s1)
      else (locatorPositions s1 (gfQuot (s3 ^^^ gfMul (gfMul s1 s1) s1) s1)).foldl Vec.flip r := by
  rw [bchCorrect, hsyn]

/-- Where s1 and delta are not 0, exactly the coordinates are flipped whose locator is a root. -/
theorem bit_bchCorrect_of_roots {r : Vec} {s1 s3 : Gf} (hr : r.length = 15) (hsyn : bchSyn r = (s1, s3))
    (h1 : s1 ≠ 0) (hdelta : s3 ^^^ gfMul (gfMul s1 s1) s1 ≠ 0) {j : Nat} (hj : j < 15) :
    Vec.bit (bchCorrect r) j = Bool.xor (Vec.bit r j)
      (isLocatorRoot s1 (gfQuot (s3 ^^^ gfMul (gfMul s1 s1) s1) s1) ((j + 1) % 15)) := by
  have hsigma2 := gfQuot_ne_zero hdelta h1
  rw [bchCorrect_eq hsyn, if_neg h1, if_neg hdelta,
    Vec.bit_foldl_flip (nodup_locatorPositions hsigma2) (hr.symm ▸ hj)]
  simp only [mem_locatorPositions_iff hsigma2 hj, Bool.decide_eq_true]

/-- Settles O44: DBCH is `bchCorrect` on every block, and the locator polynomial of a block has no root that the
search leaves out. -/
theorem dbchSolvesTheLocator : Obligations.DbchSolvesTheLocator := by
  intro d a s c
  refine ⟨rfl, fun h0 hmod => ?_, fun h => ?_⟩
  · refine ⟨(Vec.blocks 15 (c.length / 15) c).flatMap bchCorrect, ?_,
      Vec.length_flatMap_blocks_of_keeps hmod length_bchCorrect, fun blk hblk => ?_⟩
    · rw [exec_dbch, if_neg h0, if_pos hmod]
    · intro r s1 s3 delta
      have hr : r.length = 15 := Vec.length_block hblk
      have hsyn : bchSyn r = (s1, s3) := bchSyn_eq r
      rw [Vec.block_flatMap_blocks hmod hblk fun block hlen => (length_bchCorrect block).trans hlen]
      refine ⟨fun h1 => ?_, fun h1 hdelta => ?_, fun h1 hdelta j hj => bit_bchCorrect_of_roots hr hsyn h1 hdelta hj⟩
      · exact (bchCorrect_eq hsyn).trans (if_pos h1)
      · exact (bchCorrect_eq hsyn).trans ((if_neg h1).trans (if_pos hdelta))
  · rw [exec_dbch]
    split_ifs with h0 hmod
    · rfl
    · exact absurd h (not_or_intro h0 (not_not_intro hmod))
    · rfl

end Sys2Proof.Machine

/-! ## Decoding a codeword without errors (O48)

Undoing the permutation leaves m·S encoded block by block. Such a vector of codewords is its own correction, the code
is systematic, so the message bits are m·S, and S⁻¹ leaves m. -/

namespace Sys2Proof.Machine

/-! ### Products of a vector with several matrices (00_scope.md R18) -/

/-- A sum with one place selected. -/
theorem xorSum_select {n p : Nat} (hp : p < n) (f : Nat → Bool) :
    xorSum n (fun j => decide (j = p) && f j) = f p := by
  rw [← xorSum_single n p (f p) hp]
  refine xorSum_congr fun j _ => ?_
  by_cases hjp : j = p
  · rw [hjp]
  · simp [hjp]

/-- A product with a matrix that begins with the identity begins with the vector. -/
theorem Vec.take_mulMat_of_systematic {G : Mat} {k n : Nat} (hG : Mat.HasShape G k n) (hk : 0 < k) (hkn : k ≤ n)
    (hsys : ∀ i, i < k → ∀ j, j < k → Mat.bit G i j = decide (i = j)) {m : Vec} (hm : m.length = k) :
    (Vec.mulMat m G).take k = m := by
  have hlen : ((Vec.mulMat m G).take k).length = k := by
    rw [List.length_take, Vec.length_mulMat, hG.ncols hk, Nat.min_eq_left hkn]
  refine Vec.ext_bit (hlen.trans hm.symm) fun j hj => ?_
  rw [hlen] at hj
  rw [Vec.bit_take hj, Vec.bit_mulMat m G (hm.trans hG.nrows.symm) (by rw [hG.ncols hk]; omega), hm,
    ← xorSum_select hj (Vec.bit m)]
  exact xorSum_congr fun i hi => by rw [hsys i hi j hj, Bool.and_comm]

theorem Vec.mulMat_identity {v : Vec} {n : Nat} (hn : 0 < n) (hv : v.length = n) :
    Vec.mulMat v (Mat.identity n) = v := by
  have hI := Mat.shape_identity n
  have hlen : (Vec.mulMat v (Mat.identity n)).length ≤ n := by rw [Vec.length_mulMat, hI.ncols hn]
  rw [← List.take_of_length_le hlen]
  exact Vec.take_mulMat_of_systematic hI hn le_rfl (fun _ hi _ hj => Mat.bit_identity hi hj) hv

/-- `(v·A)·B = v·(A·B)`. -/
theorem Vec.mulMat_mulMat {A B : Mat} {R J C : Nat} (hA : Mat.HasShape A R J) (hB : Mat.HasShape B J C) (hR : 0 < R)
    (hJ : 0 < J) {v : Vec} (hv : v.length = R) : Vec.mulMat (Vec.mulMat v A) B = Vec.mulMat v (Mat.mul A B) := by
  have hAB : Mat.HasShape (Mat.mul A B) R C := by
    simpa only [hA.nrows, hB.ncols hJ] using Mat.shape_mul A B
  have hvA : (Vec.mulMat v A).length = J := by rw [Vec.length_mulMat, hA.ncols hR]
  have hlen : (Vec.mulMat (Vec.mulMat v A) B).length = C := by rw [Vec.length_mulMat, hB.ncols hJ]
  refine Vec.ext_bit (by rw [hlen, Vec.length_mulMat, hAB.ncols hR]) fun c hc => ?_
  rw [hlen] at hc
  rw [Vec.bit_mulMat _ B (hvA.trans hB.nrows.symm) (by rwa [hB.ncols hJ]), hvA,
    Vec.bit_mulMat v _ (hv.trans hAB.nrows.symm) (by rwa [hAB.ncols hR]), hv]
  calc xorSum J (fun j => Vec.bit (Vec.mulMat v A) j && Mat.bit B j c)
      = xorSum J fun j => xorSum R fun i => Vec.bit v i && (Mat.bit A i j && Mat.bit B j c) :=
        xorSum_congr fun j hj => by
          rw [Vec.bit_mulMat v A (hv.trans hA.nrows.symm) (by rwa [hA.ncols hR]), hv, ← xorSum_and_right]
          simp only [Bool.and_assoc]
    _ = xorSum R fun i => xorSum J fun j => Vec.bit v i && (Mat.bit A i j && Mat.bit B j c) := xorSum_comm J R _
    _ = xorSum R fun i => Vec.bit v i && Mat.bit (Mat.mul A B) i c :=
        xorSum_congr fun i hi => by rw [xorSum_and_left, Mat.bit_mul hA hB hJ hi hc]

/-- What a product with A makes of v is undone by a right inverse of A. -/
theorem Vec.mulMat_mulMat_of_inverse {A B : Mat} {n : Nat} (hA : Mat.HasShape A n n) (hB : Mat.HasShape B n n)
    (hn : 0 < n) (hAB : Mat.mul A B = Mat.identity n) {v : Vec} (hv : v.length = n) :
    Vec.mulMat (Vec.mulMat v A) B = v := by
  rw [Vec.mulMat_mulMat hA hB hn hn hv, hAB, Vec.mulMat_identity hn hv]

/-! ### A product with L copies of A along the diagonal -/

/-- Entry (i, j) of the copy of A that stands in block row a and block column b: the blocks off the diagonal are zero
(42_code.md R167). -/
theorem Mat.bit_blockDiagonal_entry {A : Mat} {R C l a i j : Nat} (hA : Mat.HasShape A R C) (ha : a < l) (hi : i < R)
    (hj : j < C) (b : Nat) :
    Mat.bit (Mat.blockDiagonal A l) (a * R + i) (C * b + j) = (decide (a = b) && Mat.bit A i j) := by
  have hC : 0 < C := Nat.zero_lt_of_lt hj
  rw [Mat.bit_blockDiagonal hA hC ha hi, Nat.mul_add_div hC, Nat.div_eq_of_lt hj, Nat.add_zero, Nat.mul_add_mod,
    Nat.mod_eq_of_lt hj]
  simp only [eq_comm]

section
variable {A : Mat} {R C l : Nat} (hA : Mat.HasShape A R C) (hR : 0 < R) {u : Vec} (hu : u.length = l * R)
include hA hR hu

/-- Block b of the product is the product of block b with A: the other blocks meet zeros. -/
theorem Vec.block_mulMat_blockDiagonal {b : Nat} (hb : b < l) :
    Vec.block C b (Vec.mulMat u (Mat.blockDiagonal A l)) = Vec.mulMat (Vec.block R b u) A := by
  have hD : Mat.HasShape (Mat.blockDiagonal A l) (l * R) (l * C) := Mat.shape_blockDiagonal hA hR l
  have hcols : Mat.ncols (Mat.blockDiagonal A l) = l * C := hD.ncols (Nat.mul_pos (Nat.zero_lt_of_lt hb) hR)
  have hblock : (Vec.block R b u).length = R := Vec.length_block (by rwa [hu, Nat.mul_div_cancel l hR])
  have hend : C * b + C ≤ l * C := by
    rw [← Nat.mul_succ, Nat.mul_comm l C]
    exact Nat.mul_le_mul_left C hb
  have hlen : (Vec.block C b (Vec.mulMat u (Mat.blockDiagonal A l))).length = C := by
    rw [Vec.block, List.length_take, List.length_drop, Vec.length_mulMat, hcols]
    omega
  refine Vec.ext_bit (by rw [hlen, Vec.length_mulMat, hA.ncols hR]) fun j hj => ?_
  rw [hlen] at hj
  have hinner : ∀ a, a < l → xorSum R (fun i => Vec.bit u (a * R + i) &&
      Mat.bit (Mat.blockDiagonal A l) (a * R + i) (C * b + j)) =
      (decide (a = b) && xorSum R fun i => Vec.bit u (a * R + i) && Mat.bit A i j) := by
    intro a ha
    rw [← xorSum_and_left]
    refine xorSum_congr fun i hi => ?_
    rw [Mat.bit_blockDiagonal_entry hA ha hi hj, Bool.and_left_comm]
  rw [Vec.bit_block hj, Vec.bit_mulMat u _ (hu.trans hD.nrows.symm) (by rw [hcols]; omega), hu, xorSum_mul,
    xorSum_congr hinner, xorSum_select hb, Vec.bit_mulMat _ A (hblock.trans hA.nrows.symm) (by rwa [hA.ncols hR]),
    hblock]
  exact xorSum_congr fun i hi => by rw [Vec.bit_block hi, Nat.mul_comm b R]

/-- A map that undoes the product with A, done block by block, undoes the product with the copies of A. -/
theorem Vec.flatMap_blocks_mulMat_blockDiagonal {f : Vec → Vec}
    (hf : ∀ block : Vec, block.length = R → f (Vec.mulMat block A) = block) :
    (Vec.blocks C l (Vec.mulMat u (Mat.blockDiagonal A l))).flatMap f = u := by
  have hmap : (Vec.blocks C l (Vec.mulMat u (Mat.blockDiagonal A l))).map f = Vec.blocks R l u := by
    refine List.ext_getElem (by rw [List.length_map, Vec.length_blocks, Vec.length_blocks]) fun b hb hb' => ?_
    have hbl : b < l := by rwa [Vec.length_blocks] at hb'
    rw [List.getElem_map, Vec.getElem_blocks, Vec.block_mulMat_blockDiagonal hA hR hu hbl, Vec.getElem_blocks]
    exact hf _ (Vec.length_block (by rwa [hu, Nat.mul_div_cancel l hR]))
  rw [List.flatMap_def, hmap, Vec.flatten_blocks hu]

end

/-! ### Codewords of the two codes -/

/-- The correction of one block by the decoder command of the family (45_decoder.md R228). -/
def familyCorrect : Family → Vec → Vec
  | .ham => hammingCorrect parHamming
  | .bch => bchCorrect

theorem Vec.distance_self (v : Vec) : Vec.distance v v = 0 := by
  have hzero : Vec.xor v v = Vec.zero v.length :=
    Vec.ext_bit (by simp) fun j _ => by rw [Vec.bit_xor _ _ rfl, Vec.bit_zero, Bool.xor_self]
  rw [Vec.distance, hzero, Vec.weight, Vec.zero, List.count_replicate]
  rfl

/-- A codeword is its own correction. -/
theorem familyCorrect_codeword (fam : Family) {m : Vec} (hm : m.length = Mat.nrows (generatorMatrix fam)) :
    familyCorrect fam (Vec.mulMat m (generatorMatrix fam)) = Vec.mulMat m (generatorMatrix fam) := by
  have hd := (Vec.distance_self (Vec.mulMat m (generatorMatrix fam))).le
  cases fam with
  | ham => exact hammingCorrect_noisy (Vec.length_mulMat m genHamming) hm (hd.trans (Nat.zero_le 1))
  | bch => exact bchCorrect_noisy (Vec.length_mulMat m genBch) hm (hd.trans (Nat.zero_le 2))

theorem bit_generatorMatrix_message (fam : Family) : ∀ i, i < Mat.nrows (generatorMatrix fam) →
    ∀ j, j < Mat.nrows (generatorMatrix fam) → Mat.bit (generatorMatrix fam) i j = decide (i = j) := by
  cases fam <;> decide

/-- A codeword begins with its message (42_code.md R161). -/
theorem take_codeword (fam : Family) {m : Vec} (hm : m.length = Mat.nrows (generatorMatrix fam)) :
    (Vec.mulMat m (generatorMatrix fam)).take (Mat.nrows (generatorMatrix fam)) = m :=
  Vec.take_mulMat_of_systematic (shape_generatorMatrix fam) (by cases fam <;> decide) (by cases fam <;> decide)
    (bit_generatorMatrix_message fam) hm

/-- Settles O48: without errors the received vector is m·S encoded block by block, which the correction leaves as it
is; its message bits are m·S, and S⁻¹ leaves m. -/
theorem decodingInvertsEncoding : Obligations.DecodingInvertsEncoding := by
  intro fam l S Sinv P m k correct gpub received corrected scrambled hl hS hSinv hP hSS hPP hm
  have hG : Mat.HasShape (generatorMatrix fam) k 15 := shape_generatorMatrix fam
  have hk : 0 < k := by cases fam <;> decide
  have hlk : 0 < l * k := Nat.mul_pos hl hk
  have hl15 : 0 < l * 15 := Nat.mul_pos hl (by decide)
  have hD : Mat.HasShape (Mat.blockDiagonal (generatorMatrix fam) l) (l * k) (l * 15) :=
    Mat.shape_blockDiagonal hG hk l
  have hSD : Mat.HasShape (Mat.mul S (Mat.blockDiagonal (generatorMatrix fam) l)) (l * k) (l * 15) := by
    simpa only [hS.nrows, hD.ncols hlk] using Mat.shape_mul S (Mat.blockDiagonal (generatorMatrix fam) l)
  have hu : (Vec.mulMat m S).length = l * k := by rw [Vec.length_mulMat, hS.ncols hlk]
  have hcode : (Vec.mulMat (Vec.mulMat m S) (Mat.blockDiagonal (generatorMatrix fam) l)).length = l * 15 := by
    rw [Vec.length_mulMat, hD.ncols hlk]
  have hreceived : received = Vec.mulMat (Vec.mulMat m S) (Mat.blockDiagonal (generatorMatrix fam) l) := by
    have hgpub : Vec.mulMat m gpub =
        Vec.mulMat (Vec.mulMat (Vec.mulMat m S) (Mat.blockDiagonal (generatorMatrix fam) l)) P := by
      rw [Vec.mulMat_mulMat hS hD hlk hlk hm, Vec.mulMat_mulMat hSD hP hlk hl15 hm]
    exact (congrArg (Vec.mulMat · (Mat.transpose P)) hgpub).trans
      (Vec.mulMat_mulMat_of_inverse hP (Mat.shape_transpose hP hl15) hl15 hPP hcode)
  have hcorrect : correct = familyCorrect fam := by cases fam <;> rfl
  have hcorrected : corrected = received := by
    refine Vec.flatMap_blocks_eq (hreceived ▸ hcode) fun b hb => ?_
    rw [hreceived, Vec.block_mulMat_blockDiagonal hG hk hu hb, hcorrect]
    exact familyCorrect_codeword fam (Vec.length_block (by rwa [hu, Nat.mul_div_cancel l hk]))
  have hscrambled : scrambled = Vec.mulMat m S := by
    change (Vec.blocks 15 l corrected).flatMap (List.take k) = _
    rw [hcorrected, hreceived]
    exact Vec.flatMap_blocks_mulMat_blockDiagonal hG hk hu fun block hblock => take_codeword fam hblock
  rw [hscrambled]
  exact Vec.mulMat_mulMat_of_inverse hS hSinv hlk hSS hm

end Sys2Proof.Machine

/-! # The proofs of the family 46_system

## The command in flight (O6, O7, O8, O15) -/

namespace Sys2Proof.Machine

/-! ### A completion, by the word in flight (46_system.md R250, R251) -/

theorem runCommand_of_decode {s : State} {i : Instr} (h : decode s.cmd = .ok i) : runCommand s = exec i s := by
  rw [runCommand, h]

theorem engineCompletes_busy {s : State} (hb : s.busy = true) : engineCompletes s = runCommand s := if_pos hb

theorem engineCompletes_idle {s : State} (hb : s.busy = false) : engineCompletes s = .next s :=
  if_neg (ne_true_of_eq_false hb)

theorem engineCompletes_legal {s : State} {i : Instr} (hb : s.busy = true) (h : decode s.cmd = .ok i) :
    engineCompletes s = exec i s :=
  (engineCompletes_busy hb).trans (runCommand_of_decode h)

theorem engineCompletes_illegal {s : State} {e : IllegalWord} (hb : s.busy = true) (h : decode s.cmd = .error e) :
    engineCompletes s = .next (s.takeFault .illegalCmd) :=
  (engineCompletes_busy hb).trans (runCommand_illegal ⟨e, h⟩)

/-! ### Normal completion and the fault (O15) -/

/-- Settles O15: the frame of a normal completion that writes no register, and of a fault that draws nothing. -/
theorem finishAndTakeFault : Obligations.FinishAndTakeFault :=
  ⟨fun s => ⟨WritesDest.commandFrame (dst := .none) rfl s.rng, WritesDest.noFaultRecorded (dst := .none) rfl s.rng,
      ⟨fun _ => rfl, fun _ => rfl, fun _ => rfl⟩, rfl⟩,
    fun s c => ⟨takeFault_commandFrame s s.rng c, takeFault_faultRecorded s s.rng c, takeFault_sameRegisters s s.rng c,
      rfl⟩,
    rfl, rfl, rfl, rfl, rfl, rfl⟩

/-! ### The two ways to complete (O8) -/

theorem eq_kinv_of_keygenExhausted {i : Instr} (h : .keygenExhausted ∈ possibleCauses i) : ∃ d n, i = .kinv d n := by
  cases i with
  | kinv d n => exact ⟨d, n, rfl⟩
  | _ => simp [possibleCauses] at h

/-- `exec_outcome` without KEYGEN_EXHAUSTED, which KINV never reaches: every fault leaves RNG_STATE as it was
(43_keygen.md R185). -/
theorem exec_outcome_keeps_rng_on_fault (i : Instr) (s : State) :
    (∃ g u, (i.draws = false → g = s.rng) ∧ WritesDest i.dest s u ∧ exec i s = .next (u.setRng g).finish) ∨
      ∃ c ∈ possibleCauses i, c ≠ .keygenExhausted ∧ exec i s = .next (s.takeFault c) := by
  by_cases hk : .keygenExhausted ∈ possibleCauses i
  · obtain ⟨d, n, rfl⟩ := eq_kinv_of_keygenExhausted hk
    by_cases hn : 1 ≤ n ∧ n ≤ 256
    · exact .inl ⟨_, _, nofun, ⟨_, rfl⟩, exec_kinv hn.1 hn.2 d s⟩
    · exact .inr ⟨.shape, List.mem_cons_self, nofun, exec_kinv_shape (by omega) d s⟩
  · rcases exec_outcome i s with h | ⟨g, c, hc, hg, h⟩
    · exact .inl h
    · have hne : c ≠ .keygenExhausted := ne_of_mem_of_not_mem hc hk
      rw [hg hne, State.setRng_self] at h
      exact .inr ⟨c, hc, hne, h⟩

/-- At a completion DONE is 1, so with IE_DONE the interrupt output is up (60_exceptions.md R277). -/
theorem CommandFrame.irq {s t : State} (h : CommandFrame s t) :
    t.irq = (s.ieDone || (s.ieErr && (t.err || s.ovr))) := by
  rw [State.irq, h.done, h.ieDone, h.ieErr, h.ovr, Bool.and_true]

/-- Settles O8: an illegal word takes ILLEGAL_CMD; a command writes its destination, or takes one of its causes. -/
theorem completionOfAcceptedCommand : Obligations.CompletionOfAcceptedCommand := by
  intro s hb
  obtain ⟨-, hfault, -⟩ := finishAndTakeFault
  cases hdec : decode s.cmd with
  | error e =>
    obtain ⟨hframe, hrecorded, hregs, hrng⟩ := hfault s .illegalCmd
    exact ⟨_, engineCompletes_illegal hb hdec, hframe, hframe.irq,
      .inr ⟨.illegalCmd, .inl ⟨e, rfl, rfl⟩, hrecorded, hregs, hrng⟩⟩
  | ok i =>
    rw [engineCompletes_legal hb hdec]
    rcases exec_outcome_keeps_rng_on_fault i s with ⟨g, u, hg, hw, h⟩ | ⟨c, hc, hne, h⟩
    · have hframe := hw.commandFrame g
      exact ⟨_, h, hframe, hframe.irq, .inl ⟨i, rfl, hw.noFaultRecorded g, hw.sameRegistersBut g, hg⟩⟩
    · obtain ⟨hframe, hrecorded, hregs, hrng⟩ := hfault s c
      exact ⟨_, h, hframe, hframe.irq, .inr ⟨c, .inr ⟨i, rfl, hc, hne⟩, hrecorded, hregs, hrng⟩⟩

/-! ### A step, event by event (O6) -/

theorem step_completion {s : State} {rest : List Event} (hs : s.bus = .completion :: rest) :
    step s = engineCompletes { s with bus := rest } := step_cons hs

/-- A 32-bit word is accepted as it is, its completion next. -/
theorem withFetchWord_toNat (s : State) (w : Word) :
    s.withFetchWord 32 w.toNat = { acceptCommand w s with bus := .completion :: s.bus } := by
  rw [State.withFetchWord, Nat.mod_eq_of_lt w.isLt, BitVec.ofNat_toNat, BitVec.setWidth_eq]

theorem step_withFetchWord (s : State) (w : Word) :
    step (s.withFetchWord 32 w.toNat) = engineCompletes (acceptCommand w s) := by
  rw [withFetchWord_toNat]
  exact step_completion rfl

/-- Settles O6: a step with nothing on the list or a completion on it is the engine's completion, any other the event
itself. -/
theorem stepRunsDecodedCommand : Obligations.StepRunsDecodedCommand := by
  refine ⟨fun s i hb hdec => ⟨fun hs => ?_, fun rest hs => ?_⟩, fun s e hb hdec => ⟨fun hs => ?_, fun rest hs => ?_⟩,
    fun s w i hdec => ?_, fun s hb => ⟨fun hs => ?_, fun rest hs => ?_⟩,
    fun s rest => ⟨fun _ _ => step_cons, fun _ => step_cons, step_cons⟩⟩
  · exact (step_nil hs).trans (engineCompletes_legal hb hdec)
  · exact (step_completion hs).trans (engineCompletes_legal hb hdec)
  · exact (step_nil hs).trans (engineCompletes_illegal hb hdec)
  · exact (step_completion hs).trans (engineCompletes_illegal hb hdec)
  · exact (step_withFetchWord s w).trans (engineCompletes_legal rfl hdec)
  · exact (step_nil hs).trans (engineCompletes_idle hb)
  · exact (step_completion hs).trans (engineCompletes_idle hb)

/-! ### Acceptance (O7) -/

theorem mmioWrite_cmd_idle {s : State} {off : Nat} (hr : regAt off = .cmd) (hb : s.busy = false) (w : Word) :
    mmioWrite off w s = acceptCommand w s := by
  rw [mmioWrite_idle hb, hr, State.writeReg]

theorem mmioWrite_cmd_busy {s : State} {off : Nat} (hr : regAt off = .cmd) (hb : s.busy = true) (w : Word) :
    mmioWrite off w s = s.noteOverrun := by
  simp [mmioWrite, hr, hb]

/-- Settles O7: an idle engine accepts the word, which then is the word in flight; a busy one drops it. -/
theorem acceptanceOfACommand : Obligations.AcceptanceOfACommand := by
  intro s w off hoff
  have hr : regAt off = .cmd := regAt_congr (off' := 0x10) hoff
  refine ⟨fun hb => ?_, fun hb => mmioWrite_cmd_busy hr hb w⟩
  rw [mmioWrite_cmd_idle hr hb w, mmioRead_not_owned hr rfl]
  exact ⟨rfl, rfl, rfl, rfl, fun i hdec => engineCompletes_legal (s := acceptCommand w s) rfl hdec,
    fun e hdec => engineCompletes_illegal (s := acceptCommand w s) rfl hdec⟩

end Sys2Proof.Machine

/-! ## NOP (O19) -/

namespace Sys2Proof.Machine

/-- Opcode 0 has form N, which leaves every other field at 0 (30_encoding.md R94 (c)). -/
theorem decode_isError_of_opcode_zero {w : Word} (hopc : field w 7 0 = 0) (hupper : field w 31 8 ≠ 0) :
    ∃ e, decode w = .error e := by
  rw [decode_isError_iff, hopc]
  by_cases hr : ReservedZero w
  · exact .inr (.inr (.inl ⟨.n, rfl, (fieldsOf_ne_zero hr).mpr hupper⟩))
  · exact .inr (.inl hr)

/-- An accepted word is the encoding of its command, and NOP's encoding is 0. -/
theorem decode_eq_nop_iff (w : Word) : decode w = .ok .nop ↔ w = 0 := by
  constructor
  · intro h
    exact (encodeOfDecode w .nop h).2.symm
  · rintro rfl
    rfl

/-- Settles O19: the one word of NOP, its completion, and the words of opcode 0 that are not NOP's. -/
theorem nopCompletes : Obligations.NopCompletes :=
  ⟨decode_eq_nop_iff, fun s => complete_ok s s,
    fun _ hopc hupper => runCommand_illegal (decode_isError_of_opcode_zero hopc hupper)⟩

end Sys2Proof.Machine

/-! # The proofs of the family 60_exceptions

## The record of a fault (O10, O11) -/

namespace Sys2Proof.Machine

/-- A legal command records nothing, or one of its causes other than KEYGEN_EXHAUSTED (60_exceptions.md R270). -/
theorem exec_records {i : Instr} {s t : State} (ht : exec i s = .next t) :
    NoFaultRecorded s t ∨ ∃ c ∈ possibleCauses i, c ≠ .keygenExhausted ∧ FaultRecorded c s t := by
  rcases exec_outcome_keeps_rng_on_fault i s with ⟨g, u, -, hw, h⟩ | ⟨c, hc, hne, h⟩
  · cases h.symm.trans ht
    exact .inl (hw.noFaultRecorded g)
  · cases h.symm.trans ht
    exact .inr ⟨c, hc, hne, takeFault_faultRecorded s s.rng c⟩

/-- The word in flight records nothing, or one fault (60_exceptions.md R260, R262). -/
theorem runCommand_records {s t : State} (ht : runCommand s = .next t) :
    NoFaultRecorded s t ∨ ∃ c, FaultRecorded c s t := by
  cases hdec : decode s.cmd with
  | ok i =>
    rw [runCommand_of_decode hdec] at ht
    exact (exec_records ht).imp_right fun ⟨c, _, _, h⟩ => ⟨c, h⟩
  | error e =>
    cases (runCommand_illegal ⟨e, hdec⟩).symm.trans ht
    exact .inr ⟨.illegalCmd, takeFault_faultRecorded s s.rng .illegalCmd⟩

/-- Settles O10: a completion without a fault leaves the capture, and a fault writes it only while ERR = 0. -/
theorem firstFaultCapture : Obligations.FirstFaultCapture := by
  intro s t ht
  rcases runCommand_records ht with h | ⟨c, h⟩
  · exact ⟨fun he => ⟨h.err.trans he, h.errcode, h.errcmd⟩,
      fun he he' => absurd (h.err.symm.trans he') (ne_true_of_eq_false he), fun _ _ => ⟨h.errcode, h.errcmd⟩⟩
  · exact ⟨fun he => ⟨h.err, h.later he⟩, fun he _ => ⟨(h.first he).2, c, (h.first he).1⟩,
      fun _ he' => absurd h.err (ne_true_of_eq_false he')⟩

theorem FaultCause.eq_keygenExhausted_of_code {c : FaultCause} (h : c.code = 6) : c = .keygenExhausted := by
  cases c with
  | keygenExhausted => rfl
  | _ => exact absurd h (by decide)

/-- Settles O11: the cause recorded is one of the row, and only KEYGEN_EXHAUSTED, which is not reached, has code 6. -/
theorem causesOfEachCommand : Obligations.CausesOfEachCommand := by
  intro i s t ht he he'
  rcases exec_records ht with h | ⟨c, hc, hne, h⟩
  · exact absurd (h.err.symm.trans he') (ne_true_of_eq_false he)
  · obtain ⟨hcode, -⟩ := h.first he
    exact ⟨⟨c, hc, hcode⟩, fun h6 => hne (FaultCause.eq_keygenExhausted_of_code (hcode.symm.trans h6))⟩

end Sys2Proof.Machine

/-! ## The flags (O12, O13) -/

namespace Sys2Proof.Machine

/-! ### STATUS (10_state.md R44, 60_exceptions.md R274) -/

theorem writeStatus_eq (v : Word) (s : State) : s.writeStatus v =
    { s with
      done := s.done && !v.getLsbD 1
      err := s.err && !v.getLsbD 2
      ovr := s.ovr && !v.getLsbD 3
      errcode := if v.getLsbD 2 then 0 else s.errcode
      errcmd := if v.getLsbD 2 then 0 else s.errcmd } := by
  unfold State.writeStatus
  cases v.getLsbD 2 <;> simp [State.clearFault]

theorem statusWord_eq (s : State) : s.statusWord = BitVec.ofNat 32
    ((if s.busy then 1 else 0) + (if s.done then 2 else 0) + (if s.err then 4 else 0) + (if s.ovr then 8 else 0)) := by
  simp [State.statusWord, Bool.toNat, Bool.cond_eq_ite]

/-- A running command that faults while ERR = 0 is captured; an illegal word always is (60_exceptions.md R262). -/
theorem engineCompletes_captures {s : State} (hb : s.busy = true) (he : s.err = false) :
    ∃ t, engineCompletes s = .next t ∧ (t.err = true → t.errcmd = s.cmd ∧ t.errcode ≠ 0) ∧
      ∀ e, decode s.cmd = .error e → t.err = true ∧ t.errcode = 1 := by
  obtain ⟨t, ht⟩ := engineCompletes_next s
  refine ⟨t, ht, fun he' => ?_, fun e hdec => ?_⟩
  · obtain ⟨-, hfirst, -⟩ := firstFaultCapture s t ((engineCompletes_busy hb).symm.trans ht)
    obtain ⟨hcmd, c, hcode⟩ := hfirst he he'
    exact ⟨hcmd, hcode ▸ c.code_range.1⟩
  · cases (engineCompletes_illegal hb hdec).symm.trans ht
    exact ⟨rfl, by simp [he, FaultCause.code]⟩

/-! ### What clears ERR -/

/-- The two writes that clear ERR: to STATUS with bit 2 = 1, and to CTRL with SRST = 1. -/
def ClearsErr (off : Nat) (v : Word) : Prop :=
  (off / 4 % 64 = 3 ∧ v.getLsbD 2 = true) ∨ (off / 4 % 64 = 2 ∧ v.getLsbD 31 = true)

/-- An offset of a register that only number k names has that number (20_memory.md R70). -/
theorem number_of_regAt {r : MmioReg} {k off : Nat} (hk : ∀ n : Fin 64, regAt (4 * n) = r → n = k)
    (h : regAt off = r) : off / 4 % 64 = k :=
  hk (Fin.ofNat 64 (off / 4)) ((regAt_congr (by simp)).trans h)

theorem writeDim_err (v : Word) (s : State) : (s.writeDim v).err = s.err := by
  unfold State.writeDim
  repeat' split
  all_goals rfl

theorem writeDataWord_err (w : Nat) (v : Word) (s : State) : (s.writeDataWord w v).err = s.err := by
  unfold State.writeDataWord
  repeat' split
  all_goals rfl

/-- Only STATUS with a 1 in bit 2 and CTRL with SRST reach ERR. -/
theorem writeReg_clears_err {r : MmioReg} {v : Word} {s : State} (he : s.err = true)
    (ht : (s.writeReg r v).err = false) :
    (r = .status ∧ v.getLsbD 2 = true) ∨ (r = .ctrl ∧ v.getLsbD 31 = true) := by
  cases r with
  | status => exact .inl ⟨rfl, by simpa [State.writeReg, writeStatus_eq, he] using ht⟩
  | ctrl =>
    refine .inr ⟨rfl, ?_⟩
    by_contra hv
    rw [State.writeReg, State.writeCtrl, if_neg hv] at ht
    exact absurd (he.symm.trans ht) nofun
  | dim => simp [State.writeReg, writeDim_err, he] at ht
  | data w => simp [State.writeReg, writeDataWord_err, he] at ht
  | _ => exact absurd (he.symm.trans ht) nofun

theorem mmioWrite_clears_err {off : Nat} {v : Word} {s : State} (he : s.err = true)
    (ht : (mmioWrite off v s).err = false) : ClearsErr off v := by
  unfold mmioWrite at ht
  split at ht
  · exact absurd (he.symm.trans ht) nofun
  · rcases writeReg_clears_err he ht with ⟨hr, hv⟩ | ⟨hr, hv⟩
    · exact .inl ⟨number_of_regAt (by decide) hr, hv⟩
    · exact .inr ⟨number_of_regAt (by decide) hr, hv⟩

theorem engineCompletes_keeps_err {s t : State} (ht : engineCompletes s = .next t) (he : s.err = true) :
    t.err = true := by
  cases hb : s.busy with
  | true =>
    obtain ⟨hlater, -⟩ := firstFaultCapture s t ((engineCompletes_busy hb).symm.trans ht)
    exact (hlater he).1
  | false =>
    cases (engineCompletes_idle hb).symm.trans ht
    exact he

theorem hostRead_err (off : Nat) (s : State) : (hostRead off s).err = s.err :=
  (congrArg State.err (mmioRead_state off s) :)

theorem handleEvent_clears_err {e : Event} {s t : State} (ht : handleEvent e s = .next t) (he : s.err = true)
    (he' : t.err = false) : e = .hardReset ∨ ∃ off v, e = .write off v ∧ ClearsErr off v := by
  cases e with
  | read off =>
    cases ht
    simp [hostRead_err, he] at he'
  | write off v =>
    cases ht
    exact .inr ⟨off, v, rfl, mmioWrite_clears_err he he'⟩
  | narrow off => cases ht
  | hardReset => exact .inl rfl
  | completion => exact absurd (engineCompletes_keeps_err ht he) (ne_true_of_eq_false he')

/-- No step but a reset or one of the two writes clears ERR (60_exceptions.md R274). -/
theorem step_clears_err {s t : State} (ht : step s = .next t) (he : s.err = true) (he' : t.err = false) :
    ∃ rest, s.bus = .hardReset :: rest ∨ ∃ off v, s.bus = .write off v :: rest ∧ ClearsErr off v := by
  cases hs : s.bus with
  | nil =>
    rw [step_nil hs] at ht
    exact absurd (engineCompletes_keeps_err ht he) (ne_true_of_eq_false he')
  | cons e rest =>
    rw [step_cons hs] at ht
    rcases handleEvent_clears_err ht he he' with rfl | ⟨off, v, rfl, h⟩
    · exact ⟨rest, .inl rfl⟩
    · exact ⟨rest, .inr ⟨off, v, rfl, h⟩⟩

/-- Settles O12: STATUS is written and read idle or busy, and the completion after a write that clears ERR finds ERR = 0
and the same word in flight. -/
theorem statusWriteOneToClear : Obligations.StatusWriteOneToClear := by
  refine ⟨fun s t => step_clears_err, fun s v off hoff => ?_⟩
  have hr : regAt off = .status := regAt_congr (off' := 0x0C) hoff
  have hw : mmioWrite off v s = s.writeStatus v := mmioWrite_not_owned hr rfl nofun s v
  refine ⟨hw.trans (writeStatus_eq v s), fun hv hb => ?_, ?_⟩
  · have h := sameCommand_writeStatus s v
    have he : (s.writeStatus v).err = false := by rw [writeStatus_eq, hv, Bool.not_true, Bool.and_false]
    obtain ⟨t, ht, hfault, hillegal⟩ := engineCompletes_captures (h.busy.trans hb) he
    rw [h.cmd] at hfault hillegal
    exact ⟨t, (runEvents_cons (congrArg _ hw) _).trans (runEvents_cons (e := .completion) ht []), hfault, hillegal⟩
  · rw [mmioRead_not_owned hr rfl]
    exact statusWord_eq s

/-! ### The interrupt output -/

/-- Settles O13: the formula of R277, as a proposition. -/
theorem interruptOutput : Obligations.InterruptOutput := fun s => by
  simp only [State.irq, Bool.or_eq_true, Bool.and_eq_true]

end Sys2Proof.Machine

/-! # The proofs of the family 70_reset_and_hazards

## Accesses while busy (O50) -/

namespace Sys2Proof.Machine

/-! ### The registers by their numbers (10_state.md R40) -/

theorem engineOwned_regAt_iff (off : Nat) : (regAt off).engineOwned = true ↔
    (5 ≤ off / 4 % 64 ∧ off / 4 % 64 ≤ 7) ∨ off / 4 % 64 = 18 ∨ (32 ≤ off / 4 % 64 ∧ off / 4 % 64 ≤ 39) := by
  have hnumber : ∀ n : Fin 64, (regAt (4 * n)).engineOwned = true ↔
      (5 ≤ n.val ∧ n.val ≤ 7) ∨ n.val = 18 ∨ (32 ≤ n.val ∧ n.val ≤ 39) := by decide
  rw [regAt_congr (off' := 4 * (off / 4 % 64)) (by omega)]
  exact hnumber (Fin.ofNat 64 (off / 4))

theorem regAt_eq_cmd_iff (off : Nat) : regAt off = .cmd ↔ off / 4 % 64 = 4 :=
  ⟨number_of_regAt (by decide), regAt_congr (off' := 0x10)⟩

theorem regAt_eq_ctrl_iff (off : Nat) : regAt off = .ctrl ↔ off / 4 % 64 = 2 :=
  ⟨number_of_regAt (by decide), regAt_congr (off' := 0x08)⟩

theorem regAt_eq_status_iff (off : Nat) : regAt off = .status ↔ off / 4 % 64 = 3 :=
  ⟨number_of_regAt (by decide), regAt_congr (off' := 0x0C)⟩

/-! ### An access to an engine-owned register while busy is refused -/

theorem mmioRead_owned_busy {off : Nat} {s : State} (ho : (regAt off).engineOwned = true) (hb : s.busy = true) :
    mmioRead off s = (0, s.noteOverrun) := by
  simp [mmioRead, ho, hb]

theorem mmioWrite_owned_busy {off : Nat} {s : State} (ho : (regAt off).engineOwned = true) (hb : s.busy = true)
    (v : Word) : mmioWrite off v s = s.noteOverrun := by
  simp [mmioWrite, ho, hb]

/-! ### Every other access does not look at BUSY -/

/-- Of the registers the engine does not own, only STATUS shows BUSY (70_reset_and_hazards.md R311). -/
theorem regValue_setBusy {r : MmioReg} (ho : r.engineOwned = false) (hs : r ≠ .status) (s : State) (b : Bool) :
    ({ s with busy := b } : State).regValue r = s.regValue r := by
  cases r with
  | status => exact absurd rfl hs
  | noiseP | kgRounds | rngState | dim | data => cases ho
  | _ => rfl

theorem writeCtrl_reset {v : Word} (hv : v.getLsbD 31 = true) (s : State) : s.writeCtrl v = s.resetCore := if_pos hv

/-- Short of a soft reset, a write the engine does not refuse neither looks at BUSY nor changes it. -/
theorem writeReg_setBusy {r : MmioReg} {v : Word} (ho : r.engineOwned = false) (hc : r ≠ .cmd)
    (hv : ¬ (r = .ctrl ∧ v.getLsbD 31 = true)) (s : State) (b : Bool) :
    ({ s with busy := b } : State).writeReg r v = { s.writeReg r v with busy := b } := by
  cases r with
  | ctrl =>
    have hv : ¬ v.getLsbD 31 = true := fun h => hv ⟨rfl, h⟩
    simp only [State.writeReg, State.writeCtrl, if_neg hv]
  | status => simp only [State.writeReg, writeStatus_eq]
  | cmd => exact absurd rfl hc
  | noiseP | kgRounds | rngState | dim | data => cases ho
  | _ => rfl

/-- While busy, a write the engine does not refuse does what it does when idle; BUSY stays, unless it resets. -/
theorem writeReg_busy_eq_idle {r : MmioReg} (ho : r.engineOwned = false) (hc : r ≠ .cmd) {s : State}
    (hb : s.busy = true) (v : Word) :
    s.writeReg r v = { ({ s with busy := false } : State).writeReg r v with
      busy := !decide (r = .ctrl ∧ v.getLsbD 31 = true) } := by
  by_cases hv : r = .ctrl ∧ v.getLsbD 31 = true
  · obtain ⟨rfl, hv⟩ := hv
    rw [decide_eq_true ⟨rfl, hv⟩, State.writeReg, State.writeReg, writeCtrl_reset hv, writeCtrl_reset hv]
    rfl
  · have hbusy : ({ s with busy := true } : State) = s := by rw [← hb]
    calc s.writeReg r v
      _ = ({ s with busy := true } : State).writeReg r v := by rw [hbusy]
      _ = { s.writeReg r v with busy := true } := writeReg_setBusy ho hc hv s true
      _ = _ := by rw [decide_eq_false hv, writeReg_setBusy ho hc hv s false, Bool.not_false]

/-- Settles O50: the engine refuses CMD writes and the registers it owns; no other access looks at BUSY, but that STATUS
shows it and a soft reset clears it. -/
theorem accessesWhileBusy : Obligations.AccessesWhileBusy := by
  intro s v off hb r owned
  have howned : (regAt off).engineOwned = true ↔ owned := engineOwned_regAt_iff off
  refine ⟨fun hr => mmioWrite_cmd_busy ((regAt_eq_cmd_iff off).mpr hr) hb v,
    fun ho => ⟨mmioRead_owned_busy (howned.mpr ho) hb, mmioWrite_owned_busy (howned.mpr ho) hb v⟩, fun hno => ?_⟩
  have ho : (regAt off).engineOwned = false := eq_false_of_ne_true (mt howned.mp hno)
  have hread (u : State) : mmioRead off u = (u.regValue (regAt off), u) := mmioRead_not_owned rfl ho u
  refine ⟨by rw [hread], fun hr => ?_, fun hr => ?_, fun hr => ?_⟩
  · rw [hread, hread]
    exact (regValue_setBusy ho (mt (regAt_eq_status_iff off).mp hr) s false).symm
  · rw [hread, (regAt_eq_status_iff off).mpr hr]
    rfl
  · have hc : regAt off ≠ .cmd := mt (regAt_eq_cmd_iff off).mp hr
    rw [mmioWrite_not_owned rfl ho hc, mmioWrite_not_owned rfl ho hc, writeReg_busy_eq_idle ho hc hb]
    simp only [Bool.decide_and, Bool.decide_eq_true, regAt_eq_ctrl_iff, r]

end Sys2Proof.Machine

/-! ## Reset (O52) -/

namespace Sys2Proof.Machine

/-- A soft reset is accepted idle and busy, and is the reset of the input (70_reset_and_hazards.md R300). -/
theorem mmioWrite_ctrl_reset {off : Nat} {v : Word} (hr : regAt off = .ctrl) (hv : v.getLsbD 31 = true) (s : State) :
    mmioWrite off v s = s.resetCore :=
  (mmioWrite_not_owned hr rfl nofun s v).trans (writeCtrl_reset hv s)

/-- Settles O52: both resets are `State.resetCore`, which is `State.reset` but for the model's own fields. -/
theorem resetValues : Obligations.ResetValues := by
  intro s v off hoff hv
  refine ⟨s.resetCore, mmioWrite_ctrl_reset ((regAt_eq_ctrl_iff off).mpr hoff) hv s, rfl,
    fun j => ⟨s.resetCore_getM j, s.resetCore_getV j, s.resetCore_getX j⟩, ?_⟩
  exact ⟨rfl, rfl, rfl, rfl, rfl, rfl, rfl, rfl, rfl, rfl, rfl, rfl, rfl, rfl, rfl, rfl, rfl⟩

end Sys2Proof.Machine
